-- ==== Sys2Proof/Word.lean ====
section
/-! DEFINITION. The word types of the block and the plain data types that its state is made of: complex samples,
exact real numbers, templates, transform buffers (spec/00_scope.md R6, R8, R11, R12; spec/10_state.md R20). -/

namespace Sys2Proof

/-- A 32-bit word: a command, an output, a readback word, or one part of a sample (R8). -/
abbrev Word := BitVec 32

/-- A byte, for the serialisation of an item (R59). -/
abbrev Byte := BitVec 8

/-- A pair of a real and an imaginary part (R11). -/
structure Cx (α : Type) where
  re : α
  im : α
deriving DecidableEq, Repr, Inhabited

/-- One complex sample: two binary32 words (R6, R12). -/
structure Sample where
  re : Word
  im : Word
deriving DecidableEq, Repr, Inhabited

/-- One quadratic extension step: the number base + root * c, where c is the square root the step adjoins. -/
structure Quad (α : Type) where
  base : α
  root : α
deriving DecidableEq, Repr, Inhabited

/-- The exact real numbers of level n. Level 0 is the integers, and level n + 1 adjoins c(n+1) = sqrt(2 + c(n)),
where c(0) = 0. So c(n) = 2 * cos(pi / 2^(n+1)), and level 7 holds 2 * cos(2*pi*k/512) for every k: it is where the
exact real arithmetic of R14 takes place. -/
@[reducible] def Surd : Nat → Type
  | 0 => Int
  | n + 1 => Quad (Surd n)

/-- Level 7 of `Surd`, written out: the exact reals of the 512-point transform (R14, R162). -/
abbrev Exact : Type := Quad (Quad (Quad (Quad (Quad (Quad (Quad Int))))))

/-- 512 chips, chip k is bit k (R29; decision D45). -/
abbrev Code := BitVec 512

/-- A code table of 511 chips, chip k is bit k (R38, R100). -/
abbrev CodeTable := BitVec 511

/-- A template: 512 complex values whose parts are integers (R30). -/
abbrev Template := Vector (Cx Int) 512

/-- A window: 512 consecutive input samples (R160). -/
abbrev Window := Vector Sample 512

set_option synthInstance.maxSize 1000 in
/-- One FFT transform state: 512 input and 512 output complex values (R31). At EXACT numerics an input part is held
in units of 2^-149 and an output part in units of 2^-150, so that both are exact. -/
structure FftBuf where
  input  : Vector (Cx Int) 512
  output : Vector (Cx Exact) 512
deriving DecidableEq, Repr, Inhabited

/-- The two operating modes (R9). -/
inductive Mode where
  | single
  | dual
deriving DecidableEq, Repr, Inhabited

/-- The arithmetic of the window step (R7): exact, or that of an implementation. -/
inductive Numerics where
  | exact
  | implementation
deriving DecidableEq, Repr, Inhabited

/-- What one window step answers (R168): the output word, the two peak bins and the two transform buffers. -/
structure WindowResult where
  out  : Word
  idx0 : BitVec 9
  idx1 : BitVec 9
  fft0 : FftBuf
  fft1 : FftBuf
deriving DecidableEq, Repr, Inhabited

end Sys2Proof
end

