-- ==== Sys2Proof/Config.lean ====
section
/-! DEFINITION. What an implementation fixes (spec/00_scope.md R7) and the free values of the model. An opaque
constant here has no body: no proof can depend on what it is. -/

namespace Sys2Proof

/-- The parameters of one block (R7). They are constants of the block: no command and no reset changes them (R38,
R220). -/
structure Params where
  /-- Code table 1. -/
  mseq1 : CodeTable
  /-- Code table 2. -/
  mseq2 : CodeTable
  /-- IN_CAPACITY; none is unbounded. -/
  inCapacity : Option Nat
  /-- OUT_CAPACITY; none is unbounded. -/
  outCapacity : Option Nat
  /-- NUMERICS. -/
  numerics : Numerics
deriving DecidableEq, Repr

/-- MSEQ1: its contents are in no source (R100, decision D8). -/
opaque Config.mseq1 : CodeTable

/-- MSEQ2: its contents are in no source (R100, decision D8). -/
opaque Config.mseq2 : CodeTable

/-- How far IN_CAPACITY lies above its least value 512, or none when it is unbounded (R7, decision D16). -/
opaque Config.inCapacityAbove512 : Option Nat

/-- How far OUT_CAPACITY lies above its least value 1, or none when it is unbounded (R7, decision D16). -/
opaque Config.outCapacityAbove1 : Option Nat

/-- The parameters of the block that `State.reset` is the reset state of. NUMERICS has the spec's default, EXACT
(R7, R14); the others are open. -/
def Config.params : Params where
  mseq1 := Config.mseq1
  mseq2 := Config.mseq2
  inCapacity := Config.inCapacityAbove512.map (512 + ·)
  outCapacity := Config.outCapacityAbove1.map (1 + ·)
  numerics := .exact

/-- The window step of an implementation whose NUMERICS is not EXACT: a function of the window, the two templates and
the mode alone (R14, R177). -/
opaque Config.implementationWindow : Window → Template → Template → Mode → WindowResult

/-- What a window step answers where the spec lets it be any value, for a window with a part that is not finite and
for an exact result beyond the finite f32 range: the n-th draw (R168, decision D12). -/
opaque Config.freeWindow : Nat → WindowResult

end Sys2Proof
end

