-- ==== Sys2Proof/Syntax.lean ====
section
/-! DEFINITION. The commands of the block, one constructor per row of spec/opcode_table.json (spec/30_encoding.md R76,
R77). -/

namespace Sys2Proof

/-- The commands as `decode` of R77 gives them: selectors are integers, the run count is a natural number. -/
inductive Instr where
  /-- CFG.SINGLE sel (R141). -/
  | cfgSingle (sel : Int)
  /-- CFG.DUAL sel0, sel1 (R142). -/
  | cfgDual (sel0 sel1 : Int)
  /-- RUN n (R171). -/
  | run (n : Nat)
  /-- SRESET (R145). -/
  | sreset
deriving DecidableEq, Repr

end Sys2Proof
end

