-- ==== Sys2Proof/WellFormed.lean ====
section
/-! DEFINITION. Which commands the encoding can carry (spec/30_encoding.md R74, R75, R80). A selector that fits its
field may still be invalid: that is the configure command's own check (R206). -/

namespace Sys2Proof

/-- A selector that its 10-bit two's-complement field carries: -512 to 511 (R74). -/
def selectorFits (sel : Int) : Bool := decide (-512 ≤ sel) && decide (sel ≤ 511)

/-- A run count that its 16-bit unsigned field carries: 0 to 65535 (R75). -/
def countFits (n : Nat) : Bool := decide (n ≤ 65535)

/-- Every operand fits its field (R80: an assembler refuses one that does not). -/
def Instr.wellFormed : Instr → Bool
  | .cfgSingle sel => selectorFits sel
  | .cfgDual sel0 sel1 => selectorFits sel0 && selectorFits sel1
  | .run n => countFits n
  | .sreset => true

end Sys2Proof
end

