-- ==== Sys2Proof/Decode.lean ====
section
/-! DEFINITION. Decoding of command words and bytes, the encoder, and the assembler's syntax
(spec/30_encoding.md R70 to R81, spec/20_memory.md R59). -/

namespace Sys2Proof

/-- Why a word or a byte string is no command. -/
inductive DecodeReject where
  /-- Fewer than the four bytes of a command (R70). -/
  | truncated
  /-- OPC is 0x0 or 0x4 to 0xE (R78). -/
  | undefinedOpcode
  /-- OPC is defined and a reserved bit is set (R78). -/
  | reservedBits
deriving DecidableEq, Repr

/-- `OPC = w[31:28]` (R70). -/
def opcodeOf (w : Word) : BitVec 4 := w.extractLsb' 28 4

/-- `SELA = sext_10(w[9:0])`, the selector of slot 0 (R71, R74). -/
def selAOf (w : Word) : Int := (w.extractLsb' 0 10).toInt

/-- `SELB = sext_10(w[25:16])`, the selector of slot 1 (R71, R74). -/
def selBOf (w : Word) : Int := (w.extractLsb' 16 10).toInt

/-- `N = zext_16(w[15:0])` (R72, R75). -/
def countOf (w : Word) : Nat := (w.extractLsb' 0 16).toNat

/-- `decode` of R77, with a reason where R77 answers Illegal. -/
def decodeWord (w : Word) : Except DecodeReject Instr :=
  if w &&& 0xFFFFFC00#32 = 0x10000000#32 then .ok (.cfgSingle (selAOf w))
  else if w &&& 0xFC00FC00#32 = 0x20000000#32 then .ok (.cfgDual (selAOf w) (selBOf w))
  else if w &&& 0xFFFF0000#32 = 0x30000000#32 then .ok (.run (countOf w))
  else if w = 0xF0000000#32 then .ok .sreset
  else if opcodeOf w ∈ [0x1#4, 0x2#4, 0x3#4, 0xF#4] then .error .reservedBits
  else .error .undefinedOpcode

/-- The four bytes of a word, least significant first (R59). -/
def wordBytes (w : Word) : List Byte :=
  [w.extractLsb' 0 8, w.extractLsb' 8 8, w.extractLsb' 16 8, w.extractLsb' 24 8]

/-- The word of four bytes, least significant first (R59). -/
def wordOfBytes (b0 b1 b2 b3 : Byte) : Word := b3 ++ b2 ++ b1 ++ b0

/-- Decoding of a byte string: the command and the bytes after it. Every command is one word (R70, R79). -/
def decodeBytes : List Byte → Except DecodeReject (Instr × List Byte)
  | b0 :: b1 :: b2 :: b3 :: rest =>
    match decodeWord (wordOfBytes b0 b1 b2 b3) with
    | .ok i => .ok (i, rest)
    | .error e => .error e
  | _ => .error .truncated

/-- A 10-bit selector field (R74). -/
def selectorField (sel : Int) : BitVec 10 := BitVec.ofInt 10 sel

/-- The word of a command, from the bit patterns of R76 and R80. -/
def encode : Instr → Word
  | .cfgSingle sel => 0x1#4 ++ 0#18 ++ selectorField sel
  | .cfgDual sel0 sel1 => 0x2#4 ++ 0#2 ++ selectorField sel1 ++ 0#6 ++ selectorField sel0
  | .run n => 0x3#4 ++ 0#12 ++ BitVec.ofNat 16 n
  | .sreset => 0xF#4 ++ 0#28

/-- The bytes of a command (R59). -/
def encodeBytes (i : Instr) : List Byte := wordBytes (encode i)

/-- The mask of a command's row of R76. -/
def opcodeMask : Instr → Word
  | .cfgSingle _ => 0xFFFFFC00#32
  | .cfgDual _ _ => 0xFC00FC00#32
  | .run _ => 0xFFFF0000#32
  | .sreset => 0xFFFFFFFF#32

/-- The match of a command's row of R76. -/
def opcodeMatch : Instr → Word
  | .cfgSingle _ => 0x10000000#32
  | .cfgDual _ _ => 0x20000000#32
  | .run _ => 0x30000000#32
  | .sreset => 0xF0000000#32

/-- The command read from a table row's word: its low `nbits` bits are w's, the rest of the 32 are 0, and it is laid
out as four little-endian bytes (R59, R70). -/
def decodeTableWord (nbits w : Nat) : Option Instr :=
  match decodeBytes (wordBytes (BitVec.ofNat 32 (w % 2 ^ nbits))) with
  | .ok (i, _) => some i
  | .error _ => none

/-! ## Assembler syntax (R80, R81) -/

/-- The value of a digit character in a base, where it is one. -/
def digitValue (base : Nat) (c : Char) : Option Nat :=
  let v :=
    if '0' ≤ c ∧ c ≤ '9' then some (c.toNat - '0'.toNat)
    else if 'a' ≤ c ∧ c ≤ 'f' then some (c.toNat - 'a'.toNat + 10)
    else if 'A' ≤ c ∧ c ≤ 'F' then some (c.toNat - 'A'.toNat + 10)
    else none
  v.filter (· < base)

/-- The digits of a number in a base, read after those already read as `acc`. -/
def digitsValue (base : Nat) : Nat → List Char → Option Nat
  | acc, [] => some acc
  | acc, c :: cs =>
    match digitValue base c with
    | some d => digitsValue base (acc * base + d) cs
    | none => none

/-- An unsigned operand: decimal, or hexadecimal after 0x (R80). -/
def unsignedOperand : List Char → Option Nat
  | [] => none
  | '0' :: 'x' :: c :: cs => digitsValue 16 0 (c :: cs)
  | cs => digitsValue 10 0 cs

/-- A signed or unsigned operand (R80). R80 names the sign for decimal operands; a minus sign before `0x` is accepted
too (DESIGN CHOICE, notes/assumptions/16.md). -/
def operandValue : List Char → Option Int
  | '-' :: cs => (unsignedOperand cs).map (fun n => -(n : Int))
  | cs => (unsignedOperand cs).map (fun n => (n : Int))

/-- The text before the first space, and the text after it. -/
def splitMnemonic : List Char → List Char × List Char
  | [] => ([], [])
  | ' ' :: cs => ([], cs)
  | c :: cs => ((c :: (splitMnemonic cs).1), (splitMnemonic cs).2)

/-- The operands, separated by a comma and a space (R80). -/
def splitOperands : List Char → List (List Char)
  | [] => [[]]
  | ',' :: ' ' :: cs => [] :: splitOperands cs
  | c :: cs =>
    match splitOperands cs with
    | op :: ops => (c :: op) :: ops
    | [] => [[c]]

/-- One line of assembler as a command: the four mnemonics of R80 and the pseudo-commands of R81. One space after a
mnemonic that takes no operand is accepted, since nothing after it counts as no operand (DESIGN CHOICE,
notes/assumptions/16.md: R80 is silent). -/
def parseLine (line : List Char) : Option Instr :=
  let (mnemonic, rest) := splitMnemonic line
  let operands := if rest = [] then [] else splitOperands rest
  match operands.map operandValue with
  | [] =>
    if mnemonic = "sreset".toList then some .sreset
    else if mnemonic = "step".toList then some (.run 1)
    else none
  | [some a] =>
    if mnemonic = "cfg.single".toList then some (.cfgSingle a)
    else if mnemonic = "run".toList then (if 0 ≤ a then some (.run a.toNat) else none)
    else if mnemonic = "cfg.mseq1".toList then some (.cfgDual (-2) a)
    else if mnemonic = "cfg.mseq2".toList then some (.cfgDual (-1) a)
    else none
  | [some a, some b] => if mnemonic = "cfg.dual".toList then some (.cfgDual a b) else none
  | _ => none

/-- The word a line of assembler stands for; none where R80 has the assembler refuse it. -/
def assemble (line : List Char) : Option Word :=
  match parseLine line with
  | some i => if i.wellFormed then some (encode i) else none
  | none => none

end Sys2Proof
end

