-- ==== Sys2Proof/Machine/State.lean ====
section
/-! DEFINITION. The state of one block and of the Host that drives it (spec/10_state.md R20, spec/00_scope.md R15),
its reset value (spec/70_reset_and_hazards.md R220), and the reasons a step can stop. -/

namespace Sys2Proof.Machine

/-- The two phases (R23, R26). -/
inductive Phase where
  | unconfigured
  | ready
deriving DecidableEq, Repr, Inhabited

/-- The error codes 1 to 5 (R202). Codes 6 to 15 are reserved and never recorded, so they have no constructor. -/
inductive ErrorCode where
  /-- Code 1 (R203). -/
  | illegalCommand
  /-- Code 2 (R206). -/
  | invalidSelector
  /-- Code 3 (R204). -/
  | reconfigure
  /-- Code 4 (R205). -/
  | notConfigured
  /-- Code 5 (R207). -/
  | runLength
deriving DecidableEq, Repr

/-- What the Host does to the block in one step (R15): the port actions of R54, R56, R57, R58 and the reset input of
R221. -/
inductive HostAction where
  /-- CMDWR(w): write a command word (R58). -/
  | cmdWrite (w : Word)
  /-- PUSH(x): push one 64-bit sample item (R54). -/
  | push (item : BitVec 64)
  /-- POP: remove and receive the head of the output stream (R57). -/
  | pop
  /-- MemRead(addr, 4): receive a readback word (R56). -/
  | read (addr : BitVec 12)
  /-- Assert the hardware reset input (R221). -/
  | reset
deriving DecidableEq, Repr

/-- One turn in the total order of steps (R15, R64): the Engine's, or one action of the Host. -/
inductive Turn where
  | engine
  | host (a : HostAction)
deriving DecidableEq, Repr

/-- The state. The fields from `phase` to `firstErr` are the record of R20, under its names. The last four are the
model's own: the parameters of the block (R7), what the outside does (the turns still to come, and the words the
Host has received), and the number of draws made so far. -/
structure State where
  /-- `PHASE` (R23). -/
  phase : Phase
  /-- `MODE` (R24). -/
  mode : Mode
  /-- `SEL0`, 32-bit two's complement (R25). -/
  sel0 : Word
  /-- `SEL1`, 32-bit two's complement (R25). -/
  sel1 : Word
  /-- `CODE0` (R29). -/
  code0 : Code
  /-- `CODE1` (R29). -/
  code1 : Code
  /-- `T0` (R30). -/
  t0 : Template
  /-- `T1` (R30). -/
  t1 : Template
  /-- `FFTBUF0` (R31). -/
  fft0 : FftBuf
  /-- `FFTBUF1` (R31). -/
  fft1 : FftBuf
  /-- `IDX0` (R32). -/
  idx0 : BitVec 9
  /-- `IDX1` (R32). -/
  idx1 : BitVec 9
  /-- `LAST_OUT` (R33). -/
  lastOut : Word
  /-- `RP` (R34). -/
  rp : BitVec 64
  /-- `IN`: the live samples, the one at position `RP` first (R35). -/
  inStream : List Sample
  /-- `OUT`: the output FIFO, head first (R36). -/
  outFifo : List Word
  /-- `PENDING` (R37). -/
  pending : Option Word
  /-- `ERR`: the bit of error code c is bit c - 1 (R28). -/
  err : BitVec 5
  /-- `FIRST_ERR` (R28). -/
  firstErr : BitVec 4
  /-- The parameters MSEQ1, MSEQ2, IN_CAPACITY, OUT_CAPACITY and NUMERICS (R7); no step changes them. -/
  params : Params
  /-- The turns still to come, in order; when it is empty the Engine has the turn. -/
  agenda : List Turn
  /-- The words the Host has received by POP and MemRead, oldest first. -/
  received : List Word
  /-- The number of draws made so far, the argument of the next free value. -/
  draws : Nat
deriving DecidableEq, Repr

/-- A template with 0 in every entry (R30). -/
def zeroTemplate : Template := Vector.replicate 512 ⟨0, 0⟩

/-- A transform buffer with 0 in every entry. DESIGN CHOICE (notes/assumptions/2.md): R220 leaves the buffers
unspecified after reset. -/
def zeroFftBuf : FftBuf := ⟨Vector.replicate 512 ⟨0, 0⟩, Vector.replicate 512 default⟩

/-- The state right after reset (R220), of the block whose parameters are `Config.params`, with no turn to come and
nothing received. -/
def State.reset : State where
  phase := .unconfigured
  mode := .single
  sel0 := 0
  sel1 := 0
  code0 := 0
  code1 := 0
  t0 := zeroTemplate
  t1 := zeroTemplate
  fft0 := zeroFftBuf
  fft1 := zeroFftBuf
  idx0 := 0
  idx1 := 0
  lastOut := 0
  rp := 0
  inStream := []
  outFifo := []
  pending := none
  err := 0
  firstErr := 0
  params := Config.params
  agenda := []
  received := []
  draws := 0

/-- The reasons the machine stops. There are none: an error is recorded in STATUS and the block goes on (R200, R211),
and an agent without a step waits (R39, R208), so this type has no constructor. -/
inductive Fault where
deriving DecidableEq, Repr

/-- The reasons a step has no meaning. -/
inductive Refusal where
  /-- A command that `exec` gives no meaning, by its mnemonic. Raised by no arm of this model: every command of the
  opcode table has its meaning. Safe: where it stands, the model stops. -/
  | notModelled (mnemonic : String)
deriving DecidableEq, Repr

end Sys2Proof.Machine
end

