-- ==== Sys2Proof/Machine/Exact.lean ====
section
/-! DEFINITION. Exact real arithmetic for the window step (spec/00_scope.md R11, R14): the ordered ring `Surd n`, the
table of cosines, and complex arithmetic over it. Integers are exact, and a level adds one square root, so nothing
here rounds. -/

namespace Sys2Proof.Machine

/-- An integer as an exact real of level n. -/
def surdInt : (n : Nat) → Int → Surd n
  | 0, z => z
  | n + 1, z => ⟨surdInt n z, surdInt n 0⟩

/-- Addition. -/
def surdAdd : (n : Nat) → Surd n → Surd n → Surd n
  | 0, x, y => Int.add x y
  | n + 1, x, y => ⟨surdAdd n x.base y.base, surdAdd n x.root y.root⟩

/-- Negation. -/
def surdNeg : (n : Nat) → Surd n → Surd n
  | 0, x => Int.neg x
  | n + 1, x => ⟨surdNeg n x.base, surdNeg n x.root⟩

/-- Subtraction. -/
def surdSub (n : Nat) (x y : Surd n) : Surd n := surdAdd n x (surdNeg n y)

/-- The product with an integer. -/
def surdScale : (n : Nat) → Int → Surd n → Surd n
  | 0, z, x => Int.mul z x
  | n + 1, z, x => ⟨surdScale n z x.base, surdScale n z x.root⟩

/-- The product with 2 + c(n), the square of the root that level n + 1 adjoins. -/
def surdTimesRadicand : (n : Nat) → Surd n → Surd n
  | 0, x => Int.mul 2 x
  | n + 1, x =>
    surdAdd (n + 1) (surdScale (n + 1) 2 x) ⟨surdTimesRadicand n x.root, x.base⟩

/-- Multiplication: (a + b c)(a' + b' c) = (a a' + b b' c^2) + (a b' + a' b) c, with three products of the level
below. -/
def surdMul : (n : Nat) → Surd n → Surd n → Surd n
  | 0, x, y => Int.mul x y
  | n + 1, x, y =>
    let bases := surdMul n x.base y.base
    let roots := surdMul n x.root y.root
    let sums := surdMul n (surdAdd n x.base x.root) (surdAdd n y.base y.root)
    ⟨surdAdd n bases (surdTimesRadicand n roots), surdSub n (surdSub n sums bases) roots⟩

/-- The sign, -1, 0 or 1. Where base and root have opposite signs, the larger of |base| and |root| c decides, and
that is the sign of base^2 - root^2 c^2, a number of the level below. -/
def surdSign : (n : Nat) → Surd n → Int
  | 0, x => Int.sign x
  | n + 1, x =>
    let sb := surdSign n x.base
    let sr := surdSign n x.root
    if sr = 0 then sb
    else if sb = 0 then sr
    else if sb = sr then sb
    else
      sb * surdSign n (surdSub n (surdMul n x.base x.base)
        (surdTimesRadicand n (surdMul n x.root x.root)))

/-- Exact comparison. -/
def surdCompare (n : Nat) (x y : Surd n) : Ordering := compare (surdSign n (surdSub n x y)) 0

/-- One step of the cosine table. Given t(j) = 2 cos(j a) for j from some index on, and `prev` = b(j-1), it lists
2 cos(2j a') and 2 cos((2j+1) a') for a' = a/2: the first is t(j), the second is b(j) * 2 cos(a') with
b(j) = t(j) - b(j-1), since 2 cos((2j+1) a') + 2 cos((2j-1) a') = 2 cos(a') * 2 cos(2j a'). -/
def interleaveCos (n : Nat) : Surd n → List (Surd n) → List (Surd (n + 1))
  | _, [] => []
  | prev, t :: ts =>
    let b := surdSub n t prev
    ⟨t, surdInt n 0⟩ :: ⟨surdInt n 0, b⟩ :: interleaveCos n b ts

/-- The doubled cosines of N = 2^(n+2) equal steps of the circle: entry k is 2 cos(2 pi k / N) (R162). -/
def cosTable : (n : Nat) → List (Surd n)
  | 0 => [(2 : Int), (0 : Int), (-2 : Int), (0 : Int)]
  | n + 1 => interleaveCos n (surdInt n 1) (cosTable n)

/-- The zero of the complex numbers over level n. -/
def cxZero (n : Nat) : Cx (Surd n) := ⟨surdInt n 0, surdInt n 0⟩

/-- The sum of two complex numbers over level n (R11). -/
def cxAdd (n : Nat) (x y : Cx (Surd n)) : Cx (Surd n) := ⟨surdAdd n x.re y.re, surdAdd n x.im y.im⟩

/-- The product of a complex integer and a complex number over level n: (ac - bd) + i(ad + bc) (R11). -/
def cxScale (n : Nat) (p : Cx Int) (z : Cx (Surd n)) : Cx (Surd n) :=
  ⟨surdSub n (surdScale n p.re z.re) (surdScale n p.im z.im),
   surdAdd n (surdScale n p.re z.im) (surdScale n p.im z.re)⟩

/-- |z|^2 = re(z)^2 + im(z)^2 (R11). -/
def cxNormSq (n : Nat) (z : Cx (Surd n)) : Surd n :=
  surdAdd n (surdMul n z.re z.re) (surdMul n z.im z.im)

/-- The product of two complex integers: (ac - bd) + i(ad + bc) (R11). -/
def cxMul (x y : Cx Int) : Cx Int := ⟨x.re * y.re - x.im * y.im, x.re * y.im + x.im * y.re⟩

/-- The conjugate re - i im (R11). -/
def cxConj (x : Cx Int) : Cx Int := ⟨x.re, -x.im⟩

/-- The doubled unit roots of N = 2^(n+2): entry k is 2 exp(-2 pi i k / N) = 2 cos(2 pi k / N) - 2 i sin(2 pi k / N),
and sin(2 pi k / N) = cos(2 pi (k + 3N/4) / N) (R162). -/
def unitRoots (n : Nat) : Array (Cx (Surd n)) :=
  let cosines := (cosTable n).toArray
  Array.ofFn (n := 2 ^ (n + 2)) fun k =>
    ⟨cosines.getD k (surdInt n 0),
     surdNeg n (cosines.getD ((k + 3 * 2 ^ n) % 2 ^ (n + 2)) (surdInt n 0))⟩

/-- The sum over j < count of p(j) * roots[j*m mod N], for N = 2^(n+2). -/
def rootSum (n : Nat) (roots : Array (Cx (Surd n))) (p : Nat → Cx Int) (m : Nat) : Nat → Cx (Surd n)
  | 0 => cxZero n
  | count + 1 =>
    cxAdd n (rootSum n roots p m count)
      (cxScale n (p count) (roots.getD (count * m % 2 ^ (n + 2)) (cxZero n)))

/-- The forward transform of 2^(n+2) points, doubled: bin m is 2 * sum_j p(j) exp(-2 pi i j m / N), with no
normalisation (R162). -/
def transform (n : Nat) (p : Nat → Cx Int) : Vector (Cx (Surd n)) (2 ^ (n + 2)) :=
  let roots := unitRoots n
  Vector.ofFn fun m => rootSum n roots p m (2 ^ (n + 2))

end Sys2Proof.Machine
end

