-- ==== Sys2Proof/Machine/FastTransform.lean ====
section
/-! DEFINITION. How compiled code evaluates `transform`, and the proof that it is the same function: the terms of a bin
are first collected by the exponent of their unit root, and a sum of multiples of cosines is then brought to the
form of `Surd` by halving the list, so that no product of an exact number is formed. The meaning of `transform` is
its definition in Machine/Exact.lean; nothing in the model refers to this file. -/

namespace Sys2Proof.Machine

/-- The entries at even places. -/
def evenPlaces : List Int → List Int
  | [] => []
  | [x] => [x]
  | x :: _ :: rest => x :: evenPlaces rest

/-- The entries at odd places. -/
def oddPlaces : List Int → List Int
  | [] => []
  | [_] => []
  | _ :: y :: rest => y :: oddPlaces rest

/-- The alternating sums of the suffixes: entry j is x(j) - x(j+1) + x(j+2) - ... -/
def alternatingSuffixes : List Int → List Int
  | [] => []
  | x :: rest => (x - (alternatingSuffixes rest).headD 0) :: alternatingSuffixes rest

/-- The sum of the multiples a(k) of the entries of `cosTable n`. -/
def cosSum : (n : Nat) → List Int → Surd n
  | 0, coefs => Int.sub (Int.mul 2 (coefs.getD 0 0)) (Int.mul 2 (coefs.getD 2 0))
  | n + 1, coefs =>
    let suffixes := alternatingSuffixes (oddPlaces coefs)
    ⟨cosSum n (evenPlaces coefs), surdSub n (cosSum n suffixes) (surdInt n (suffixes.headD 0))⟩

/-- The terms p(j), j < count, collected by their exponent j*m mod N, for N = 2^(n+2). -/
def collectTerms (n : Nat) (p : Nat → Cx Int) (m : Nat) : Nat → Array (Cx Int)
  | 0 => Array.replicate (2 ^ (n + 2)) ⟨0, 0⟩
  | count + 1 =>
    (collectTerms n p m count).modify (count * m % 2 ^ (n + 2))
      fun g => ⟨g.re + (p count).re, g.im + (p count).im⟩

/-- The bin of the collected terms g(k): sum_k g(k) (cos - i sin), where sin k = cos (k + 3N/4). -/
def collectedBin (n : Nat) (g : Array (Cx Int)) : Cx (Surd n) :=
  let quarter (k : Nat) : Cx Int := g.getD ((k + 2 ^ n) % 2 ^ (n + 2)) ⟨0, 0⟩
  let places := List.range (2 ^ (n + 2))
  ⟨cosSum n (places.map fun k => (g.getD k ⟨0, 0⟩).re + (quarter k).im),
   cosSum n (places.map fun k => (g.getD k ⟨0, 0⟩).im - (quarter k).re)⟩

/-- `transform`, by collecting. -/
def transformFast (n : Nat) (p : Nat → Cx Int) : Vector (Cx (Surd n)) (2 ^ (n + 2)) :=
  Vector.ofFn fun m => collectedBin n (collectTerms n p m (2 ^ (n + 2)))

/-! ## The proof -/

/-- A coordinate of an exact number, by the path of base (false) and root (true) that leads to it. -/
def coord : (n : Nat) → List Bool → Surd n → Int
  | 0, _, x => x
  | n + 1, [], x => coord n [] x.base
  | n + 1, b :: path, x => coord n path (if b then x.root else x.base)

theorem coord_ext (n : Nat) (x y : Surd n) (h : ∀ path, coord n path x = coord n path y) : x = y := by
  induction n with
  | zero => exact h []
  | succ n ih =>
    have hb := ih x.base y.base fun path => h (false :: path)
    have hr := ih x.root y.root fun path => h (true :: path)
    cases x; cases y; simp_all

theorem coord_add (n : Nat) (path : List Bool) (x y : Surd n) :
    coord n path (surdAdd n x y) = coord n path x + coord n path y := by
  induction n generalizing path with
  | zero => rfl
  | succ n ih => rcases path with _ | ⟨_ | _, path⟩ <;> exact ih _ _ _

theorem coord_neg (n : Nat) (path : List Bool) (x : Surd n) :
    coord n path (surdNeg n x) = -coord n path x := by
  induction n generalizing path with
  | zero => rfl
  | succ n ih => rcases path with _ | ⟨_ | _, path⟩ <;> exact ih _ _

theorem coord_sub (n : Nat) (path : List Bool) (x y : Surd n) :
    coord n path (surdSub n x y) = coord n path x - coord n path y := by
  rw [surdSub, coord_add, coord_neg, Int.sub_eq_add_neg]

theorem coord_scale (n : Nat) (path : List Bool) (z : Int) (x : Surd n) :
    coord n path (surdScale n z x) = z * coord n path x := by
  induction n generalizing path with
  | zero => rfl
  | succ n ih => rcases path with _ | ⟨_ | _, path⟩ <;> exact ih _ _

theorem coord_int (n : Nat) (path : List Bool) (z : Int) :
    coord n path (surdInt n z) = z * coord n path (surdInt n 1) := by
  induction n generalizing path z with
  | zero => exact (Int.mul_one z).symm
  | succ n ih =>
    rcases path with _ | ⟨_ | _, path⟩
    · exact ih _ _
    · exact ih _ _
    · refine (ih path 0).trans ?_
      rw [Int.zero_mul]
      exact (Int.mul_eq_zero.mpr (.inr ((ih path 0).trans (Int.zero_mul _)))).symm

theorem coord_zero (n : Nat) (path : List Bool) : coord n path (surdInt n 0) = 0 := by
  rw [coord_int, Int.zero_mul]

/-- The sum of products of coefficients and coordinates of table entries. -/
def pairing (n : Nat) (path : List Bool) (coefs : List Int) (table : List (Surd n)) : Int :=
  (List.zipWith (fun a t => a * coord n path t) coefs table).sum

theorem pairing_base (n : Nat) (path : List Bool) (prev : Surd n) (table : List (Surd n)) (coefs : List Int)
    (hlen : coefs.length = 2 * table.length) :
    pairing (n + 1) (false :: path) coefs (interleaveCos n prev table) =
      pairing n path (evenPlaces coefs) table := by
  induction table generalizing prev coefs with
  | nil => simp [pairing, interleaveCos]
  | cons t table ih =>
    match coefs, hlen with
    | x :: y :: rest, hlen =>
      have := ih (surdSub n t prev) rest (by simp at hlen; omega)
      simp only [pairing] at this
      simp only [pairing, interleaveCos, evenPlaces, List.zipWith_cons_cons, List.sum_cons, this]
      rw [show coord (n + 1) (false :: path) ⟨surdInt n 0, surdSub n t prev⟩ = 0 from coord_zero n path]
      rw [show coord (n + 1) (false :: path) ⟨t, surdInt n 0⟩ = coord n path t from rfl]
      omega

theorem pairing_root (n : Nat) (path : List Bool) (prev : Surd n) (table : List (Surd n)) (coefs : List Int)
    (hlen : coefs.length = 2 * table.length) :
    pairing (n + 1) (true :: path) coefs (interleaveCos n prev table) =
      pairing n path (alternatingSuffixes (oddPlaces coefs)) table -
        (alternatingSuffixes (oddPlaces coefs)).headD 0 * coord n path prev := by
  induction table generalizing prev coefs with
  | nil =>
    have : coefs = [] := List.length_eq_zero_iff.mp hlen
    subst this
    simp [pairing, interleaveCos, oddPlaces, alternatingSuffixes]
  | cons t table ih =>
    match coefs, hlen with
    | x :: y :: rest, hlen =>
      have := ih (surdSub n t prev) rest (by simp at hlen; omega)
      simp only [pairing] at this
      simp only [pairing, interleaveCos, oddPlaces, alternatingSuffixes, List.zipWith_cons_cons, List.sum_cons,
        this, List.headD_cons]
      rw [show coord (n + 1) (true :: path) ⟨t, surdInt n 0⟩ = 0 from coord_zero n path]
      rw [show coord (n + 1) (true :: path) ⟨surdInt n 0, surdSub n t prev⟩ =
        coord n path (surdSub n t prev) from rfl, coord_sub]
      ring

theorem interleaveCos_size (n : Nat) (prev : Surd n) (table : List (Surd n)) :
    (interleaveCos n prev table).length = 2 * table.length := by
  induction table generalizing prev with
  | nil => rfl
  | cons t table ih => simp [interleaveCos, ih]; omega

theorem cosTable_size (n : Nat) : (cosTable n).length = 2 ^ (n + 2) := by
  induction n with
  | zero => rfl
  | succ n ih => rw [cosTable, interleaveCos_size, ih, Nat.pow_succ 2 (n + 2), Nat.mul_comm]

theorem evenPlaces_size (k : Nat) (l : List Int) (h : l.length = 2 * k) : (evenPlaces l).length = k := by
  induction k generalizing l with
  | zero => have : l = [] := List.length_eq_zero_iff.mp h; subst this; rfl
  | succ k ih =>
    match l, h with
    | x :: y :: rest, h => simp [evenPlaces, ih rest (by simp at h; omega)]

theorem oddPlaces_size (k : Nat) (l : List Int) (h : l.length = 2 * k) : (oddPlaces l).length = k := by
  induction k generalizing l with
  | zero => have : l = [] := List.length_eq_zero_iff.mp h; subst this; rfl
  | succ k ih =>
    match l, h with
    | x :: y :: rest, h => simp [oddPlaces, ih rest (by simp at h; omega)]

theorem alternatingSuffixes_size (l : List Int) : (alternatingSuffixes l).length = l.length := by
  induction l with
  | nil => rfl
  | cons x l ih => simp [alternatingSuffixes, ih]

/-- `cosSum` is the sum of the multiples of the table's entries, coordinate by coordinate. -/
theorem coord_cosSum (n : Nat) (path : List Bool) (coefs : List Int) (hlen : coefs.length = 2 ^ (n + 2)) :
    coord n path (cosSum n coefs) = pairing n path coefs (cosTable n) := by
  induction n generalizing path coefs with
  | zero =>
    match coefs, hlen with
    | [a, b, c, d], _ =>
      simp only [pairing, cosTable, coord, List.zipWith_cons_cons, List.sum_cons, List.zipWith_nil_left,
        List.sum_nil]
      show Int.sub (Int.mul 2 a) (Int.mul 2 c) = _
      show 2 * a - 2 * c = _
      omega
  | succ n ih =>
    have hlen' : coefs.length = 2 * 2 ^ (n + 2) := by rw [hlen, Nat.pow_succ 2 (n + 2), Nat.mul_comm]
    have hT : coefs.length = 2 * (cosTable n).length := by rw [hlen', cosTable_size]
    have hbase : ∀ path, coord n path (cosSum n (evenPlaces coefs)) =
        pairing (n + 1) (false :: path) coefs (cosTable (n + 1)) := fun path => by
      rw [ih path _ (evenPlaces_size _ _ hlen'), cosTable, pairing_base _ _ _ _ _ hT]
    rcases path with _ | ⟨_ | _, path⟩
    · refine (hbase []).trans ?_
      have : ∀ x : Surd (n + 1), coord (n + 1) [false] x = coord (n + 1) [] x := fun x => by
        cases n <;> rfl
      simp only [pairing, this]
    · exact hbase path
    · have hs : (alternatingSuffixes (oddPlaces coefs)).length = 2 ^ (n + 2) := by
        rw [alternatingSuffixes_size, oddPlaces_size _ _ hlen']
      show coord n path (surdSub n (cosSum n (alternatingSuffixes (oddPlaces coefs)))
        (surdInt n ((alternatingSuffixes (oddPlaces coefs)).headD 0))) = _
      rw [coord_sub, ih path _ hs, coord_int, cosTable, pairing_root _ _ _ _ _ hT]

/-- The coordinate of entry k of the table of cosines. -/
def tableCoord (n : Nat) (path : List Bool) (k : Nat) : Int :=
  coord n path ((cosTable n).getD k (surdInt n 0))

theorem sum_map_range (count : Nat) (f : Nat → Int) :
    ((List.range count).map f).sum = ∑ k ∈ Finset.range count, f k := by
  induction count with
  | zero => rfl
  | succ count ih => rw [List.range_succ, List.map_append, List.sum_append, ih, Finset.sum_range_succ]; simp

/-- The coordinate of a sum of multiples, as a sum over the places. -/
theorem coord_cosSum_range (n : Nat) (path : List Bool) (f : Nat → Int) :
    coord n path (cosSum n ((List.range (2 ^ (n + 2))).map f)) =
      ∑ k ∈ Finset.range (2 ^ (n + 2)), f k * tableCoord n path k := by
  rw [coord_cosSum _ _ _ (by simp), pairing, ← sum_map_range]
  congr 1
  apply List.ext_getElem
  · simp [cosTable_size]
  · intro k h1 h2
    have hk : k < (cosTable n).length := by simp at h1; omega
    simp [tableCoord, hk]

theorem collectTerms_size (n : Nat) (p : Nat → Cx Int) (m count : Nat) :
    (collectTerms n p m count).size = 2 ^ (n + 2) := by
  induction count with
  | zero => simp [collectTerms]
  | succ count ih => simp [collectTerms, ih]

/-- Entry k of the collected terms is the sum of the terms with exponent k. -/
theorem collectTerms_get (n : Nat) (p : Nat → Cx Int) (m count k : Nat) (hk : k < 2 ^ (n + 2)) :
    (collectTerms n p m count).getD k ⟨0, 0⟩ =
      ⟨∑ j ∈ Finset.range count, if k = j * m % 2 ^ (n + 2) then (p j).re else 0,
       ∑ j ∈ Finset.range count, if k = j * m % 2 ^ (n + 2) then (p j).im else 0⟩ := by
  induction count with
  | zero => simp [collectTerms, Array.getD, hk]
  | succ count ih =>
    have hs := collectTerms_size n p m count
    simp only [Array.getD, hs, hk, dite_true, Array.getInternal_eq_getElem] at ih
    simp only [collectTerms, Array.getD, Array.size_modify, hs, hk, dite_true,
      Array.getInternal_eq_getElem, Array.getElem_modify, Finset.sum_range_succ]
    by_cases h : count * m % 2 ^ (n + 2) = k
    · simp [h, ih]
    · have h' : ¬ k = count * m % 2 ^ (n + 2) := fun e => h e.symm
      simp [h, h', ih]

/-- A sum over the places of collected terms is the sum over the terms. -/
theorem sum_collected (size count : Nat) (hsize : 0 < size) (place : Nat → Nat) (x g : Nat → Int) :
    ∑ k ∈ Finset.range size, (∑ j ∈ Finset.range count, if k = place j % size then x j else 0) * g k =
      ∑ j ∈ Finset.range count, x j * g (place j % size) := by
  simp only [Finset.sum_mul]
  rw [Finset.sum_comm]
  refine Finset.sum_congr rfl fun j _ => ?_
  rw [Finset.sum_eq_single (place j % size)]
  · simp
  · intro k _ hk; simp [hk]
  · intro h; exact absurd (Finset.mem_range.mpr (Nat.mod_lt _ hsize)) h

/-- The place a quarter turn on is e exactly for the place three quarters of a turn past e. -/
theorem quarter_place (n e k : Nat) (hk : k < 2 ^ (n + 2)) (he : e < 2 ^ (n + 2)) :
    (k + 2 ^ n) % 2 ^ (n + 2) = e ↔ k = (e + 3 * 2 ^ n) % 2 ^ (n + 2) := by
  have : 2 ^ (n + 2) = 4 * 2 ^ n := by rw [Nat.pow_add]; omega
  rw [this] at hk he ⊢
  clear this
  generalize 2 ^ n = q at *
  constructor
  · intro h
    rcases Nat.lt_or_ge (k + q) (4 * q) with hlt | hge
    · rw [Nat.mod_eq_of_lt hlt] at h
      rw [← h, show k + q + 3 * q = k + 4 * q by omega, Nat.add_mod_right, Nat.mod_eq_of_lt hk]
    · rw [Nat.mod_eq_sub_mod hge, Nat.mod_eq_of_lt (by omega)] at h
      rw [← h, Nat.mod_eq_of_lt (by omega)]; omega
  · intro h
    rcases Nat.lt_or_ge (e + 3 * q) (4 * q) with hlt | hge
    · rw [Nat.mod_eq_of_lt hlt] at h
      rw [h, show e + 3 * q + q = e + 4 * q by omega, Nat.add_mod_right, Nat.mod_eq_of_lt he]
    · rw [Nat.mod_eq_sub_mod hge, Nat.mod_eq_of_lt (by omega)] at h
      rw [h, Nat.mod_eq_of_lt (by omega)]; omega

theorem unitRoots_get (n k : Nat) (hk : k < 2 ^ (n + 2)) :
    (unitRoots n).getD k (cxZero n) =
      ⟨(cosTable n).getD k (surdInt n 0),
       surdNeg n ((cosTable n).getD ((k + 3 * 2 ^ n) % 2 ^ (n + 2)) (surdInt n 0))⟩ := by
  have hk' : (k + 3 * 2 ^ n) % 2 ^ (n + 2) < 2 ^ (n + 2) := Nat.mod_lt _ (by positivity)
  simp [unitRoots, Array.getD, hk, hk', cosTable_size]

/-- The coordinates of a sum of terms times unit roots. -/
theorem coord_rootSum (n m : Nat) (path : List Bool) (p : Nat → Cx Int) (count : Nat) :
    coord n path (rootSum n (unitRoots n) p m count).re =
        ∑ j ∈ Finset.range count, ((p j).re * tableCoord n path (j * m % 2 ^ (n + 2)) +
          (p j).im * tableCoord n path ((j * m % 2 ^ (n + 2) + 3 * 2 ^ n) % 2 ^ (n + 2))) ∧
      coord n path (rootSum n (unitRoots n) p m count).im =
        ∑ j ∈ Finset.range count, ((p j).im * tableCoord n path (j * m % 2 ^ (n + 2)) -
          (p j).re * tableCoord n path ((j * m % 2 ^ (n + 2) + 3 * 2 ^ n) % 2 ^ (n + 2))) := by
  induction count with
  | zero => exact ⟨coord_zero n path, coord_zero n path⟩
  | succ count ih =>
    simp only [rootSum, cxAdd, cxScale, unitRoots_get n _ (Nat.mod_lt _ (show 0 < 2 ^ (n + 2) by positivity)),
      coord_add, coord_sub, coord_scale, coord_neg, ih.1, ih.2, Finset.sum_range_succ, tableCoord]
    constructor <;> ring

/-- A bin by collecting is the bin. -/
theorem collectedBin_eq (n : Nat) (p : Nat → Cx Int) (m : Nat) :
    collectedBin n (collectTerms n p m (2 ^ (n + 2))) = rootSum n (unitRoots n) p m (2 ^ (n + 2)) := by
  have hN : 0 < 2 ^ (n + 2) := by positivity
  have hplace : ∀ k ∈ Finset.range (2 ^ (n + 2)),
      (collectTerms n p m (2 ^ (n + 2))).getD k ⟨0, 0⟩ = _ := fun k hk =>
    collectTerms_get n p m (2 ^ (n + 2)) k (Finset.mem_range.mp hk)
  have hquarter : ∀ k ∈ Finset.range (2 ^ (n + 2)),
      (collectTerms n p m (2 ^ (n + 2))).getD ((k + 2 ^ n) % 2 ^ (n + 2)) ⟨0, 0⟩ =
        ⟨∑ j ∈ Finset.range (2 ^ (n + 2)),
            if k = (j * m % 2 ^ (n + 2) + 3 * 2 ^ n) % 2 ^ (n + 2) then (p j).re else 0,
         ∑ j ∈ Finset.range (2 ^ (n + 2)),
            if k = (j * m % 2 ^ (n + 2) + 3 * 2 ^ n) % 2 ^ (n + 2) then (p j).im else 0⟩ := fun k hk => by
    rw [collectTerms_get n p m _ _ (Nat.mod_lt _ hN)]
    simp only [quarter_place n _ k (Finset.mem_range.mp hk) (Nat.mod_lt _ hN)]
  have hre : (collectedBin n (collectTerms n p m (2 ^ (n + 2)))).re =
      (rootSum n (unitRoots n) p m (2 ^ (n + 2))).re := by
    apply coord_ext
    intro path
    rw [(coord_rootSum n m path p _).1, collectedBin]
    dsimp only
    rw [coord_cosSum_range, Finset.sum_congr rfl fun k hk => by rw [hplace k hk, hquarter k hk]]
    simp only [Int.add_mul, Finset.sum_add_distrib]
    rw [sum_collected _ _ hN (fun j => j * m), sum_collected _ _ hN (fun j => j * m % 2 ^ (n + 2) + 3 * 2 ^ n)]
  have him : (collectedBin n (collectTerms n p m (2 ^ (n + 2)))).im =
      (rootSum n (unitRoots n) p m (2 ^ (n + 2))).im := by
    apply coord_ext
    intro path
    rw [(coord_rootSum n m path p _).2, collectedBin]
    dsimp only
    rw [coord_cosSum_range, Finset.sum_congr rfl fun k hk => by rw [hplace k hk, hquarter k hk]]
    simp only [Int.sub_mul, Finset.sum_sub_distrib]
    rw [sum_collected _ _ hN (fun j => j * m), sum_collected _ _ hN (fun j => j * m % 2 ^ (n + 2) + 3 * 2 ^ n)]
  cases h1 : collectedBin n (collectTerms n p m (2 ^ (n + 2)))
  cases h2 : rootSum n (unitRoots n) p m (2 ^ (n + 2))
  simp_all

/-- Compiled code runs `transformFast` for `transform`: they are the same function. -/
@[csimp] theorem transform_eq_fast : @transform = @transformFast := by
  funext n p
  simp only [transform, transformFast, collectedBin_eq]

end Sys2Proof.Machine
end

