-- ==== Sys2Proof/Machine/Float.lean ====
section
/-! DEFINITION. binary32 words (spec/00_scope.md R12): which are finite, their values, and rounding to the nearest
word with ties to the even significand. Values are held exactly, in units of 2^-149. -/

namespace Sys2Proof.Machine

/-- `is_finite(x)`: neither NaN nor infinite (R12). -/
def isFinite (w : Word) : Bool := w.extractLsb' 23 8 != 0xFF#8

/-- The magnitude of a finite word in units of 2^-149, from its low 31 bits as a number: the significand shifted by
the exponent (R12). -/
def magnitudeOf (bits : Nat) : Nat :=
  let exponent := bits / 2 ^ 23
  let fraction := bits % 2 ^ 23
  if exponent = 0 then fraction else (2 ^ 23 + fraction) * 2 ^ (exponent - 1)

/-- `val(x)` of a finite word, in units of 2^-149 (R12). -/
def scaledVal (w : Word) : Int :=
  let magnitude : Int := magnitudeOf (w.extractLsb' 0 31).toNat
  if w.getLsbD 31 then -magnitude else magnitude

/-- The low 31 bits of the largest finite word, 2^128 - 2^104 (R168). -/
def largestFiniteBits : Nat := 0x7F7FFFFF

/-- A non-negative real, known by how it compares with each multiple of 2^-150: `cmp y` compares the real with
y * 2^-150. -/
abbrev Comparison := Nat → Ordering

/-- Whether the real is at least the value of the finite word with these low 31 bits. -/
def reaches (cmp : Comparison) (bits : Nat) : Bool :=
  bits ≤ largestFiniteBits && cmp (2 * magnitudeOf bits) != .lt

/-- The largest word reached, found bit by bit from bit `count - 1` down. -/
def searchBits (cmp : Comparison) : Nat → Nat → Nat
  | 0, bits => bits
  | count + 1, bits =>
    if reaches cmp (bits + 2 ^ count) then searchBits cmp count (bits + 2 ^ count)
    else searchBits cmp count bits

/-- `rne32` of a non-negative real, as 31 bits (R12); none where the real is above the largest finite word (R168).
The two words around the real have the midpoint (mag + mag') * 2^-150. -/
def roundBits (cmp : Comparison) : Option Nat :=
  if cmp (2 * magnitudeOf largestFiniteBits) = .gt then none
  else
    let below := searchBits cmp 31 0
    match cmp (magnitudeOf below + magnitudeOf (below + 1)) with
    | .lt => some below
    | .gt => some (below + 1)
    | .eq => some (if below % 2 = 0 then below else below + 1)

/-- `rne32` of a non-negative real, as a word (R12). -/
def roundWord (cmp : Comparison) : Option Word := (roundBits cmp).map (BitVec.ofNat 32)

/-- The word of the same magnitude with the sign bit set. -/
def negWord (w : Word) : Word := w ||| 0x80000000#32

/-- `rne32` of an integer (R12), for the parts of a template (R55). -/
def intWord (z : Int) : Word :=
  let magnitude := (roundWord fun y => compare (z.natAbs * 2 ^ 150) y).getD 0
  if z < 0 then negWord magnitude else magnitude

end Sys2Proof.Machine
end

