-- ==== Sys2Proof/Machine/Operands.lean ====
section
/-! DEFINITION. Operand forms of the commands and items of the ports: selector validity and the held form of a
selector (spec/10_state.md R25, spec/60_exceptions.md R206), the sample item (spec/20_memory.md R59), and the live
samples of the input stream (spec/20_memory.md R51, R52). -/

namespace Sys2Proof.Machine

/-- A valid selector: -2 <= sel <= 510 (R101). -/
def validSelector (sel : Int) : Bool := decide (-2 ≤ sel) && decide (sel ≤ 510)

/-- A selector as SEL0 and SEL1 hold it: 32-bit two's complement (R20, R25). -/
def selectorWord (sel : Int) : Word := BitVec.ofInt 32 sel

/-- A sample from its 64-bit item: bits [31:0] the real part, bits [63:32] the imaginary part (R59). -/
def sampleOfItem (item : BitVec 64) : Sample := ⟨item.extractLsb' 0 32, item.extractLsb' 32 32⟩

/-- The 64-bit item of a sample (R59). -/
def itemOfSample (x : Sample) : BitVec 64 := x.im ++ x.re

/-- The bytes of a sample: the four of the real part, then the four of the imaginary part, each least significant
first (R59). -/
def sampleBytes (x : Sample) : List Byte := wordBytes x.re ++ wordBytes x.im

/-- LIVE, the number of live samples (R35, R51). -/
def live (s : State) : Nat := s.inStream.length

/-- `InRead(p)`: the sample at stream position p, where it is live (R52). -/
def inRead (s : State) (p : BitVec 64) : Option Sample := s.inStream[(p - s.rp).toNat]?

/-- The window at stream position p: `W[j] = InRead(p + j)` (R160). A window step is taken only where every position
is live (R170), so the default sample is never read there. -/
def window (s : State) (p : BitVec 64) : Window :=
  Vector.ofFn fun j : Fin 512 => (inRead s (p + BitVec.ofNat 64 j)).getD default

/-- Both parts of the sample are finite (R168). -/
def finiteSample (x : Sample) : Bool := isFinite x.re && isFinite x.im

/-- The exact complex value of a finite sample, in units of 2^-149 (R160). -/
def sampleVal (x : Sample) : Cx Int := ⟨scaledVal x.re, scaledVal x.im⟩

/-- A capacity as its readback word: the capacity, or 0xFFFFFFFF if unbounded or at least 0xFFFFFFFF (R55). -/
def capacityWord : Option Nat → Word
  | none => 0xFFFFFFFF#32
  | some n => BitVec.ofNat 32 (min n 0xFFFFFFFF)

/-- A count as its readback word: min(count, 0xFFFFFFFF) (R55). -/
def countWord (n : Nat) : Word := BitVec.ofNat 32 (min n 0xFFFFFFFF)

/-- Whether a capacity is at least n. -/
def capacityAtLeast (capacity : Option Nat) (n : Nat) : Bool :=
  match capacity with
  | none => true
  | some c => decide (n ≤ c)

end Sys2Proof.Machine
end

