-- ==== Sys2Proof/Machine/Flags.lean ====
section
/-! DEFINITION. The error record and the STATUS view (spec/10_state.md R27, R28; spec/60_exceptions.md R202). -/

namespace Sys2Proof.Machine

/-- The number of an error code (R202). -/
def errorNumber : ErrorCode → BitVec 4
  | .illegalCommand => 1
  | .invalidSelector => 2
  | .reconfigure => 3
  | .notConfigured => 4
  | .runLength => 5

/-- The bit of an error code in ERR: bit c - 1 for code c, so that ERR is STATUS[12:8] (R27, R28). -/
def errorBit : ErrorCode → BitVec 5
  | .illegalCommand => 0b00001
  | .invalidSelector => 0b00010
  | .reconfigure => 0b00100
  | .notConfigured => 0b01000
  | .runLength => 0b10000

/-- STATUS (R27): bits 31 to 13 read zero, then ERR, FIRST_ERR, PENDING, ERR-any, MODE, READY. -/
def statusWord (s : State) : Word :=
  0#19 ++ s.err ++ s.firstErr ++ BitVec.ofBool s.pending.isSome ++ BitVec.ofBool (s.err != 0) ++
    BitVec.ofBool (decide (s.phase = .ready) && decide (s.mode = .dual)) ++
    BitVec.ofBool (decide (s.phase = .ready))

end Sys2Proof.Machine
end

