-- ==== Sys2Proof/Machine/Ops.lean ====
section
/-! DEFINITION. The shared operations: raising an error (spec/60_exceptions.md R201), completing a command, reset
(spec/70_reset_and_hazards.md R220, R221), the readback space (spec/20_memory.md R55, R56) and the Host's port
actions (spec/20_memory.md R54, R57, R58). -/

namespace Sys2Proof.Machine

/-- `raise E(code)`: the error is recorded, the command is consumed, and no other field changes (R201). -/
def raise (e : ErrorCode) (s : State) : State :=
  { s with
    err := s.err ||| errorBit e
    firstErr := if s.firstErr = 0 then errorNumber e else s.firstErr
    pending := none }

/-- `PENDING <- empty`: the end of a command (R39). -/
def complete (s : State) : State := { s with pending := none }

/-- The reset of the block (R220), by the reset input or by SRESET (R221): every element of the block's state takes
its reset value. The parameters are not state and stay (R220). What is outside the block stays too: the turns to
come, what the Host has received, and the count of draws. -/
def resetBlock (s : State) : State :=
  { State.reset with
    params := s.params
    agenda := s.agenda
    received := s.received
    draws := s.draws }

/-- `OutAppend(v)` (R53). -/
def outAppend (v : Word) (s : State) : State := { s with outFifo := s.outFifo ++ [v], lastOut := v }

/-- Word i of a bit sequence: bit b is element 32 i + b, and 0 past the end (R55, decision D45). -/
def chipWord {n : Nat} (chips : BitVec n) (i : Nat) : Word :=
  BitVec.ofFnLE fun b : Fin 32 => chips.getLsbD (32 * i + b)

/-- Word i of a template: the real part of entry i div 2 for even i, its imaginary part for odd i, as an f32 word
(R55). -/
def templateWord (t : Template) (i : Nat) : Word :=
  let entry := t[i / 2]?.getD ⟨0, 0⟩
  intWord (if i % 2 = 0 then entry.re else entry.im)

/-- `MemRead(addr, 4)`: the readback map (R55, R56). -/
def memRead (s : State) (addr : BitVec 12) : Word :=
  let a := addr.toNat
  if a = 0x000 then statusWord s
  else if a = 0x001 then s.sel0
  else if a = 0x002 then s.sel1
  else if a = 0x003 then s.rp.extractLsb' 0 32
  else if a = 0x004 then s.rp.extractLsb' 32 32
  else if a = 0x005 then s.lastOut
  else if a = 0x006 then s.idx0.setWidth 32
  else if a = 0x007 then s.idx1.setWidth 32
  else if a = 0x008 then countWord (live s)
  else if a = 0x009 then countWord s.outFifo.length
  else if a = 0x00A then capacityWord s.params.inCapacity
  else if a = 0x00B then capacityWord s.params.outCapacity
  else if a ≤ 0x00F then 0
  else if a ≤ 0x01F then chipWord s.code0 (a - 0x010)
  else if a ≤ 0x02F then chipWord s.code1 (a - 0x020)
  else if a ≤ 0x03F then chipWord s.params.mseq1 (a - 0x030)
  else if a ≤ 0x04F then chipWord s.params.mseq2 (a - 0x040)
  else if a ≤ 0x3FF then 0
  else if a ≤ 0x7FF then templateWord s.t0 (a - 0x400)
  else if a ≤ 0xBFF then templateWord s.t1 (a - 0x800)
  else 0

/-- CMDWR(w): none where the action holds (R58). -/
def hostCmdWrite (w : Word) (s : State) : Option State :=
  if s.pending = none then some { s with pending := some w } else none

/-- PUSH(x): none where the action holds (R54). -/
def hostPush (item : BitVec 64) (s : State) : Option State :=
  if capacityAtLeast s.params.inCapacity (live s + 1) then
    some { s with inStream := s.inStream ++ [sampleOfItem item] }
  else none

/-- POP: none where the action holds (R57). -/
def hostPop (s : State) : Option State :=
  match s.outFifo with
  | [] => none
  | v :: rest => some { s with outFifo := rest, received := s.received ++ [v] }

/-- MemRead by the Host: it receives the word and the block is unchanged (R56). -/
def hostRead (addr : BitVec 12) (s : State) : State := { s with received := s.received ++ [memRead s addr] }

/-- One action of the Host; none where it holds (R54, R56, R57, R58, R221). Every action is permitted at all times
(R213). -/
def hostAct : HostAction → State → Option State
  | .cmdWrite w, s => hostCmdWrite w s
  | .push item, s => hostPush item s
  | .pop, s => hostPop s
  | .read addr, s => some (hostRead addr s)
  | .reset, s => some (resetBlock s)

end Sys2Proof.Machine
end

