-- ==== Sys2Proof/Machine/Generator.lean ====
section
/-! DEFINITION. The PRN code generator (spec/40_prn_generator.md R100 to R108). -/

namespace Sys2Proof.Machine

/-- Chip k of GENERATE(sel), for k in [0, 510] (R105). -/
def generatedChip (p : Params) (sel : Int) (k : Nat) : Bool :=
  if sel = -2 then p.mseq1.getLsbD k
  else if sel = -1 then p.mseq2.getLsbD k
  else p.mseq1.getLsbD k ^^ p.mseq2.getLsbD (((k : Int) + sel) % 511).toNat

/-- GENERATE(sel), for a valid selector (R105): the caller has checked it (R106). Chip 511 is 0. -/
def generate (p : Params) (sel : Int) : Code :=
  BitVec.ofFnLE fun k : Fin 512 => if k.val = 511 then false else generatedChip p sel k

end Sys2Proof.Machine
end

