-- ==== Sys2Proof/Machine/Modulator.lean ====
section
/-! DEFINITION. The differential baseband modulator (spec/41_modulator.md R120 to R125) and the template conjugate
loader (spec/42_configuration.md R143). -/

namespace Sys2Proof.Machine

/-- Step 1, `diff[k]` (R121). -/
def diffChip (code : Code) : Nat → Int
  | 0 => 1 - 2 * (if code.getLsbD 0 then 1 else 0)
  | k + 1 => if code.getLsbD (k + 1) = code.getLsbD k then 1 else -1

/-- Step 2, `iBB[k]`: an odd index multiplies by its diff, an even one holds the value before it (R122). -/
def iRail (code : Code) : Nat → Int
  | 0 => 1
  | k + 1 => if (k + 1) % 2 = 1 then diffChip code (k + 1) * iRail code k else iRail code k

/-- Step 3, `qBB[k]`: an even index from 2 on multiplies by its diff, an odd one holds the value before it (R123). -/
def qRail (code : Code) : Nat → Int
  | 0 => diffChip code 0
  | k + 1 => if (k + 1) % 2 = 0 then diffChip code (k + 1) * qRail code k else qRail code k

/-- Step 4, `template[k]` (R124, R125). -/
def modulatedSample (code : Code) (k : Nat) : Cx Int :=
  match k % 4 with
  | 0 => ⟨iRail code k, 0⟩
  | 1 => ⟨0, qRail code k⟩
  | 2 => ⟨-iRail code k, 0⟩
  | _ => ⟨0, -qRail code k⟩

/-- MODULATE(code) (R125). -/
def modulate (code : Code) : Template := Vector.ofFn fun k : Fin 512 => modulatedSample code k

/-- LOAD_TEMPLATE: the conjugate of the modulated code (R143). -/
def loadTemplate (code : Code) : Template :=
  let t := modulate code
  Vector.ofFn fun k : Fin 512 => cxConj t[k]

end Sys2Proof.Machine
end

