-- ==== Sys2Proof/Machine/Window.lean ====
section
/-! DEFINITION. The window step (spec/43_correlator.md R160 to R168, R177). At EXACT numerics every stage is exact; the
only rounding is that of the output word. Units: a sample part is in 2^-149, a transform output part in 2^-150 (it is
doubled), a squared magnitude and an energy in 2^-300. -/

namespace Sys2Proof.Machine

/-- PROD(T, W): `P[j] = T[j] * W[j]` (R161). -/
def product (t : Template) (w : Window) : Vector (Cx Int) 512 :=
  Vector.ofFn fun j : Fin 512 => cxMul t[j] (sampleVal w[j])

/-- DFT512(P): 512 points are level 7 (R162). -/
def dft512 (p : Vector (Cx Int) 512) : Vector (Cx Exact) 512 :=
  transform 7 fun j => p.toArray.getD j ⟨0, 0⟩

/-- One transform state after its step: the product is its input, the transform of that input its output (R31). -/
def transformStep (t : Template) (w : Window) : FftBuf :=
  let input := product t w
  ⟨input, dft512 input⟩

/-- MAG(F): the squared magnitudes (R163). -/
def magnitudes (f : Vector (Cx Exact) 512) : List Exact := f.toList.map (cxNormSq 7)

/-- SUM(mag) (R164). -/
def energy (mag : List Exact) : Exact := mag.foldl (surdAdd 7) (surdInt 7 0)

/-- The scan of PEAK after its first entries: ascending, a strictly greater value replaces the maximum, so the
earliest index stays on ties (R165). -/
def peakScan : Exact → Nat → Nat → List Exact → Exact × Nat
  | best, idx, _, [] => (best, idx)
  | best, idx, j, x :: rest =>
    if surdCompare 7 x best = .gt then peakScan x j (j + 1) rest else peakScan best idx (j + 1) rest

/-- PEAK(mag): the largest value and the least index that has it (R165). -/
def peak : List Exact → Exact × Nat
  | [] => (surdInt 7 0, 0)
  | x :: rest => peakScan x 0 1 rest

/-- How sqrt(x) compares with the multiples of 2^-150, for x in 2^-300: as x compares with y^2. -/
def compareSqrt (x : Exact) : Comparison := fun y => surdCompare 7 x (surdInt 7 ((y : Int) ^ 2))

/-- How x compares with the multiples of 2^-150, for x in 2^-300. -/
def compareEnergy (x : Exact) : Comparison := fun y => surdCompare 7 x (surdInt 7 ((y : Int) * 2 ^ 150))

/-- The dual-code decision: `+sqrt(max1)` if `max1 >= max0`, else `-sqrt(max0)`, rounded; none beyond the finite range
(R166, R168). -/
def dualDecision (max0 max1 : Exact) : Option Word :=
  if surdCompare 7 max1 max0 ≠ .lt then roundWord (compareSqrt max1)
  else (roundWord (compareSqrt max0)).map negWord

/-- The single-code decision: the energy, rounded; none beyond the finite range (R167, R168). -/
def singleDecision (e : Exact) : Option Word := roundWord (compareEnergy e)

/-- A window whose every part is finite (R168). -/
def finiteWindow (w : Window) : Bool := w.toList.all finiteSample

/-- What SINGLE mode keeps of a window's result: only slot 0 is used, and IDX0, IDX1 are not written (R32, R167). -/
def keepUnused (s : State) (r : WindowResult) : WindowResult :=
  match s.mode with
  | .dual => r
  | .single => { r with idx0 := s.idx0, idx1 := s.idx1, fft1 := s.fft1 }

/-- The word and the two peak bins of a finite window in DUAL mode, from the two transforms. Beyond the finite range
all three are free (decision D12 and 93 U9; DEDUCED, notes/assumptions/6.md), the buffers are not. -/
def dualWindow (free : WindowResult) (b0 b1 : FftBuf) : WindowResult :=
  let p0 := peak (magnitudes b0.output)
  let p1 := peak (magnitudes b1.output)
  match dualDecision p0.1 p1.1 with
  | some y => { out := y, idx0 := BitVec.ofNat 9 p0.2, idx1 := BitVec.ofNat 9 p1.2, fft0 := b0, fft1 := b1 }
  | none => { free with fft0 := b0, fft1 := b1 }

/-- The window step at EXACT numerics on a finite window (R166, R167, R168). -/
def exactWindow (s : State) (w : Window) : WindowResult :=
  let free := Config.freeWindow s.draws
  let b0 := transformStep s.t0 w
  match s.mode with
  | .dual => dualWindow free b0 (transformStep s.t1 w)
  | .single =>
    { out := (singleDecision (energy (magnitudes b0.output))).getD free.out
      idx0 := s.idx0
      idx1 := s.idx1
      fft0 := b0
      fft1 := s.fft1 }

/-- WINDOW_STEP(p) (R168). A window with a part that is not finite has a free result; a finite one is computed with
the arithmetic that NUMERICS names (R14, R177). -/
def windowStep (s : State) (p : BitVec 64) : WindowResult :=
  let w := window s p
  if finiteWindow w then
    match s.params.numerics with
    | .exact => exactWindow s w
    | .implementation => keepUnused s (Config.implementationWindow w s.t0 s.t1 s.mode)
  else keepUnused s (Config.freeWindow s.draws)

/-- One turn of RUN's loop: `OutAppend(y)`, `IDX0 <- i0`, `IDX1 <- i1` (R171), with the buffers the step used (R31).
Each window step has a draw of its own. -/
def writeWindow (r : WindowResult) (s : State) : State :=
  { outAppend r.out s with
    idx0 := r.idx0
    idx1 := r.idx1
    fft0 := r.fft0
    fft1 := r.fft1
    draws := s.draws + 1 }

end Sys2Proof.Machine
end

