-- ==== Sys2Proof/Machine/Configure.lean ====
section
/-! DEFINITION. The configure commands (spec/42_configuration.md R140, R141, R142). -/

namespace Sys2Proof.Machine

/-- What a successful CFG.SINGLE writes, PENDING apart (R141). -/
def configureSingle (sel : Int) (s : State) : State :=
  let code0 := generate s.params sel
  { s with
    code0 := code0
    t0 := loadTemplate code0
    sel0 := selectorWord sel
    mode := .single
    phase := .ready }

/-- What a successful CFG.DUAL writes, PENDING apart (R142). -/
def configureDual (sel0 sel1 : Int) (s : State) : State :=
  let code0 := generate s.params sel0
  let code1 := generate s.params sel1
  { s with
    code0 := code0
    code1 := code1
    t0 := loadTemplate code0
    t1 := loadTemplate code1
    sel0 := selectorWord sel0
    sel1 := selectorWord sel1
    mode := .dual
    phase := .ready }

/-- CFG.SINGLE sel (R141), its checks in the order of R210. -/
def execCfgSingle (sel : Int) (s : State) : Host.Outcome State Fault Refusal :=
  if s.phase = .ready then .next (raise .reconfigure s)
  else if !validSelector sel then .next (raise .invalidSelector s)
  else .next (complete (configureSingle sel s))

/-- CFG.DUAL sel0, sel1 (R142), its checks in the order of R210. -/
def execCfgDual (sel0 sel1 : Int) (s : State) : Host.Outcome State Fault Refusal :=
  if s.phase = .ready then .next (raise .reconfigure s)
  else if !validSelector sel0 then .next (raise .invalidSelector s)
  else if !validSelector sel1 then .next (raise .invalidSelector s)
  else .next (complete (configureDual sel0 sel1 s))

end Sys2Proof.Machine
end

