-- ==== Sys2Proof/Machine/Correlator.lean ====
section
/-! DEFINITION. RUN (spec/43_correlator.md R170, R171). -/

namespace Sys2Proof.Machine

/-- A RUN that can never be satisfied: N + 511 > IN_CAPACITY or N > OUT_CAPACITY (R207). -/
def runTooLong (n : Nat) (s : State) : Bool :=
  !capacityAtLeast s.params.inCapacity (n + 511) || !capacityAtLeast s.params.outCapacity n

/-- The enabling condition of RUN N for N >= 1: LIVE >= N + 511 and N free places in OUT (R170). -/
def runEnabled (n : Nat) (s : State) : Bool :=
  decide (n + 511 ≤ live s) && capacityAtLeast s.params.outCapacity (s.outFifo.length + n)

/-- The loop of RUN: `count` window steps from stream position p on, ascending (R171). -/
def runWindows : Nat → BitVec 64 → State → State
  | 0, _, s => s
  | count + 1, p, s => runWindows count (p + 1) (writeWindow (windowStep s p) s)

/-- The end of RUN's loop: RP advances by N modulo 2^64 and the positions below it are discarded (R171). -/
def consume (n : Nat) (s : State) : State :=
  { s with rp := s.rp + BitVec.ofNat 64 n, inStream := s.inStream.drop n }

/-- RUN N (R171), its checks in the order of R210. Where it is not enabled it holds: the Engine has no step, and the
state stays as it is (R170). -/
def execRun (n : Nat) (s : State) : Host.Outcome State Fault Refusal :=
  if s.phase = .unconfigured then .next (raise .notConfigured s)
  else if runTooLong n s then .next (raise .runLength s)
  else if n = 0 then .next (complete s)
  else if runEnabled n s then .next (complete (consume n (runWindows n s.rp s)))
  else .next s

end Sys2Proof.Machine
end

