-- ==== Sys2Proof/Machine/System.lean ====
section
/-! DEFINITION. SRESET (spec/42_configuration.md R145). -/

namespace Sys2Proof.Machine

/-- SRESET: the reset state of R220, in either phase (R145). -/
def execSreset (s : State) : Host.Outcome State Fault Refusal := .next (resetBlock s)

end Sys2Proof.Machine
end

