-- ==== Sys2Proof/Machine/Dispatch.lean ====
section
/-! DEFINITION. The dispatch: each command calls its meaning (spec/30_encoding.md R76). -/

namespace Sys2Proof.Machine

def exec (i : Instr) (s : State) : Host.Outcome State Fault Refusal :=
  match i with
  | .cfgSingle sel => Sys2Proof.Machine.execCfgSingle sel s
  | .cfgDual sel0 sel1 => Sys2Proof.Machine.execCfgDual sel0 sel1 s
  | .run n => Sys2Proof.Machine.execRun n s
  | .sreset => Sys2Proof.Machine.execSreset s

end Sys2Proof.Machine
end

