-- ==== Sys2Proof/Machine/Step.lean ====
section
/-! DEFINITION. One step of the system of Engine and Host (spec/00_scope.md R15, spec/10_state.md R39,
spec/20_memory.md R64). -/

namespace Sys2Proof.Machine

/-- The Engine's step: it executes the pending command, an illegal word raising IllegalCommand (R39, R203). With
nothing pending it has no step, and the state stays as it is (R39). -/
def engineStep (s : State) : Host.Outcome State Fault Refusal :=
  match s.pending with
  | none => .next s
  | some w =>
    match decodeWord w with
    | .ok i => exec i s
    | .error _ => .next (raise .illegalCommand s)

/-- One step. The head of `agenda` says whose turn it is, and an empty one gives the turn to the Engine. A Host action
that holds stays at the head, and the Engine moves meanwhile (R54, R57, R58). A state in which no agent has a step
stays as it is: it is idle (R39) or hangs (R208). -/
def step (s : State) : Host.Outcome State Fault Refusal :=
  match s.agenda with
  | [] => engineStep s
  | .engine :: rest => engineStep { s with agenda := rest }
  | .host a :: rest =>
    match hostAct a { s with agenda := rest } with
    | some t => .next t
    | none => engineStep s

/-- The state with the command word of a table row pending and the turn the Engine's. The word's bits above `nbits`
are 0. -/
def State.withFetchWord (s : State) (nbits w : Nat) : State :=
  { s with pending := some (BitVec.ofNat 32 (w % 2 ^ nbits)), agenda := .engine :: s.agenda }

end Sys2Proof.Machine
end

