-- ==== Sys2Proof/Safety.lean ====
section
/-! DEFINITION. The terms in which claims are stated: the invariant of the block, the states in which the Engine has a
step, and the real and complex numbers that the model's exact numbers stand for. -/

namespace Sys2Proof.Safety

open Sys2Proof.Machine

/-! ## The Engine's step and the invariant -/

/-- The Engine has a step (R39): a command is pending, and it is not a RUN that holds (R170). -/
def engineHasStep (s : State) : Bool :=
  match s.pending with
  | none => false
  | some w =>
    match decodeWord w with
    | .ok (.run n) =>
      decide (s.phase = .unconfigured) || runTooLong n s || decide (n = 0) || runEnabled n s
    | _ => true

/-- The parameters are legal: IN_CAPACITY >= 512 and OUT_CAPACITY >= 1, where bounded (R7). -/
def legalParams (p : Params) : Prop :=
  capacityAtLeast p.inCapacity 512 = true ∧ capacityAtLeast p.outCapacity 1 = true

/-- A slot as reset leaves it (R30, R220). -/
def slotEmpty (sel : Word) (code : Code) (t : Template) : Prop :=
  sel = 0 ∧ code = 0 ∧ t = zeroTemplate

/-- A configured slot: the code of its valid selector, and the conjugate of that code's waveform (R29, R30, R146). -/
def slotLoaded (p : Params) (sel : Word) (code : Code) (t : Template) : Prop :=
  validSelector sel.toInt = true ∧ code = generate p sel.toInt ∧ t = loadTemplate code

/-- The state after a failing command (R201): the bit of the code is set, FIRST_ERR takes the code if it was 0, the
command is consumed, and no other field changes. -/
def errorRecorded (e : ErrorCode) (s t : State) : Prop :=
  t = { s with
    err := s.err ||| errorBit e
    firstErr := if s.firstErr = 0 then errorNumber e else s.firstErr
    pending := none }

/-- The first check that a decoded command fails in a state, in the order of R210 after the check of the encoding. -/
def failedCheck (s : State) : Instr → Option ErrorCode
  | .cfgSingle sel =>
    if s.phase = .ready then some .reconfigure
    else if sel < -2 ∨ 510 < sel then some .invalidSelector else none
  | .cfgDual sel0 sel1 =>
    if s.phase = .ready then some .reconfigure
    else if sel0 < -2 ∨ 510 < sel0 then some .invalidSelector
    else if sel1 < -2 ∨ 510 < sel1 then some .invalidSelector else none
  | .run n =>
    if s.phase = .unconfigured then some .notConfigured
    else if (∃ c ∈ s.params.inCapacity, c < n + 511) ∨ (∃ c ∈ s.params.outCapacity, c < n) then some .runLength
    else none
  | .sreset => none

/-- The error that executing a command word records in a state, if any: an illegal word's (R203), or that of the first
check that fails (R210). -/
def wordError (s : State) (w : Word) : Option ErrorCode :=
  match decodeWord w with
  | .error _ => some .illegalCommand
  | .ok i => failedCheck s i

/-- The error record agrees with itself: FIRST_ERR is 0 exactly when no error bit is set, and otherwise it is a code
whose bit is set (R28). -/
def errorRecordAgrees (s : State) : Prop :=
  (s.err = 0 ∧ s.firstErr = 0) ∨ ∃ e, s.firstErr = errorNumber e ∧ s.err &&& errorBit e ≠ 0

/-- The invariant of the block. -/
structure Invariant (s : State) : Prop where
  /-- The parameters are legal (R7). -/
  params : legalParams s.params
  /-- Before a configure both slots are empty and MODE is SINGLE (R220); samples may be live, but none is consumed. -/
  unconfigured : s.phase = .unconfigured →
    s.mode = .single ∧ slotEmpty s.sel0 s.code0 s.t0 ∧ s.rp = 0 ∧ s.outFifo = [] ∧ s.lastOut = 0
  /-- In READY slot 0 is configured (R29, R30). -/
  slot0 : s.phase = .ready → slotLoaded s.params s.sel0 s.code0 s.t0
  /-- In DUAL mode slot 1 is configured (R29, R30). -/
  slot1 : s.mode = .dual → slotLoaded s.params s.sel1 s.code1 s.t1
  /-- In SINGLE mode slot 1 and the peak bins keep their reset values (R32, R141). -/
  single : s.mode = .single → slotEmpty s.sel1 s.code1 s.t1 ∧ s.idx0 = 0 ∧ s.idx1 = 0
  /-- LIVE never exceeds IN_CAPACITY (R35). -/
  live : capacityAtLeast s.params.inCapacity (live s) = true
  /-- The length of OUT never exceeds OUT_CAPACITY (R36). -/
  out : capacityAtLeast s.params.outCapacity s.outFifo.length = true
  /-- LAST_OUT is the last word appended (R33). -/
  last : ∀ v, s.outFifo.getLast? = some v → s.lastOut = v
  /-- The error record (R28). -/
  errors : errorRecordAgrees s

/-! ## The reals behind the exact numbers -/

/-- The real number of an exact number: level n + 1 adds the multiple of c(n+1) = sqrt(2 + c(n)). -/
noncomputable def surdReal : (n : Nat) → Surd n → ℝ
  | 0, x => ((x : Int) : ℝ)
  | n + 1, x => surdReal n x.base + surdReal n x.root * Real.sqrtTwoAddSeries 0 (n + 1)

/-- The complex number of a pair of exact numbers. -/
noncomputable def surdComplex (n : Nat) (z : Cx (Surd n)) : ℂ := ⟨surdReal n z.re, surdReal n z.im⟩

/-- The complex number of a pair of integers. -/
noncomputable def intComplex (z : Cx Int) : ℂ := ⟨(z.re : ℝ), (z.im : ℝ)⟩

/-- `val(x)` of a finite word (R12). -/
noncomputable def wordReal (w : Word) : ℝ := (scaledVal w : ℝ) / 2 ^ 149

/-- The complex value of a finite sample (R160). -/
noncomputable def sampleComplex (x : Sample) : ℂ := ⟨wordReal x.re, wordReal x.im⟩

/-- DFT512 as R162 writes it. -/
noncomputable def realDft (p : Fin 512 → ℂ) (m : Fin 512) : ℂ :=
  ∑ j : Fin 512, p j * Complex.exp (-2 * Real.pi * Complex.I * (j : ℂ) * (m : ℂ) / 512)

/-- PROD and then DFT512 of a template and a window, over the complex numbers (R160, R161, R162). -/
noncomputable def realBins (t : Template) (w : Window) (m : Fin 512) : ℂ :=
  realDft (fun j => intComplex t[j] * sampleComplex w[j]) m

/-- MAG (R163). -/
noncomputable def realMags (t : Template) (w : Window) (m : Fin 512) : ℝ := Complex.normSq (realBins t w m)

/-- What PEAK answers (R165): idx is the least bin that has the largest magnitude. -/
def IsPeak (mag : Fin 512 → ℝ) (idx : Fin 512) : Prop :=
  (∀ m, mag m ≤ mag idx) ∧ ∀ m, m < idx → mag m < mag idx

/-- What `rne32` answers (R12): a finite word nearest to r, of two nearest ones that with the even significand, and
+0.0 for r = 0. -/
def IsNearestEven (r : ℝ) (w : Word) : Prop :=
  isFinite w = true ∧
  (∀ v, isFinite v = true → |wordReal w - r| ≤ |wordReal v - r|) ∧
  (∀ v, isFinite v = true → |wordReal w - r| = |wordReal v - r| → wordReal v ≠ wordReal w →
    w.getLsbD 0 = false) ∧
  (r = 0 → w = 0)

/-- The exact result of a window (R168): in DUAL mode the signed root of the larger peak, at equality that of slot 1
(R166), and in SINGLE mode the sum of the magnitudes (R167). -/
noncomputable def exactResult (s : State) (w : Window) : ℝ :=
  match s.mode with
  | .dual =>
    if (⨆ m, realMags s.t0 w m) ≤ ⨆ m, realMags s.t1 w m then Real.sqrt (⨆ m, realMags s.t1 w m)
    else -Real.sqrt (⨆ m, realMags s.t0 w m)
  | .single => ∑ m, realMags s.t0 w m

/-- The energy of a window (R172). -/
noncomputable def windowEnergy (w : Window) : ℝ := ∑ j : Fin 512, Complex.normSq (sampleComplex w[j])

/-- The window of the live samples from the k-th on (R160). -/
def liveWindow (s : State) (k : Nat) : Window := Vector.ofFn fun j : Fin 512 => s.inStream.getD (k + j) default

/-- The sample whose parts are the words of an integer pair: how a Host pushes a template's values (R178). -/
def sampleOfInts (z : Cx Int) : Sample := ⟨intWord z.re, intWord z.im⟩

/-- `cmp` compares the real r with each multiple of 2^-150. -/
def Compares (cmp : Comparison) (r : ℝ) : Prop :=
  ∀ y : Nat, (cmp y = .lt ↔ r < (y : ℝ) / 2 ^ 150) ∧ (cmp y = .gt ↔ (y : ℝ) / 2 ^ 150 < r)

/-- The largest finite f32 value (R168). -/
noncomputable def largestFinite : ℝ := 2 ^ 128 - 2 ^ 104

end Sys2Proof.Safety
end

