-- ==== Sys2Proof/Certificates/Slice0/Obligations.lean ====
section
/-! DEFINITION. The statements for the provers, from the numbered rules of spec/. Each docstring names the rules it
formalises. -/

open Sys2Proof Sys2Proof.Machine Sys2Proof.Safety

/-! ## Encoding -/

/-- R76, R77, R80: decoding the word of a command whose operands fit gives the command back. -/
def Obligations.DecodeOfEncode : Prop :=
  ∀ i : Instr, i.wellFormed = true → decodeWord (encode i) = .ok i

/-- R70, R59: the same for bytes, with whatever follows the command's four bytes left over. -/
def Obligations.DecodeBytesOfEncode : Prop :=
  ∀ (i : Instr) (rest : List Byte), i.wellFormed = true → decodeBytes (encodeBytes i ++ rest) = .ok (i, rest)

/-- R71 to R77: a word that decodes is the encoding of what it decodes to, and every operand fits its field. -/
def Obligations.EncodeOfDecode : Prop :=
  ∀ (w : Word) (i : Instr), decodeWord w = .ok i → encode i = w ∧ i.wellFormed = true

/-- R76: a word decodes exactly when it selects a row of the opcode map, and no word selects two rows. -/
def Obligations.OpcodeRows : Prop :=
  ∀ w : Word,
    ((∃ i, decodeWord w = .ok i) ↔ ∃ i, w &&& opcodeMask i = opcodeMatch i) ∧
    ∀ i j, w &&& opcodeMask i = opcodeMatch i → w &&& opcodeMask j = opcodeMatch j →
      opcodeMatch i = opcodeMatch j

/-- R78, its first sentence: which words are illegal, by their bit fields as numbers. -/
def Obligations.IllegalWords : Prop :=
  ∀ w : Word,
    let opc := w.toNat / 2 ^ 28
    (∃ e, decodeWord w = .error e) ↔
      (opc = 0 ∨ (4 ≤ opc ∧ opc ≤ 14)) ∨
      (opc = 1 ∧ w.toNat / 2 ^ 10 % 2 ^ 18 ≠ 0) ∨
      (opc = 2 ∧ (w.toNat / 2 ^ 26 % 2 ^ 2 ≠ 0 ∨ w.toNat / 2 ^ 10 % 2 ^ 6 ≠ 0)) ∨
      (opc = 3 ∧ w.toNat / 2 ^ 16 % 2 ^ 12 ≠ 0) ∨
      (opc = 15 ∧ w.toNat % 2 ^ 28 ≠ 0)

/-- R74, R75: the operands of a decoded word, from its fields as numbers: a selector field below 0x200 is the selector,
one from 0x200 on is 1024 less, and the valid fields are 0x000 to 0x1FE, 0x3FE and 0x3FF. -/
def Obligations.OperandFields : Prop :=
  ∀ w : Word,
    let a : Nat := w.toNat % 2 ^ 10
    let b : Nat := w.toNat / 2 ^ 16 % 2 ^ 10
    (∀ sel, decodeWord w = .ok (.cfgSingle sel) → sel = if a < 0x200 then (a : Int) else (a : Int) - 1024) ∧
    (∀ sel0 sel1, decodeWord w = .ok (.cfgDual sel0 sel1) →
      (sel0 = if a < 0x200 then (a : Int) else (a : Int) - 1024) ∧
      (sel1 = if b < 0x200 then (b : Int) else (b : Int) - 1024)) ∧
    (∀ n, decodeWord w = .ok (.run n) → n = w.toNat % 2 ^ 16) ∧
    (validSelector (selAOf w) = true ↔ a ≤ 0x1FE ∨ 0x3FE ≤ a)

/-- R83: words of each command, decoded. -/
def Obligations.DecodedWords : Prop :=
  decodeWord 0x100003FE = .ok (.cfgSingle (-2)) ∧ decodeWord 0x100001FE = .ok (.cfgSingle 510) ∧
  decodeWord 0x100003FD = .ok (.cfgSingle (-3)) ∧ decodeWord 0x23FF03FE = .ok (.cfgDual (-2) (-1)) ∧
  decodeWord 0x20070003 = .ok (.cfgDual 3 7) ∧ decodeWord 0x23FE01FE = .ok (.cfgDual 510 (-2)) ∧
  decodeWord 0x3000FFFF = .ok (.run 65535) ∧ decodeWord 0xF0000000 = .ok .sreset

/-! ## One step -/

/-- R15, R39, R64: when the pending word decodes to i, a step that gives the Engine its turn is exec of i, on the state
whose agenda has that turn taken. An empty agenda and a Host action that holds also give the Engine the turn. -/
def Obligations.StepExecutesPending : Prop :=
  ∀ (s : State) (w : Word) (i : Instr), s.pending = some w → decodeWord w = .ok i →
    (s.agenda = [] → step s = exec i s) ∧
    (∀ rest, s.agenda = .engine :: rest → step s = exec i { s with agenda := rest }) ∧
    (∀ a rest, s.agenda = .host a :: rest → hostAct a { s with agenda := rest } = none → step s = exec i s) ∧
    (∀ a rest t, s.agenda = .host a :: rest → hostAct a { s with agenda := rest } = some t → step s = .next t)

/-- R39: the Engine has a step only when a command is pending and, for a RUN that no check fails, the condition of R170
holds; its step ends with PENDING empty. That engineStep answers the same state where the Engine has no step is the
model's form of a hold and of idling (DESIGN CHOICE, notes/assumptions/8.md). -/
def Obligations.EngineStepEndsPending : Prop :=
  ∀ s : State,
    (engineHasStep s = true → ∃ t, engineStep s = .next t ∧ t.pending = none) ∧
    (engineHasStep s = false → engineStep s = .next s) ∧
    (s.pending = none → engineHasStep s = false)

/-! ## Errors -/

/-- R203: executing an illegal word records IllegalCommand, in every phase; the word 0x00000000 from reset leaves STATUS
0x00000114. -/
def Obligations.IllegalCommandError : Prop :=
  (∀ (s : State) (w : Word) (r : DecodeReject), s.pending = some w → decodeWord w = .error r →
    ∃ t, engineStep s = .next t ∧ errorRecorded .illegalCommand s t) ∧
  ∃ t, engineStep { State.reset with pending := some 0 } = .next t ∧ statusWord t = 0x00000114

/-- R204: a configure command in READY records Reconfigure, before its selectors are checked, and codes, templates,
selectors and mode stay; `cfg.single 0` then `cfg.dual 1, 2` leaves SINGLE, SEL0 = 0 and STATUS 0x00000435. -/
def Obligations.ReconfigureError : Prop :=
  (∀ s : State, s.phase = .ready →
    (∀ sel, ∃ t, exec (.cfgSingle sel) s = .next t ∧ errorRecorded .reconfigure s t) ∧
    (∀ sel0 sel1, ∃ t, exec (.cfgDual sel0 sel1) s = .next t ∧ errorRecorded .reconfigure s t)) ∧
  ∃ t u, exec (.cfgSingle 0) State.reset = .next t ∧ exec (.cfgDual 1 2) t = .next u ∧
    u.mode = .single ∧ u.sel0 = 0 ∧ statusWord u = 0x00000435

/-- R205: a RUN in UNCONFIGURED, of any count, records NotConfigured, consumes no sample and produces no output; `run 1`
from reset leaves STATUS 0x00000844. -/
def Obligations.NotConfiguredError : Prop :=
  (∀ (s : State) (n : Nat), s.phase = .unconfigured →
    ∃ t, exec (.run n) s = .next t ∧ errorRecorded .notConfigured s t ∧
      t.inStream = s.inStream ∧ t.outFifo = s.outFifo) ∧
  ∃ t, exec (.run 1) State.reset = .next t ∧ statusWord t = 0x00000844

/-- R206: a configure command with a selector outside [-2, 510] records InvalidSelector, once; the phase stays
UNCONFIGURED and no code or template is written. Among the values of a 10-bit field the invalid ones are 511 and -512
to -3. `cfg.single 511` from reset leaves STATUS 0x00000224. -/
def Obligations.InvalidSelectorError : Prop :=
  (∀ s : State, s.phase = .unconfigured →
    (∀ sel : Int, ¬(-2 ≤ sel ∧ sel ≤ 510) →
      ∃ t, exec (.cfgSingle sel) s = .next t ∧ errorRecorded .invalidSelector s t) ∧
    (∀ sel0 sel1 : Int, ¬(-2 ≤ sel0 ∧ sel0 ≤ 510) ∨ ¬(-2 ≤ sel1 ∧ sel1 ≤ 510) →
      ∃ t, exec (.cfgDual sel0 sel1) s = .next t ∧ errorRecorded .invalidSelector s t)) ∧
  (∀ sel : Int, selectorFits sel = true →
    (validSelector sel = false ↔ sel = 511 ∨ (-512 ≤ sel ∧ sel ≤ -3))) ∧
  ∃ t, exec (.cfgSingle 511) State.reset = .next t ∧ statusWord t = 0x00000224

/-- R207: a RUN in READY whose N + 511 exceeds IN_CAPACITY or whose N exceeds OUT_CAPACITY records RunLength; with both
capacities unbounded none does; at IN_CAPACITY 1024 (and OUT_CAPACITY unbounded) `run 514` does and `run 513` does
not. -/
def Obligations.RunLengthError : Prop :=
  (∀ (s : State) (n : Nat), s.phase = .ready →
    (∃ c, s.params.inCapacity = some c ∧ c < n + 511) ∨ (∃ c, s.params.outCapacity = some c ∧ c < n) →
      ∃ t, exec (.run n) s = .next t ∧ errorRecorded .runLength s t) ∧
  (∀ (s : State) (n : Nat), s.phase = .ready → s.params.inCapacity = none → s.params.outCapacity = none →
    ∀ t, exec (.run n) s = .next t → t.err = s.err ∧ t.firstErr = s.firstErr) ∧
  (∀ s : State, s.phase = .ready → s.params.inCapacity = some 1024 → s.params.outCapacity = none →
    (∃ t, exec (.run 514) s = .next t ∧ errorRecorded .runLength s t) ∧
    (∀ t, exec (.run 513) s = .next t → t.err = s.err ∧ t.firstErr = s.firstErr))

/-- R210: the order of the checks: an illegal word first, then the first check of the command that fails, decides the
error; a command that fails none records none, and SRESET clears the record. -/
def Obligations.CheckOrder : Prop :=
  ∀ (s : State) (w : Word), s.pending = some w →
    ∃ t, engineStep s = .next t ∧
      match decodeWord w with
      | .error _ => errorRecorded .illegalCommand s t
      | .ok i =>
        match failedCheck s i with
        | some e => errorRecorded e s t
        | none => if i = .sreset then t.err = 0 ∧ t.firstErr = 0 else t.err = s.err ∧ t.firstErr = s.firstErr

/-- R28, R212: executing a pending word that fails (an illegal word, or a command one of whose checks fails) sets the
bit of its error's code, and FIRST_ERR where it was 0; no step of the Engine but SRESET's, whatever the word, and no Host
action but a reset clears an error bit or changes a FIRST_ERR that is set. -/
def Obligations.ErrorsAreSticky : Prop :=
  (∀ s w e, s.pending = some w → wordError s w = some e →
    ∃ t, engineStep s = .next t ∧ t.err &&& errorBit e ≠ 0 ∧
      t.firstErr = if s.firstErr = 0 then errorNumber e else s.firstErr) ∧
  (∀ s t, (∀ w, s.pending = some w → decodeWord w ≠ .ok .sreset) → engineStep s = .next t →
    s.err &&& t.err = s.err ∧ (s.firstErr ≠ 0 → t.firstErr = s.firstErr)) ∧
  (∀ i s t, i ≠ .sreset → exec i s = .next t →
    s.err &&& t.err = s.err ∧ (s.firstErr ≠ 0 → t.firstErr = s.firstErr)) ∧
  (∀ a s t, a ≠ .reset → hostAct a s = some t → t.err = s.err ∧ t.firstErr = s.firstErr)

/-- R202, R27: the codes 1 to 5 are different, and code c is recorded in STATUS bit 7 + c. -/
def Obligations.ErrorCodes : Prop :=
  ∀ (e : ErrorCode) (s : State),
    1 ≤ (errorNumber e).toNat ∧ (errorNumber e).toNat ≤ 5 ∧
    (∀ e', errorNumber e' = errorNumber e → e' = e) ∧
    (statusWord (raise e s)).getLsbD (7 + (errorNumber e).toNat) = true

/-! ## Configuration -/

/-- R140, R141: CFG.SINGLE in UNCONFIGURED with a valid selector: slot 0 holds the generated code and the conjugate of
its waveform, SEL0 the selector, the mode is SINGLE, the phase READY, and every other field is unchanged. -/
def Obligations.CfgSingleConfigures : Prop :=
  ∀ (s : State) (sel : Int), s.phase = .unconfigured → -2 ≤ sel → sel ≤ 510 →
    ∃ t, exec (.cfgSingle sel) s = .next t ∧
      t.phase = .ready ∧ t.mode = .single ∧ t.sel0.toInt = sel ∧ t.pending = none ∧
      (∀ k < 512, t.code0.getLsbD k = (decide (k < 511) && generatedChip s.params sel k)) ∧
      (∀ k : Fin 512, intComplex t.t0[k] = (starRingEnd ℂ) (intComplex (modulate t.code0)[k])) ∧
      t = { s with phase := t.phase, mode := t.mode, sel0 := t.sel0, code0 := t.code0, t0 := t.t0,
                   pending := t.pending }

/-- R140, R142, decision D52: CFG.DUAL in UNCONFIGURED with two valid selectors, equal or not: each slot
holds the generated code of its selector and the conjugate of its waveform, and every other field is unchanged. -/
def Obligations.CfgDualConfigures : Prop :=
  ∀ (s : State) (sel0 sel1 : Int), s.phase = .unconfigured → -2 ≤ sel0 → sel0 ≤ 510 → -2 ≤ sel1 → sel1 ≤ 510 →
    ∃ t, exec (.cfgDual sel0 sel1) s = .next t ∧
      t.phase = .ready ∧ t.mode = .dual ∧ t.sel0.toInt = sel0 ∧ t.sel1.toInt = sel1 ∧ t.pending = none ∧
      (∀ k < 512, t.code0.getLsbD k = (decide (k < 511) && generatedChip s.params sel0 k)) ∧
      (∀ k < 512, t.code1.getLsbD k = (decide (k < 511) && generatedChip s.params sel1 k)) ∧
      (∀ k : Fin 512, intComplex t.t0[k] = (starRingEnd ℂ) (intComplex (modulate t.code0)[k])) ∧
      (∀ k : Fin 512, intComplex t.t1[k] = (starRingEnd ℂ) (intComplex (modulate t.code1)[k])) ∧
      (sel0 = sel1 → t.t0 = t.t1) ∧
      t = { s with phase := t.phase, mode := t.mode, sel0 := t.sel0, sel1 := t.sel1, code0 := t.code0,
                   code1 := t.code1, t0 := t.t0, t1 := t.t1, pending := t.pending }

/-! ## The generator -/

/-- R105: GENERATE, the whole function. -/
def Obligations.GenerateChips : Prop :=
  ∀ (p : Params) (sel : Int), -2 ≤ sel → sel ≤ 510 →
    (∀ k : Nat, k ≤ 510 → (generate p sel).getLsbD k =
      if sel = -2 then p.mseq1.getLsbD k
      else if sel = -1 then p.mseq2.getLsbD k
      else (p.mseq1.getLsbD k).xor (p.mseq2.getLsbD ((k + sel.toNat) % 511))) ∧
    (generate p sel).getLsbD 511 = false

/-- R107: the chip at k = 510 - s is MSEQ1[510 - s] XOR MSEQ2[510], and every other chip is that of the source's two
loops. -/
def Obligations.GoldTwoLoops : Prop :=
  ∀ (p : Params) (s : Nat), s ≤ 510 →
    let code := generate p s
    (∀ k, k < 510 - s → code.getLsbD k = (p.mseq1.getLsbD k).xor (p.mseq2.getLsbD (k + s))) ∧
    code.getLsbD (510 - s) = (p.mseq1.getLsbD (510 - s)).xor (p.mseq2.getLsbD 510) ∧
    (∀ k, 510 - s < k → k ≤ 510 → code.getLsbD k = (p.mseq1.getLsbD k).xor (p.mseq2.getLsbD (k + s - 511)))

/-- R109, R108: the tables and the rotation can be read back from the codes, and chip 511 is 0. -/
def Obligations.TablesReadBack : Prop :=
  ∀ p : Params,
    (generate p (-2)).setWidth 511 = p.mseq1 ∧ (generate p (-1)).setWidth 511 = p.mseq2 ∧
    (∀ s k : Nat, s ≤ 510 → k ≤ 510 →
      ((generate p s).getLsbD k).xor (p.mseq1.getLsbD k) = p.mseq2.getLsbD ((k + s) % 511)) ∧
    (∀ sel : Int, (generate p sel).getLsbD 511 = false)

/-! ## The modulator -/

/-- R121, R122, R123: the differential code and the two rails, by the steps the rules write. -/
def Obligations.RailSteps : Prop :=
  ∀ code : Code,
    (diffChip code 0 = 1 - 2 * (code.getLsbD 0).toNat) ∧
    (∀ k, 1 ≤ k → k ≤ 511 → diffChip code k = if code.getLsbD k = code.getLsbD (k - 1) then 1 else -1) ∧
    iRail code 0 = 1 ∧
    (∀ k, k % 2 = 1 → k ≤ 509 → iRail code k = diffChip code k * iRail code (k - 1) ∧
      iRail code (k + 1) = iRail code k) ∧
    iRail code 511 = diffChip code 511 * iRail code 510 ∧
    qRail code 0 = diffChip code 0 ∧ qRail code 1 = diffChip code 0 ∧
    (∀ k, k % 2 = 0 → 2 ≤ k → k ≤ 510 → qRail code k = diffChip code k * qRail code (k - 1) ∧
      qRail code (k + 1) = qRail code k)

/-- R124: the template is the two rails on the quarter-cycle subcarrier. -/
def Obligations.Subcarrier : Prop :=
  ∀ (code : Code) (k : Fin 512),
    intComplex (modulate code)[k] =
      (iRail code k : ℂ) * Real.cos (Real.pi / 2 * (k : ℕ)) +
        Complex.I * (qRail code k : ℂ) * Real.sin (Real.pi / 2 * (k : ℕ))

/-- R126: the closed form of the waveform. -/
def Obligations.ClosedForm : Prop :=
  ∀ (code : Code) (m : Nat) (_ : m ≤ 255),
    (modulate code)[2 * m] = ⟨(-1) ^ m * ∏ l ∈ Finset.Icc 1 m, diffChip code (2 * l - 1), 0⟩ ∧
    (modulate code)[2 * m + 1] = ⟨0, (-1) ^ m * ∏ l ∈ Finset.Icc 0 m, diffChip code (2 * l)⟩ ∧
    iRail code (2 * m) = ∏ l ∈ Finset.Icc 1 m, diffChip code (2 * l - 1) ∧
    qRail code (2 * m + 1) = ∏ l ∈ Finset.Icc 0 m, diffChip code (2 * l)

/-- R127: both rails are +1 or -1; an even entry of the waveform is +1 or -1, an odd one +i or -i; the stored template
is the waveform at even entries and its negative at odd ones; its entry 0 is 1. -/
def Obligations.UnitValues : Prop :=
  ∀ (code : Code) (k : Nat) (_ : k < 512),
    (iRail code k = 1 ∨ iRail code k = -1) ∧ (qRail code k = 1 ∨ qRail code k = -1) ∧
    (k % 2 = 0 → (modulate code)[k] = ⟨1, 0⟩ ∨ (modulate code)[k] = ⟨-1, 0⟩) ∧
    (k % 2 = 1 → (modulate code)[k] = ⟨0, 1⟩ ∨ (modulate code)[k] = ⟨0, -1⟩) ∧
    Complex.normSq (intComplex (modulate code)[k]) = 1 ∧
    (k % 2 = 0 → intComplex (loadTemplate code)[k] = intComplex (modulate code)[k]) ∧
    (k % 2 = 1 → intComplex (loadTemplate code)[k] = -intComplex (modulate code)[k]) ∧
    (loadTemplate code)[0] = ⟨1, 0⟩

/-- R128: two codes that differ only in chip 511 have the same template. -/
def Obligations.LastChipUnused : Prop :=
  ∀ code code' : Code, (∀ k < 511, code.getLsbD k = code'.getLsbD k) →
    modulate code = modulate code' ∧ loadTemplate code = loadTemplate code'

/-- R129: the staggering law, and the pairing that the source states the other way round fails for some code. -/
def Obligations.StaggeringLaw : Prop :=
  (∀ code : Code,
    (∀ m, 1 ≤ m → m ≤ 255 → iRail code (2 * m) = iRail code (2 * m - 1)) ∧
    (∀ m ≤ 255, qRail code (2 * m + 1) = qRail code (2 * m))) ∧
  (∃ code : Code, iRail code 1 ≠ iRail code 0) ∧ (∃ code : Code, qRail code 2 ≠ qRail code 1)

/-! ## RUN -/

/-- R170, R207: a RUN of N >= 1 that no check fails, with fewer than N + 511 live samples or fewer than N free places in
OUT, holds: the state stays as it is, and the command stays pending. -/
def Obligations.RunHolds : Prop :=
  ∀ (s : State) (n : Nat), s.phase = .ready → 1 ≤ n →
    (∀ c, s.params.inCapacity = some c → n + 511 ≤ c) → (∀ c, s.params.outCapacity = some c → n ≤ c) →
    s.inStream.length < n + 511 ∨ (∃ c, s.params.outCapacity = some c ∧ c < s.outFifo.length + n) →
    exec (.run n) s = .next s

/-- R170, R171: RUN 0 in READY, with legal capacities, ends at once and writes nothing but PENDING. -/
def Obligations.RunZeroCompletes : Prop :=
  ∀ s : State, s.phase = .ready → legalParams s.params →
    exec (.run 0) s = .next { s with pending := none }

/-- R171: RUN N with the samples and the places it needs appends N words, the last of which is LAST_OUT, advances RP by
N, discards N samples and ends. The buffers, the peak bins (in DUAL mode) and the count of draws may change, and every
other field is unchanged. That SINGLE mode keeps the peak bins for a window that is not finite too is the model's
reading (notes/assumptions/5.md). -/
def Obligations.RunCompletes : Prop :=
  ∀ (s : State) (n : Nat), s.phase = .ready → 1 ≤ n →
    (∀ c, s.params.inCapacity = some c → n + 511 ≤ c) → n + 511 ≤ s.inStream.length →
    (∀ c, s.params.outCapacity = some c → s.outFifo.length + n ≤ c) →
    ∃ t ys, exec (.run n) s = .next t ∧ ys.length = n ∧ t.outFifo = s.outFifo ++ ys ∧
      ys.getLast? = some t.lastOut ∧ t.rp = s.rp + BitVec.ofNat 64 n ∧ t.inStream = s.inStream.drop n ∧
      t.pending = none ∧ (s.mode = .single → t.idx0 = s.idx0 ∧ t.idx1 = s.idx1) ∧
      t = { s with rp := t.rp, inStream := t.inStream, outFifo := t.outFifo, lastOut := t.lastOut,
                   idx0 := t.idx0, idx1 := t.idx1, fft0 := t.fft0, fft1 := t.fft1, pending := t.pending,
                   draws := t.draws }

/-- R160, R52: sample j of the window at position RP + k is the live sample k + j. -/
def Obligations.WindowSamples : Prop :=
  ∀ (s : State) (k : Nat), k + 512 ≤ s.inStream.length → k + 512 ≤ 2 ^ 64 →
    window s (s.rp + BitVec.ofNat 64 k) = liveWindow s k ∧
    ∀ j < 512, inRead s (s.rp + BitVec.ofNat 64 k + BitVec.ofNat 64 j) = s.inStream[k + j]?

/-- R12, R168: rounding a real that is compared exactly: the nearest word with ties to the even significand up to the
largest finite value, and no word beyond it. -/
def Obligations.RoundingIsNearestEven : Prop :=
  ∀ (cmp : Comparison) (r : ℝ), Compares cmp r → 0 ≤ r →
    (r ≤ largestFinite → ∃ w, roundWord cmp = some w ∧ IsNearestEven r w) ∧
    (largestFinite < r → roundWord cmp = none)

/-- R166, R167, R168 at EXACT numerics: where the exact result of a finite window is within the finite range, the word is
that result rounded, and in DUAL mode the peak bins are the least bins of the largest magnitudes; in SINGLE mode they
are unchanged. Beyond the range the word and the DUAL bins are free (notes/assumptions/6.md), so nothing is said of
them. -/
def Obligations.WindowStepResult : Prop :=
  ∀ (s : State) (p : BitVec 64), s.params.numerics = .exact → finiteWindow (window s p) = true →
    let w := window s p
    let r := windowStep s p
    (|exactResult s w| ≤ largestFinite → IsNearestEven (exactResult s w) r.out ∧
      (s.mode = .dual → ∃ i0 i1 : Fin 512, IsPeak (realMags s.t0 w) i0 ∧ IsPeak (realMags s.t1 w) i1 ∧
        r.idx0 = BitVec.ofNat 9 i0 ∧ r.idx1 = BitVec.ofNat 9 i1)) ∧
    (s.mode = .single → r.idx0 = s.idx0 ∧ r.idx1 = s.idx1)

/-- R171 with R166 to R168 at EXACT numerics: word k of a RUN N is the rounded exact result of the window of the live
samples k to k + 511, and in DUAL mode the peak bins are those of the last window; for windows that are finite and whose
result is within range (beyond it the word and the DUAL bins are free, notes/assumptions/6.md). -/
def Obligations.RunOutputs : Prop :=
  ∀ (s : State) (n : Nat), s.phase = .ready → 1 ≤ n → countFits n = true → s.params.numerics = .exact →
    (∀ c, s.params.inCapacity = some c → n + 511 ≤ c) → n + 511 ≤ s.inStream.length →
    (∀ c, s.params.outCapacity = some c → s.outFifo.length + n ≤ c) →
    ∃ t ys, exec (.run n) s = .next t ∧ t.outFifo = s.outFifo ++ ys ∧ ys.length = n ∧
      (∀ k y, ys[k]? = some y → finiteWindow (liveWindow s k) = true →
        |exactResult s (liveWindow s k)| ≤ largestFinite → IsNearestEven (exactResult s (liveWindow s k)) y) ∧
      (s.mode = .dual → finiteWindow (liveWindow s (n - 1)) = true →
        |exactResult s (liveWindow s (n - 1))| ≤ largestFinite → ∃ i0 i1 : Fin 512, IsPeak (realMags s.t0 (liveWindow s (n - 1))) i0 ∧
          IsPeak (realMags s.t1 (liveWindow s (n - 1))) i1 ∧
          t.idx0 = BitVec.ofNat 9 i0 ∧ t.idx1 = BitVec.ofNat 9 i1)

/-- R31, R161, R162 at EXACT numerics: the transform buffer of slot 0 holds the product as its input and its forward
transform as its output; that of slot 1 does in DUAL mode, and keeps its contents in SINGLE mode. R31 lets a model omit
the buffers: that this one holds them, the input in units of 2^-149 and the output in units of 2^-150, is its choice
(DESIGN CHOICE, notes/assumptions/2.md), and that SINGLE mode keeps FFTBUF1 is its reading (DEDUCED,
notes/assumptions/5.md). -/
def Obligations.TransformBuffers : Prop :=
  ∀ (s : State) (p : BitVec 64), s.params.numerics = .exact → finiteWindow (window s p) = true →
    let w := window s p
    let r := windowStep s p
    (∀ j : Fin 512, intComplex r.fft0.input[j] = (2 : ℂ) ^ 149 * (intComplex s.t0[j] * sampleComplex w[j])) ∧
    (∀ m : Fin 512, surdComplex 7 r.fft0.output[m] = (2 : ℂ) ^ 150 * realBins s.t0 w m) ∧
    (s.mode = .dual →
      (∀ j : Fin 512, intComplex r.fft1.input[j] = (2 : ℂ) ^ 149 * (intComplex s.t1[j] * sampleComplex w[j])) ∧
      (∀ m : Fin 512, surdComplex 7 r.fft1.output[m] = (2 : ℂ) ^ 150 * realBins s.t1 w m)) ∧
    (s.mode = .single → r.fft1 = s.fft1)

/-- R176, R177: the word and the peak bins of a finite window whose result is within range are a function of the window,
the templates and the mode: not of the place in the stream, of earlier windows, or of the buffers. -/
def Obligations.WindowDependsOnItsSamples : Prop :=
  ∀ (s t : State) (p q : BitVec 64), window s p = window t q → s.t0 = t.t0 → s.t1 = t.t1 → s.mode = t.mode →
    s.params.numerics = t.params.numerics → finiteWindow (window s p) = true →
    (s.params.numerics = .exact → |exactResult s (window s p)| ≤ largestFinite) →
    (windowStep s p).out = (windowStep t q).out ∧
      (s.mode = .dual → (windowStep s p).idx0 = (windowStep t q).idx0 ∧
        (windowStep s p).idx1 = (windowStep t q).idx1)

/-- R176: `run a` then `run b` appends the same words as `run (a + b)`, and leaves the same RP, samples, peak bins and
LAST_OUT, when every window is finite and within range, a and b being 0 or more; the counts of draws may differ. -/
def Obligations.SplitRun : Prop :=
  ∀ (s : State) (a b d : Nat), s.phase = .ready → countFits (a + b) = true →
    (∀ c, s.params.inCapacity = some c → a + b + 511 ≤ c) → a + b + 511 ≤ s.inStream.length →
    (∀ c, s.params.outCapacity = some c → s.outFifo.length + (a + b) ≤ c) →
    (∀ k < a + b, finiteWindow (liveWindow s k) = true ∧
      (s.params.numerics = .exact → |exactResult s (liveWindow s k)| ≤ largestFinite)) →
    ∃ t u v, exec (.run a) s = .next t ∧ exec (.run b) { t with draws := d } = .next u ∧
      exec (.run (a + b)) s = .next v ∧
      u.outFifo = v.outFifo ∧ u.rp = v.rp ∧ u.inStream = v.inStream ∧ u.lastOut = v.lastOut ∧
      u.idx0 = v.idx0 ∧ u.idx1 = v.idx1

/-! ## The laws of the window step -/

/-- R172: the energy law and the two bounds on a peak, for the template of any code; and the SINGLE output as the
rounding of 512 times the energy. -/
def Obligations.EnergyLaw : Prop :=
  (∀ (code : Code) (w : Window),
    (∑ m, realMags (loadTemplate code) w m) = 512 * windowEnergy w ∧
    windowEnergy w ≤ (⨆ m, realMags (loadTemplate code) w m) ∧
    (⨆ m, realMags (loadTemplate code) w m) ≤ (∑ j : Fin 512, ‖sampleComplex w[j]‖) ^ 2) ∧
  ∀ (s : State) (p : BitVec 64) (code : Code), s.params.numerics = .exact → s.mode = .single →
    s.t0 = loadTemplate code → finiteWindow (window s p) = true →
    512 * windowEnergy (window s p) ≤ largestFinite →
    IsNearestEven (512 * windowEnergy (window s p)) (windowStep s p).out

/-- R173: a window equal to the conjugate of a template has the transform 512 in bin 0 and 0 elsewhere, so it peaks at
bin 0; one equal to the template peaks at bin 256, with magnitude 512^2 there and 0 in every other bin. In a window step
in DUAL mode at EXACT numerics, IDX0 takes that bin where the window is slot 0's, and IDX1 where it is slot 1's. -/
def Obligations.SelfCorrelation : Prop :=
  (∀ (code : Code) (w : Window),
    ((∀ j : Fin 512, sampleComplex w[j] = (starRingEnd ℂ) (intComplex (loadTemplate code)[j])) →
      (∀ m : Fin 512, realBins (loadTemplate code) w m = if m = 0 then 512 else 0) ∧
      (∀ m : Fin 512, realMags (loadTemplate code) w m = if m = 0 then 512 ^ 2 else 0) ∧
      IsPeak (realMags (loadTemplate code) w) 0) ∧
    ((∀ j : Fin 512, sampleComplex w[j] = intComplex (loadTemplate code)[j]) →
      (∀ m : Fin 512, realMags (loadTemplate code) w m = if m = 256 then 512 ^ 2 else 0) ∧
      IsPeak (realMags (loadTemplate code) w) 256)) ∧
  ∀ (s : State) (p : BitVec 64) (code0 code1 : Code), s.params.numerics = .exact → s.mode = .dual →
    s.t0 = loadTemplate code0 → s.t1 = loadTemplate code1 → finiteWindow (window s p) = true →
    ((∀ j : Fin 512, sampleComplex (window s p)[j] = (starRingEnd ℂ) (intComplex s.t0[j])) →
      (windowStep s p).idx0 = 0) ∧
    ((∀ j : Fin 512, sampleComplex (window s p)[j] = intComplex s.t0[j]) → (windowStep s p).idx0 = 256) ∧
    ((∀ j : Fin 512, sampleComplex (window s p)[j] = (starRingEnd ℂ) (intComplex s.t1[j])) →
      (windowStep s p).idx1 = 0) ∧
    ((∀ j : Fin 512, sampleComplex (window s p)[j] = intComplex s.t1[j]) → (windowStep s p).idx1 = 256)

/-- R174 at EXACT numerics: a window that is zero but for one sample c: every magnitude is |c|^2, for the template of any
code; in DUAL mode, with a template in slot 1 too, the peak bins are 0 and the word is |c| rounded; in SINGLE mode,
whatever slot 1 holds, the word is 512 |c|^2 rounded. -/
def Obligations.ImpulseWindows : Prop :=
  ∀ (s : State) (p : BitVec 64) (code0 : Code) (j0 : Fin 512), s.params.numerics = .exact →
    s.t0 = loadTemplate code0 → finiteWindow (window s p) = true →
    (∀ j : Fin 512, j ≠ j0 → sampleComplex (window s p)[j] = 0) →
    let c := sampleComplex (window s p)[j0]
    (∀ m, realMags s.t0 (window s p) m = ‖c‖ ^ 2) ∧ (∑ m, realMags s.t0 (window s p) m) = 512 * ‖c‖ ^ 2 ∧
    IsPeak (realMags s.t0 (window s p)) 0 ∧
    (∀ code1, s.mode = .dual → s.t1 = loadTemplate code1 → ‖c‖ ≤ largestFinite →
      IsNearestEven ‖c‖ (windowStep s p).out ∧ (windowStep s p).idx0 = 0 ∧ (windowStep s p).idx1 = 0) ∧
    (s.mode = .single → 512 * ‖c‖ ^ 2 ≤ largestFinite → IsNearestEven (512 * ‖c‖ ^ 2) (windowStep s p).out)

/-- R175, R166 at EXACT numerics: in DUAL mode, with a template in both slots, the word is +0.0 exactly when the window is all zero, has magnitude at
least 2^-149 otherwise, and its sign bit is clear exactly when the peak of slot 1 is at least that of slot 0; in SINGLE
mode, whatever slot 1 holds, the sign bit is clear, and the word is +0.0 exactly when the energy sum is at most 2^-150. -/
def Obligations.OutputSignAndZero : Prop :=
  ∀ (s : State) (p : BitVec 64) (code0 : Code), s.params.numerics = .exact →
    s.t0 = loadTemplate code0 → finiteWindow (window s p) = true →
    |exactResult s (window s p)| ≤ largestFinite →
    let w := window s p
    let y := (windowStep s p).out
    (∀ code1, s.mode = .dual → s.t1 = loadTemplate code1 →
      (y = 0 ↔ ∀ j : Fin 512, sampleComplex w[j] = 0) ∧
      ((∃ j : Fin 512, sampleComplex w[j] ≠ 0) → (1 : ℝ) / 2 ^ 149 ≤ |wordReal y|) ∧
      (y.getLsbD 31 = false ↔ (⨆ m, realMags s.t0 w m) ≤ ⨆ m, realMags s.t1 w m)) ∧
    (s.mode = .single →
      y.getLsbD 31 = false ∧ (y = 0 ↔ (∑ m, realMags s.t0 w m) ≤ (1 : ℝ) / 2 ^ 150))

/-- R178 at EXACT numerics: a block configured in DUAL mode, given the waveform of code 0 (or the stored template of code
0 itself) as its 512 live samples: `run 1` answers -512.0, or +512.0 exactly where code 1 also reaches 512^2, with the
peak bin of slot 0 at 0 (or 256); no bin of slot 1 exceeds 512^2. -/
def Obligations.EndToEnd : Prop :=
  ∀ (s : State) (code0 code1 : Code), s.phase = .ready → s.mode = .dual → s.params.numerics = .exact →
    legalParams s.params → s.outFifo = [] → s.t0 = loadTemplate code0 → s.t1 = loadTemplate code1 →
    ∀ (x : Template) (bin : BitVec 9), (x = modulate code0 ∧ bin = 0) ∨ (x = loadTemplate code0 ∧ bin = 256) →
    s.inStream = x.toList.map sampleOfInts →
    ∃ t y, exec (.run 1) s = .next t ∧ t.outFifo = [y] ∧ t.idx0 = bin ∧
      (y = 0xC4000000 ∨ y = 0x44000000) ∧
      (y = 0x44000000 ↔ ∃ m, realMags s.t1 (liveWindow s 0) m = 512 ^ 2) ∧
      ∀ m, realMags s.t1 (liveWindow s 0) m ≤ 512 ^ 2

/-! ## Reset -/

/-- R220: the reset state, after the reset input, after SRESET and at the start; the parameters stay. The transform
buffers, which R220 leaves unspecified, are not named here. -/
def Obligations.ResetState : Prop :=
  ∀ s : State, ∃ t, exec .sreset s = .next t ∧ hostAct .reset s = some t ∧ t.params = s.params ∧
    ∀ u : State, u = t ∨ u = State.reset →
      u.phase = .unconfigured ∧ u.mode = .single ∧ u.sel0 = 0 ∧ u.sel1 = 0 ∧
      (∀ k, u.code0.getLsbD k = false) ∧ (∀ k, u.code1.getLsbD k = false) ∧
      (∀ k : Fin 512, u.t0[k] = ⟨0, 0⟩ ∧ u.t1[k] = ⟨0, 0⟩) ∧
      u.idx0 = 0 ∧ u.idx1 = 0 ∧ u.lastOut = 0 ∧ u.rp = 0 ∧ u.inStream = [] ∧ u.outFifo = [] ∧
      u.pending = none ∧ u.err = 0 ∧ u.firstErr = 0 ∧ statusWord u = 0

/-! ## The ports and the readback space -/

/-- R54, R59: PUSH appends one sample, its real part in the low half of the item, in every phase; at LIVE = IN_CAPACITY
it holds. That the Engine has the turn then is the model's scheduling (DESIGN CHOICE, notes/assumptions/7.md). -/
def Obligations.HostPush : Prop :=
  ∀ (s : State) (re im : Word) (rest : List Turn), s.agenda = .host (.push (im ++ re)) :: rest →
    ((∀ c, s.params.inCapacity = some c → s.inStream.length < c) →
      step s = .next { s with agenda := rest, inStream := s.inStream ++ [⟨re, im⟩] }) ∧
    (s.params.inCapacity = some s.inStream.length → step s = engineStep s)

/-- R57: POP removes the head of OUT and the Host receives it; with OUT empty it holds. That the Engine has the turn then
is the model's scheduling, and the list of received words its own field (DESIGN CHOICE, notes/assumptions/7.md). -/
def Obligations.HostPop : Prop :=
  ∀ (s : State) (rest : List Turn), s.agenda = .host .pop :: rest →
    (∀ v vs, s.outFifo = v :: vs →
      step s = .next { s with agenda := rest, outFifo := vs, received := s.received ++ [v] }) ∧
    (s.outFifo = [] → step s = engineStep s)

/-- R58: a command write makes the word pending; with a command pending it holds. That the Engine has the turn then is the
model's scheduling (DESIGN CHOICE, notes/assumptions/7.md). -/
def Obligations.HostCommandWrite : Prop :=
  ∀ (s : State) (w : Word) (rest : List Turn), s.agenda = .host (.cmdWrite w) :: rest →
    (s.pending = none → step s = .next { s with agenda := rest, pending := some w }) ∧
    (∀ v, s.pending = some v → step s = engineStep s)

/-- R56, R61: a readback read gives the Host the word of the current state and changes nothing in the block, so the same
read again gives the same word. The list of received words is the model's own field (DESIGN CHOICE,
notes/assumptions/7.md). -/
def Obligations.HostRead : Prop :=
  ∀ (s : State) (addr : BitVec 12) (rest : List Turn), s.agenda = .host (.read addr) :: rest →
    ∃ t, step s = .next t ∧ t.received = s.received ++ [memRead s addr] ∧
      (∀ a, memRead t a = memRead s a) ∧ t = { s with agenda := rest, received := t.received }

/-- R50, R213: a Host action other than reset, where it does not hold, writes only the port it uses: a command write
PENDING, which was empty; a push the input stream, by one sample; a pop the output stream, by its head, which the Host
receives; a read nothing in the block. Every other field is unchanged: no register, no code, no template, no error bit.
The list of received words is the model's own field (DESIGN CHOICE, notes/assumptions/7.md). -/
def Obligations.HostActionFrame : Prop :=
  ∀ s t : State,
    (∀ w, hostAct (.cmdWrite w) s = some t → s.pending = none ∧ t = { s with pending := some w }) ∧
    (∀ re im : Word, hostAct (.push (im ++ re)) s = some t → t = { s with inStream := s.inStream ++ [⟨re, im⟩] }) ∧
    (hostAct .pop s = some t →
      ∃ v, s.outFifo = v :: t.outFifo ∧ t = { s with outFifo := t.outFifo, received := s.received ++ [v] }) ∧
    (∀ addr, hostAct (.read addr) s = some t → t = { s with received := s.received ++ [memRead s addr] })

/-- R27: STATUS, bit by bit; its reset value is 0. -/
def Obligations.StatusBits : Prop :=
  (∀ s : State,
    ((statusWord s).getLsbD 0 = true ↔ s.phase = .ready) ∧
    ((statusWord s).getLsbD 1 = true ↔ s.phase = .ready ∧ s.mode = .dual) ∧
    ((statusWord s).getLsbD 2 = true ↔ ∃ b < 5, s.err.getLsbD b = true) ∧
    ((statusWord s).getLsbD 3 = true ↔ s.pending ≠ none) ∧
    (∀ b < 4, (statusWord s).getLsbD (4 + b) = s.firstErr.getLsbD b) ∧
    (∀ b < 5, (statusWord s).getLsbD (8 + b) = s.err.getLsbD b) ∧
    (∀ b, 13 ≤ b → (statusWord s).getLsbD b = false)) ∧
  statusWord State.reset = 0

/-- R55, R56: the registers, the two halves of RP, the counts and the capacities; and the reserved addresses, which read
0. -/
def Obligations.ReadbackRegisters : Prop :=
  ∀ s : State,
    memRead s 0x000 = statusWord s ∧ memRead s 0x001 = s.sel0 ∧ memRead s 0x002 = s.sel1 ∧
    memRead s 0x004 ++ memRead s 0x003 = s.rp ∧ memRead s 0x005 = s.lastOut ∧
    (memRead s 0x006).toNat = s.idx0.toNat ∧ (memRead s 0x007).toNat = s.idx1.toNat ∧
    (memRead s 0x008).toNat = min s.inStream.length 0xFFFFFFFF ∧
    (memRead s 0x009).toNat = min s.outFifo.length 0xFFFFFFFF ∧
    (∀ c, s.params.inCapacity = some c → (memRead s 0x00A).toNat = min c 0xFFFFFFFF) ∧
    (s.params.inCapacity = none → memRead s 0x00A = 0xFFFFFFFF) ∧
    (∀ c, s.params.outCapacity = some c → (memRead s 0x00B).toNat = min c 0xFFFFFFFF) ∧
    (s.params.outCapacity = none → memRead s 0x00B = 0xFFFFFFFF) ∧
    ∀ addr : BitVec 12, (0x00C ≤ addr.toNat ∧ addr.toNat ≤ 0x00F) ∨ (0x050 ≤ addr.toNat ∧ addr.toNat ≤ 0x3FF) ∨
      0xC00 ≤ addr.toNat → memRead s addr = 0

/-- R55, addresses 0x010 to 0x04F: chip k is bit k mod 32 of word k div 32, and bit 31 of the last word of a code table
reads 0. -/
def Obligations.ReadbackChips : Prop :=
  ∀ s : State,
    (∀ k < 512, (memRead s (BitVec.ofNat 12 (0x010 + k / 32))).getLsbD (k % 32) = s.code0.getLsbD k ∧
      (memRead s (BitVec.ofNat 12 (0x020 + k / 32))).getLsbD (k % 32) = s.code1.getLsbD k) ∧
    (∀ k < 511, (memRead s (BitVec.ofNat 12 (0x030 + k / 32))).getLsbD (k % 32) = s.params.mseq1.getLsbD k ∧
      (memRead s (BitVec.ofNat 12 (0x040 + k / 32))).getLsbD (k % 32) = s.params.mseq2.getLsbD k) ∧
    (memRead s 0x03F).getLsbD 31 = false ∧ (memRead s 0x04F).getLsbD 31 = false

/-- R55, R144, addresses 0x400 to 0xBFF, in every state of the invariant: each part of a template is 0, +1 or -1 and reads
as 0x00000000, 0x3F800000 or 0xBF800000. -/
def Obligations.ReadbackTemplates : Prop :=
  ∀ s : State, Invariant s → ∀ (k : Nat) (_ : k < 512),
    let wordOf := fun z : Int => if z = 0 then 0#32 else if z = 1 then 0x3F800000#32 else 0xBF800000#32
    (∀ z ∈ [s.t0[k].re, s.t0[k].im, s.t1[k].re, s.t1[k].im], z = 0 ∨ z = 1 ∨ z = -1) ∧
    memRead s (BitVec.ofNat 12 (0x400 + 2 * k)) = wordOf s.t0[k].re ∧
    memRead s (BitVec.ofNat 12 (0x400 + 2 * k + 1)) = wordOf s.t0[k].im ∧
    memRead s (BitVec.ofNat 12 (0x800 + 2 * k)) = wordOf s.t1[k].re ∧
    memRead s (BitVec.ofNat 12 (0x800 + 2 * k + 1)) = wordOf s.t1[k].im

/-- R55 with R141, R142, R171, R201: which readback words a command can change: a failing command STATUS only, a RUN the
words 0x000 and 0x003 to 0x009, a configure STATUS, the selectors, the codes and the templates. -/
def Obligations.ReadbackFrame : Prop :=
  ∀ (s t : State) (addr : BitVec 12),
    (∀ e, errorRecorded e s t → addr ≠ 0x000 → memRead t addr = memRead s addr) ∧
    (∀ n, exec (.run n) s = .next t → addr ≠ 0x000 → ¬(0x003 ≤ addr.toNat ∧ addr.toNat ≤ 0x009) →
      memRead t addr = memRead s addr) ∧
    (∀ sel, exec (.cfgSingle sel) s = .next t → 0x001 < addr.toNat → ¬(0x010 ≤ addr.toNat ∧ addr.toNat ≤ 0x01F) →
      ¬(0x400 ≤ addr.toNat ∧ addr.toNat ≤ 0x7FF) → memRead t addr = memRead s addr) ∧
    (∀ sel0 sel1, exec (.cfgDual sel0 sel1) s = .next t → 0x002 < addr.toNat →
      ¬(0x010 ≤ addr.toNat ∧ addr.toNat ≤ 0x02F) → ¬(0x400 ≤ addr.toNat ∧ addr.toNat ≤ 0xBFF) →
      memRead t addr = memRead s addr)

/-! ## Rules of the whole machine -/

/-- R28, R29, R30, R32, R33, R35, R36, R146: every step from a state of the invariant gives a state of the invariant.
That SINGLE mode keeps IDX0 and IDX1 at 0 for windows that are not finite too, a clause of the invariant, is the model's
reading (DEDUCED, notes/assumptions/5.md). -/
def Obligations.StepKeepsInv : Prop :=
  ∀ s t : State, Invariant s → step s = .next t → Invariant t

/-- The reset state is in the invariant, whatever the open parameters are. -/
def Obligations.ResetInv : Prop := Invariant State.reset

/-- R7, R38, R220: no step changes a code table or another parameter, and none changes what the Host has received but by
adding to it. -/
def Obligations.ParametersStay : Prop :=
  ∀ s t : State, step s = .next t → t.params = s.params ∧ s.received <+: t.received

/-- R23: in READY a step either leaves the phase, the mode, the selectors, the codes and the templates as they are, or is
a reset: the reset input, or SRESET. -/
def Obligations.ReadyIsImmutable : Prop :=
  ∀ s t : State, s.phase = .ready → step s = .next t →
    (t.phase = .ready ∧ t.mode = s.mode ∧ t.sel0 = s.sel0 ∧ t.sel1 = s.sel1 ∧ t.code0 = s.code0 ∧
      t.code1 = s.code1 ∧ t.t0 = s.t0 ∧ t.t1 = s.t1) ∨
    (t.phase = .unconfigured ∧ (s.pending = some 0xF0000000 ∨ ∃ rest, s.agenda = .host .reset :: rest))

/-- R22, R34, R64: a command that is not SRESET advances RP only if it is a RUN N, by N, with N words appended and N
samples discarded; every other command leaves RP and both streams as they are. -/
def Obligations.StreamsMoveByRun : Prop :=
  ∀ (i : Instr) (s t : State), i ≠ .sreset → exec i s = .next t →
    (t.rp = s.rp ∧ t.inStream = s.inStream ∧ t.outFifo = s.outFifo ∧ t.lastOut = s.lastOut) ∨
    ∃ n, i = .run n ∧ t.rp = s.rp + BitVec.ofNat 64 n ∧ t.inStream = s.inStream.drop n ∧
      s.outFifo <+: t.outFifo ∧ t.outFifo.length = s.outFifo.length + n
end

