-- ==== Sys2Proof/Laws/State.lean ====
section
/-! SUPPORT. One lemma per field for each named update of the state: what the update leaves in the field. -/

namespace Sys2Proof.Laws

open Sys2Proof.Machine

/-! ## raise -/

@[simp] theorem raise_phase (e : ErrorCode) (s : State) : (raise e s).phase = s.phase := rfl
@[simp] theorem raise_mode (e : ErrorCode) (s : State) : (raise e s).mode = s.mode := rfl
@[simp] theorem raise_sel0 (e : ErrorCode) (s : State) : (raise e s).sel0 = s.sel0 := rfl
@[simp] theorem raise_sel1 (e : ErrorCode) (s : State) : (raise e s).sel1 = s.sel1 := rfl
@[simp] theorem raise_code0 (e : ErrorCode) (s : State) : (raise e s).code0 = s.code0 := rfl
@[simp] theorem raise_code1 (e : ErrorCode) (s : State) : (raise e s).code1 = s.code1 := rfl
@[simp] theorem raise_t0 (e : ErrorCode) (s : State) : (raise e s).t0 = s.t0 := rfl
@[simp] theorem raise_t1 (e : ErrorCode) (s : State) : (raise e s).t1 = s.t1 := rfl
@[simp] theorem raise_fft0 (e : ErrorCode) (s : State) : (raise e s).fft0 = s.fft0 := rfl
@[simp] theorem raise_fft1 (e : ErrorCode) (s : State) : (raise e s).fft1 = s.fft1 := rfl
@[simp] theorem raise_idx0 (e : ErrorCode) (s : State) : (raise e s).idx0 = s.idx0 := rfl
@[simp] theorem raise_idx1 (e : ErrorCode) (s : State) : (raise e s).idx1 = s.idx1 := rfl
@[simp] theorem raise_lastOut (e : ErrorCode) (s : State) : (raise e s).lastOut = s.lastOut := rfl
@[simp] theorem raise_rp (e : ErrorCode) (s : State) : (raise e s).rp = s.rp := rfl
@[simp] theorem raise_inStream (e : ErrorCode) (s : State) : (raise e s).inStream = s.inStream := rfl
@[simp] theorem raise_outFifo (e : ErrorCode) (s : State) : (raise e s).outFifo = s.outFifo := rfl
@[simp] theorem raise_pending (e : ErrorCode) (s : State) : (raise e s).pending = none := rfl
@[simp] theorem raise_err (e : ErrorCode) (s : State) : (raise e s).err = s.err ||| errorBit e := rfl
@[simp] theorem raise_firstErr (e : ErrorCode) (s : State) :
    (raise e s).firstErr = if s.firstErr = 0 then errorNumber e else s.firstErr := rfl
@[simp] theorem raise_params (e : ErrorCode) (s : State) : (raise e s).params = s.params := rfl
@[simp] theorem raise_agenda (e : ErrorCode) (s : State) : (raise e s).agenda = s.agenda := rfl
@[simp] theorem raise_received (e : ErrorCode) (s : State) : (raise e s).received = s.received := rfl
@[simp] theorem raise_draws (e : ErrorCode) (s : State) : (raise e s).draws = s.draws := rfl

/-! ## complete -/

@[simp] theorem complete_phase (s : State) : (complete s).phase = s.phase := rfl
@[simp] theorem complete_mode (s : State) : (complete s).mode = s.mode := rfl
@[simp] theorem complete_sel0 (s : State) : (complete s).sel0 = s.sel0 := rfl
@[simp] theorem complete_sel1 (s : State) : (complete s).sel1 = s.sel1 := rfl
@[simp] theorem complete_code0 (s : State) : (complete s).code0 = s.code0 := rfl
@[simp] theorem complete_code1 (s : State) : (complete s).code1 = s.code1 := rfl
@[simp] theorem complete_t0 (s : State) : (complete s).t0 = s.t0 := rfl
@[simp] theorem complete_t1 (s : State) : (complete s).t1 = s.t1 := rfl
@[simp] theorem complete_fft0 (s : State) : (complete s).fft0 = s.fft0 := rfl
@[simp] theorem complete_fft1 (s : State) : (complete s).fft1 = s.fft1 := rfl
@[simp] theorem complete_idx0 (s : State) : (complete s).idx0 = s.idx0 := rfl
@[simp] theorem complete_idx1 (s : State) : (complete s).idx1 = s.idx1 := rfl
@[simp] theorem complete_lastOut (s : State) : (complete s).lastOut = s.lastOut := rfl
@[simp] theorem complete_rp (s : State) : (complete s).rp = s.rp := rfl
@[simp] theorem complete_inStream (s : State) : (complete s).inStream = s.inStream := rfl
@[simp] theorem complete_outFifo (s : State) : (complete s).outFifo = s.outFifo := rfl
@[simp] theorem complete_pending (s : State) : (complete s).pending = none := rfl
@[simp] theorem complete_err (s : State) : (complete s).err = s.err := rfl
@[simp] theorem complete_firstErr (s : State) : (complete s).firstErr = s.firstErr := rfl
@[simp] theorem complete_params (s : State) : (complete s).params = s.params := rfl
@[simp] theorem complete_agenda (s : State) : (complete s).agenda = s.agenda := rfl
@[simp] theorem complete_received (s : State) : (complete s).received = s.received := rfl
@[simp] theorem complete_draws (s : State) : (complete s).draws = s.draws := rfl

/-! ## resetBlock -/

@[simp] theorem resetBlock_phase (s : State) : (resetBlock s).phase = .unconfigured := rfl
@[simp] theorem resetBlock_mode (s : State) : (resetBlock s).mode = .single := rfl
@[simp] theorem resetBlock_sel0 (s : State) : (resetBlock s).sel0 = 0 := rfl
@[simp] theorem resetBlock_sel1 (s : State) : (resetBlock s).sel1 = 0 := rfl
@[simp] theorem resetBlock_code0 (s : State) : (resetBlock s).code0 = 0 := rfl
@[simp] theorem resetBlock_code1 (s : State) : (resetBlock s).code1 = 0 := rfl
@[simp] theorem resetBlock_t0 (s : State) : (resetBlock s).t0 = zeroTemplate := rfl
@[simp] theorem resetBlock_t1 (s : State) : (resetBlock s).t1 = zeroTemplate := rfl
@[simp] theorem resetBlock_fft0 (s : State) : (resetBlock s).fft0 = zeroFftBuf := rfl
@[simp] theorem resetBlock_fft1 (s : State) : (resetBlock s).fft1 = zeroFftBuf := rfl
@[simp] theorem resetBlock_idx0 (s : State) : (resetBlock s).idx0 = 0 := rfl
@[simp] theorem resetBlock_idx1 (s : State) : (resetBlock s).idx1 = 0 := rfl
@[simp] theorem resetBlock_lastOut (s : State) : (resetBlock s).lastOut = 0 := rfl
@[simp] theorem resetBlock_rp (s : State) : (resetBlock s).rp = 0 := rfl
@[simp] theorem resetBlock_inStream (s : State) : (resetBlock s).inStream = [] := rfl
@[simp] theorem resetBlock_outFifo (s : State) : (resetBlock s).outFifo = [] := rfl
@[simp] theorem resetBlock_pending (s : State) : (resetBlock s).pending = none := rfl
@[simp] theorem resetBlock_err (s : State) : (resetBlock s).err = 0 := rfl
@[simp] theorem resetBlock_firstErr (s : State) : (resetBlock s).firstErr = 0 := rfl
@[simp] theorem resetBlock_params (s : State) : (resetBlock s).params = s.params := rfl
@[simp] theorem resetBlock_agenda (s : State) : (resetBlock s).agenda = s.agenda := rfl
@[simp] theorem resetBlock_received (s : State) : (resetBlock s).received = s.received := rfl
@[simp] theorem resetBlock_draws (s : State) : (resetBlock s).draws = s.draws := rfl

/-! ## outAppend -/

@[simp] theorem outAppend_phase (v : Word) (s : State) : (outAppend v s).phase = s.phase := rfl
@[simp] theorem outAppend_mode (v : Word) (s : State) : (outAppend v s).mode = s.mode := rfl
@[simp] theorem outAppend_sel0 (v : Word) (s : State) : (outAppend v s).sel0 = s.sel0 := rfl
@[simp] theorem outAppend_sel1 (v : Word) (s : State) : (outAppend v s).sel1 = s.sel1 := rfl
@[simp] theorem outAppend_code0 (v : Word) (s : State) : (outAppend v s).code0 = s.code0 := rfl
@[simp] theorem outAppend_code1 (v : Word) (s : State) : (outAppend v s).code1 = s.code1 := rfl
@[simp] theorem outAppend_t0 (v : Word) (s : State) : (outAppend v s).t0 = s.t0 := rfl
@[simp] theorem outAppend_t1 (v : Word) (s : State) : (outAppend v s).t1 = s.t1 := rfl
@[simp] theorem outAppend_fft0 (v : Word) (s : State) : (outAppend v s).fft0 = s.fft0 := rfl
@[simp] theorem outAppend_fft1 (v : Word) (s : State) : (outAppend v s).fft1 = s.fft1 := rfl
@[simp] theorem outAppend_idx0 (v : Word) (s : State) : (outAppend v s).idx0 = s.idx0 := rfl
@[simp] theorem outAppend_idx1 (v : Word) (s : State) : (outAppend v s).idx1 = s.idx1 := rfl
@[simp] theorem outAppend_lastOut (v : Word) (s : State) : (outAppend v s).lastOut = v := rfl
@[simp] theorem outAppend_rp (v : Word) (s : State) : (outAppend v s).rp = s.rp := rfl
@[simp] theorem outAppend_inStream (v : Word) (s : State) : (outAppend v s).inStream = s.inStream := rfl
@[simp] theorem outAppend_outFifo (v : Word) (s : State) : (outAppend v s).outFifo = s.outFifo ++ [v] := rfl
@[simp] theorem outAppend_pending (v : Word) (s : State) : (outAppend v s).pending = s.pending := rfl
@[simp] theorem outAppend_err (v : Word) (s : State) : (outAppend v s).err = s.err := rfl
@[simp] theorem outAppend_firstErr (v : Word) (s : State) : (outAppend v s).firstErr = s.firstErr := rfl
@[simp] theorem outAppend_params (v : Word) (s : State) : (outAppend v s).params = s.params := rfl
@[simp] theorem outAppend_agenda (v : Word) (s : State) : (outAppend v s).agenda = s.agenda := rfl
@[simp] theorem outAppend_received (v : Word) (s : State) : (outAppend v s).received = s.received := rfl
@[simp] theorem outAppend_draws (v : Word) (s : State) : (outAppend v s).draws = s.draws := rfl

/-! ## writeWindow -/

@[simp] theorem writeWindow_phase (r : WindowResult) (s : State) : (writeWindow r s).phase = s.phase := rfl
@[simp] theorem writeWindow_mode (r : WindowResult) (s : State) : (writeWindow r s).mode = s.mode := rfl
@[simp] theorem writeWindow_sel0 (r : WindowResult) (s : State) : (writeWindow r s).sel0 = s.sel0 := rfl
@[simp] theorem writeWindow_sel1 (r : WindowResult) (s : State) : (writeWindow r s).sel1 = s.sel1 := rfl
@[simp] theorem writeWindow_code0 (r : WindowResult) (s : State) : (writeWindow r s).code0 = s.code0 := rfl
@[simp] theorem writeWindow_code1 (r : WindowResult) (s : State) : (writeWindow r s).code1 = s.code1 := rfl
@[simp] theorem writeWindow_t0 (r : WindowResult) (s : State) : (writeWindow r s).t0 = s.t0 := rfl
@[simp] theorem writeWindow_t1 (r : WindowResult) (s : State) : (writeWindow r s).t1 = s.t1 := rfl
@[simp] theorem writeWindow_fft0 (r : WindowResult) (s : State) : (writeWindow r s).fft0 = r.fft0 := rfl
@[simp] theorem writeWindow_fft1 (r : WindowResult) (s : State) : (writeWindow r s).fft1 = r.fft1 := rfl
@[simp] theorem writeWindow_idx0 (r : WindowResult) (s : State) : (writeWindow r s).idx0 = r.idx0 := rfl
@[simp] theorem writeWindow_idx1 (r : WindowResult) (s : State) : (writeWindow r s).idx1 = r.idx1 := rfl
@[simp] theorem writeWindow_lastOut (r : WindowResult) (s : State) : (writeWindow r s).lastOut = r.out := rfl
@[simp] theorem writeWindow_rp (r : WindowResult) (s : State) : (writeWindow r s).rp = s.rp := rfl
@[simp] theorem writeWindow_inStream (r : WindowResult) (s : State) :
    (writeWindow r s).inStream = s.inStream := rfl
@[simp] theorem writeWindow_outFifo (r : WindowResult) (s : State) :
    (writeWindow r s).outFifo = s.outFifo ++ [r.out] := rfl
@[simp] theorem writeWindow_pending (r : WindowResult) (s : State) :
    (writeWindow r s).pending = s.pending := rfl
@[simp] theorem writeWindow_err (r : WindowResult) (s : State) : (writeWindow r s).err = s.err := rfl
@[simp] theorem writeWindow_firstErr (r : WindowResult) (s : State) :
    (writeWindow r s).firstErr = s.firstErr := rfl
@[simp] theorem writeWindow_params (r : WindowResult) (s : State) : (writeWindow r s).params = s.params := rfl
@[simp] theorem writeWindow_agenda (r : WindowResult) (s : State) : (writeWindow r s).agenda = s.agenda := rfl
@[simp] theorem writeWindow_received (r : WindowResult) (s : State) :
    (writeWindow r s).received = s.received := rfl
@[simp] theorem writeWindow_draws (r : WindowResult) (s : State) : (writeWindow r s).draws = s.draws + 1 := rfl

/-! ## consume -/

@[simp] theorem consume_phase (n : Nat) (s : State) : (consume n s).phase = s.phase := rfl
@[simp] theorem consume_mode (n : Nat) (s : State) : (consume n s).mode = s.mode := rfl
@[simp] theorem consume_sel0 (n : Nat) (s : State) : (consume n s).sel0 = s.sel0 := rfl
@[simp] theorem consume_sel1 (n : Nat) (s : State) : (consume n s).sel1 = s.sel1 := rfl
@[simp] theorem consume_code0 (n : Nat) (s : State) : (consume n s).code0 = s.code0 := rfl
@[simp] theorem consume_code1 (n : Nat) (s : State) : (consume n s).code1 = s.code1 := rfl
@[simp] theorem consume_t0 (n : Nat) (s : State) : (consume n s).t0 = s.t0 := rfl
@[simp] theorem consume_t1 (n : Nat) (s : State) : (consume n s).t1 = s.t1 := rfl
@[simp] theorem consume_fft0 (n : Nat) (s : State) : (consume n s).fft0 = s.fft0 := rfl
@[simp] theorem consume_fft1 (n : Nat) (s : State) : (consume n s).fft1 = s.fft1 := rfl
@[simp] theorem consume_idx0 (n : Nat) (s : State) : (consume n s).idx0 = s.idx0 := rfl
@[simp] theorem consume_idx1 (n : Nat) (s : State) : (consume n s).idx1 = s.idx1 := rfl
@[simp] theorem consume_lastOut (n : Nat) (s : State) : (consume n s).lastOut = s.lastOut := rfl
@[simp] theorem consume_rp (n : Nat) (s : State) : (consume n s).rp = s.rp + BitVec.ofNat 64 n := rfl
@[simp] theorem consume_inStream (n : Nat) (s : State) : (consume n s).inStream = s.inStream.drop n := rfl
@[simp] theorem consume_outFifo (n : Nat) (s : State) : (consume n s).outFifo = s.outFifo := rfl
@[simp] theorem consume_pending (n : Nat) (s : State) : (consume n s).pending = s.pending := rfl
@[simp] theorem consume_err (n : Nat) (s : State) : (consume n s).err = s.err := rfl
@[simp] theorem consume_firstErr (n : Nat) (s : State) : (consume n s).firstErr = s.firstErr := rfl
@[simp] theorem consume_params (n : Nat) (s : State) : (consume n s).params = s.params := rfl
@[simp] theorem consume_agenda (n : Nat) (s : State) : (consume n s).agenda = s.agenda := rfl
@[simp] theorem consume_received (n : Nat) (s : State) : (consume n s).received = s.received := rfl
@[simp] theorem consume_draws (n : Nat) (s : State) : (consume n s).draws = s.draws := rfl

/-! ## configureSingle -/

@[simp] theorem configureSingle_phase (sel : Int) (s : State) : (configureSingle sel s).phase = .ready := rfl
@[simp] theorem configureSingle_mode (sel : Int) (s : State) : (configureSingle sel s).mode = .single := rfl
@[simp] theorem configureSingle_sel0 (sel : Int) (s : State) :
    (configureSingle sel s).sel0 = selectorWord sel := rfl
@[simp] theorem configureSingle_sel1 (sel : Int) (s : State) : (configureSingle sel s).sel1 = s.sel1 := rfl
@[simp] theorem configureSingle_code0 (sel : Int) (s : State) :
    (configureSingle sel s).code0 = generate s.params sel := by simp only [configureSingle]
@[simp] theorem configureSingle_code1 (sel : Int) (s : State) : (configureSingle sel s).code1 = s.code1 := rfl
@[simp] theorem configureSingle_t0 (sel : Int) (s : State) :
    (configureSingle sel s).t0 = loadTemplate (generate s.params sel) := by simp only [configureSingle]
@[simp] theorem configureSingle_t1 (sel : Int) (s : State) : (configureSingle sel s).t1 = s.t1 := rfl
@[simp] theorem configureSingle_fft0 (sel : Int) (s : State) : (configureSingle sel s).fft0 = s.fft0 := rfl
@[simp] theorem configureSingle_fft1 (sel : Int) (s : State) : (configureSingle sel s).fft1 = s.fft1 := rfl
@[simp] theorem configureSingle_idx0 (sel : Int) (s : State) : (configureSingle sel s).idx0 = s.idx0 := rfl
@[simp] theorem configureSingle_idx1 (sel : Int) (s : State) : (configureSingle sel s).idx1 = s.idx1 := rfl
@[simp] theorem configureSingle_lastOut (sel : Int) (s : State) :
    (configureSingle sel s).lastOut = s.lastOut := rfl
@[simp] theorem configureSingle_rp (sel : Int) (s : State) : (configureSingle sel s).rp = s.rp := rfl
@[simp] theorem configureSingle_inStream (sel : Int) (s : State) :
    (configureSingle sel s).inStream = s.inStream := rfl
@[simp] theorem configureSingle_outFifo (sel : Int) (s : State) :
    (configureSingle sel s).outFifo = s.outFifo := rfl
@[simp] theorem configureSingle_pending (sel : Int) (s : State) :
    (configureSingle sel s).pending = s.pending := rfl
@[simp] theorem configureSingle_err (sel : Int) (s : State) : (configureSingle sel s).err = s.err := rfl
@[simp] theorem configureSingle_firstErr (sel : Int) (s : State) :
    (configureSingle sel s).firstErr = s.firstErr := rfl
@[simp] theorem configureSingle_params (sel : Int) (s : State) :
    (configureSingle sel s).params = s.params := rfl
@[simp] theorem configureSingle_agenda (sel : Int) (s : State) :
    (configureSingle sel s).agenda = s.agenda := rfl
@[simp] theorem configureSingle_received (sel : Int) (s : State) :
    (configureSingle sel s).received = s.received := rfl
@[simp] theorem configureSingle_draws (sel : Int) (s : State) : (configureSingle sel s).draws = s.draws := rfl

/-! ## configureDual -/

@[simp] theorem configureDual_phase (sel0 sel1 : Int) (s : State) :
    (configureDual sel0 sel1 s).phase = .ready := rfl
@[simp] theorem configureDual_mode (sel0 sel1 : Int) (s : State) :
    (configureDual sel0 sel1 s).mode = .dual := rfl
@[simp] theorem configureDual_sel0 (sel0 sel1 : Int) (s : State) :
    (configureDual sel0 sel1 s).sel0 = selectorWord sel0 := rfl
@[simp] theorem configureDual_sel1 (sel0 sel1 : Int) (s : State) :
    (configureDual sel0 sel1 s).sel1 = selectorWord sel1 := rfl
@[simp] theorem configureDual_code0 (sel0 sel1 : Int) (s : State) :
    (configureDual sel0 sel1 s).code0 = generate s.params sel0 := by simp only [configureDual]
@[simp] theorem configureDual_code1 (sel0 sel1 : Int) (s : State) :
    (configureDual sel0 sel1 s).code1 = generate s.params sel1 := by simp only [configureDual]
@[simp] theorem configureDual_t0 (sel0 sel1 : Int) (s : State) :
    (configureDual sel0 sel1 s).t0 = loadTemplate (generate s.params sel0) := by simp only [configureDual]
@[simp] theorem configureDual_t1 (sel0 sel1 : Int) (s : State) :
    (configureDual sel0 sel1 s).t1 = loadTemplate (generate s.params sel1) := by simp only [configureDual]
@[simp] theorem configureDual_fft0 (sel0 sel1 : Int) (s : State) :
    (configureDual sel0 sel1 s).fft0 = s.fft0 := rfl
@[simp] theorem configureDual_fft1 (sel0 sel1 : Int) (s : State) :
    (configureDual sel0 sel1 s).fft1 = s.fft1 := rfl
@[simp] theorem configureDual_idx0 (sel0 sel1 : Int) (s : State) :
    (configureDual sel0 sel1 s).idx0 = s.idx0 := rfl
@[simp] theorem configureDual_idx1 (sel0 sel1 : Int) (s : State) :
    (configureDual sel0 sel1 s).idx1 = s.idx1 := rfl
@[simp] theorem configureDual_lastOut (sel0 sel1 : Int) (s : State) :
    (configureDual sel0 sel1 s).lastOut = s.lastOut := rfl
@[simp] theorem configureDual_rp (sel0 sel1 : Int) (s : State) : (configureDual sel0 sel1 s).rp = s.rp := rfl
@[simp] theorem configureDual_inStream (sel0 sel1 : Int) (s : State) :
    (configureDual sel0 sel1 s).inStream = s.inStream := rfl
@[simp] theorem configureDual_outFifo (sel0 sel1 : Int) (s : State) :
    (configureDual sel0 sel1 s).outFifo = s.outFifo := rfl
@[simp] theorem configureDual_pending (sel0 sel1 : Int) (s : State) :
    (configureDual sel0 sel1 s).pending = s.pending := rfl
@[simp] theorem configureDual_err (sel0 sel1 : Int) (s : State) : (configureDual sel0 sel1 s).err = s.err := rfl
@[simp] theorem configureDual_firstErr (sel0 sel1 : Int) (s : State) :
    (configureDual sel0 sel1 s).firstErr = s.firstErr := rfl
@[simp] theorem configureDual_params (sel0 sel1 : Int) (s : State) :
    (configureDual sel0 sel1 s).params = s.params := rfl
@[simp] theorem configureDual_agenda (sel0 sel1 : Int) (s : State) :
    (configureDual sel0 sel1 s).agenda = s.agenda := rfl
@[simp] theorem configureDual_received (sel0 sel1 : Int) (s : State) :
    (configureDual sel0 sel1 s).received = s.received := rfl
@[simp] theorem configureDual_draws (sel0 sel1 : Int) (s : State) :
    (configureDual sel0 sel1 s).draws = s.draws := rfl

/-! ## hostRead -/

@[simp] theorem hostRead_phase (addr : BitVec 12) (s : State) : (hostRead addr s).phase = s.phase := rfl
@[simp] theorem hostRead_mode (addr : BitVec 12) (s : State) : (hostRead addr s).mode = s.mode := rfl
@[simp] theorem hostRead_sel0 (addr : BitVec 12) (s : State) : (hostRead addr s).sel0 = s.sel0 := rfl
@[simp] theorem hostRead_sel1 (addr : BitVec 12) (s : State) : (hostRead addr s).sel1 = s.sel1 := rfl
@[simp] theorem hostRead_code0 (addr : BitVec 12) (s : State) : (hostRead addr s).code0 = s.code0 := rfl
@[simp] theorem hostRead_code1 (addr : BitVec 12) (s : State) : (hostRead addr s).code1 = s.code1 := rfl
@[simp] theorem hostRead_t0 (addr : BitVec 12) (s : State) : (hostRead addr s).t0 = s.t0 := rfl
@[simp] theorem hostRead_t1 (addr : BitVec 12) (s : State) : (hostRead addr s).t1 = s.t1 := rfl
@[simp] theorem hostRead_fft0 (addr : BitVec 12) (s : State) : (hostRead addr s).fft0 = s.fft0 := rfl
@[simp] theorem hostRead_fft1 (addr : BitVec 12) (s : State) : (hostRead addr s).fft1 = s.fft1 := rfl
@[simp] theorem hostRead_idx0 (addr : BitVec 12) (s : State) : (hostRead addr s).idx0 = s.idx0 := rfl
@[simp] theorem hostRead_idx1 (addr : BitVec 12) (s : State) : (hostRead addr s).idx1 = s.idx1 := rfl
@[simp] theorem hostRead_lastOut (addr : BitVec 12) (s : State) : (hostRead addr s).lastOut = s.lastOut := rfl
@[simp] theorem hostRead_rp (addr : BitVec 12) (s : State) : (hostRead addr s).rp = s.rp := rfl
@[simp] theorem hostRead_inStream (addr : BitVec 12) (s : State) :
    (hostRead addr s).inStream = s.inStream := rfl
@[simp] theorem hostRead_outFifo (addr : BitVec 12) (s : State) : (hostRead addr s).outFifo = s.outFifo := rfl
@[simp] theorem hostRead_pending (addr : BitVec 12) (s : State) : (hostRead addr s).pending = s.pending := rfl
@[simp] theorem hostRead_err (addr : BitVec 12) (s : State) : (hostRead addr s).err = s.err := rfl
@[simp] theorem hostRead_firstErr (addr : BitVec 12) (s : State) :
    (hostRead addr s).firstErr = s.firstErr := rfl
@[simp] theorem hostRead_params (addr : BitVec 12) (s : State) : (hostRead addr s).params = s.params := rfl
@[simp] theorem hostRead_agenda (addr : BitVec 12) (s : State) : (hostRead addr s).agenda = s.agenda := rfl
@[simp] theorem hostRead_received (addr : BitVec 12) (s : State) :
    (hostRead addr s).received = s.received ++ [memRead s addr] := rfl
@[simp] theorem hostRead_draws (addr : BitVec 12) (s : State) : (hostRead addr s).draws = s.draws := rfl

end Sys2Proof.Laws
end

