-- ==== Sys2Proof/Laws/Commands.lean ====
section
/-! SUPPORT. What the commands, the Host's actions and one step can do, each said once. -/

namespace Sys2Proof.Laws

open Sys2Proof.Machine Sys2Proof.Safety

/-! ## The window loop -/

/-- The result of a window step depends on the input stream, the templates, the mode, the parameters, the count of
draws, and what SINGLE mode keeps. -/
theorem windowStep_congr {s t : State} (p : BitVec 64) (hrp : t.rp = s.rp) (hin : t.inStream = s.inStream)
    (ht0 : t.t0 = s.t0) (ht1 : t.t1 = s.t1) (hmode : t.mode = s.mode) (hparams : t.params = s.params)
    (hdraws : t.draws = s.draws) :
    (windowStep t p).out = (windowStep s p).out ∧
      (s.mode = .dual → (windowStep t p).idx0 = (windowStep s p).idx0 ∧
        (windowStep t p).idx1 = (windowStep s p).idx1) := by
  have hw : window t p = window s p := by simp only [window, inRead, hrp, hin]
  unfold windowStep
  simp only [hw, hparams]
  split
  · split
    · unfold exactWindow
      simp only [ht0, ht1, hmode, hdraws]
      split <;> simp_all
    · unfold keepUnused
      simp only [ht0, ht1, hmode]
      split <;> simp_all
  · unfold keepUnused
    simp only [hmode, hdraws]
    split <;> simp_all

/-- SINGLE mode keeps IDX0, IDX1 and FFTBUF1 (R32, R167). -/
theorem windowStep_single {s : State} (p : BitVec 64) (hmode : s.mode = .single) :
    (windowStep s p).idx0 = s.idx0 ∧ (windowStep s p).idx1 = s.idx1 ∧ (windowStep s p).fft1 = s.fft1 := by
  unfold windowStep
  dsimp only
  split
  · split
    · unfold exactWindow; simp [hmode]
    · unfold keepUnused; simp [hmode]
  · unfold keepUnused; simp [hmode]

/-- The fields that RUN's loop does not write. -/
theorem runWindows_frame (count : Nat) (p : BitVec 64) (s : State) :
    let t := runWindows count p s
    t.phase = s.phase ∧ t.mode = s.mode ∧ t.sel0 = s.sel0 ∧ t.sel1 = s.sel1 ∧ t.code0 = s.code0 ∧
      t.code1 = s.code1 ∧ t.t0 = s.t0 ∧ t.t1 = s.t1 ∧ t.rp = s.rp ∧ t.inStream = s.inStream ∧
      t.pending = s.pending ∧ t.err = s.err ∧ t.firstErr = s.firstErr ∧ t.params = s.params ∧
      t.agenda = s.agenda ∧ t.received = s.received ∧ t.draws = s.draws + count := by
  induction count generalizing p s with
  | zero => simp [runWindows]
  | succ count ih =>
    have := ih (p + 1) (writeWindow (windowStep s p) s)
    simp only [writeWindow_phase, writeWindow_mode, writeWindow_sel0, writeWindow_sel1, writeWindow_code0,
      writeWindow_code1, writeWindow_t0, writeWindow_t1, writeWindow_rp, writeWindow_inStream,
      writeWindow_pending, writeWindow_err, writeWindow_firstErr, writeWindow_params, writeWindow_agenda,
      writeWindow_received, writeWindow_draws] at this
    simp only [runWindows]
    obtain ⟨h1, h2, h3, h4, h5, h6, h7, h8, h9, h10, h11, h12, h13, h14, h15, h16, h17⟩ := this
    exact ⟨h1, h2, h3, h4, h5, h6, h7, h8, h9, h10, h11, h12, h13, h14, h15, h16, by rw [h17]; omega⟩

/-- SINGLE mode keeps IDX0, IDX1 and FFTBUF1 through RUN's loop. -/
theorem runWindows_single (count : Nat) (p : BitVec 64) (s : State) (hmode : s.mode = .single) :
    (runWindows count p s).idx0 = s.idx0 ∧ (runWindows count p s).idx1 = s.idx1 ∧
      (runWindows count p s).fft1 = s.fft1 := by
  induction count generalizing p s with
  | zero => simp [runWindows]
  | succ count ih =>
    have h := ih (p + 1) (writeWindow (windowStep s p) s) (by simpa using hmode)
    have hs := windowStep_single p hmode
    simp only [runWindows]
    simpa [hs] using h

/-- RUN's loop appends `count` words, and LAST_OUT is the last of them. -/
theorem runWindows_out (count : Nat) (p : BitVec 64) (s : State) :
    ∃ ys, ys.length = count ∧ (runWindows count p s).outFifo = s.outFifo ++ ys ∧
      (runWindows count p s).lastOut = ys.getLast?.getD s.lastOut := by
  induction count generalizing p s with
  | zero => exact ⟨[], rfl, by simp [runWindows], rfl⟩
  | succ count ih =>
    obtain ⟨ys, hlen, hout, hlast⟩ := ih (p + 1) (writeWindow (windowStep s p) s)
    refine ⟨(windowStep s p).out :: ys, by simp [hlen], ?_, ?_⟩
    · rw [runWindows, hout]; simp
    · cases ys with
      | nil => rw [runWindows, hlast]; simp
      | cons y ys => rw [runWindows, hlast]; simp [List.getLast?_cons]

/-- Two loops one after the other are one loop. -/
theorem runWindows_add (a b : Nat) (p : BitVec 64) (s : State) :
    runWindows (a + b) p s = runWindows b (p + BitVec.ofNat 64 a) (runWindows a p s) := by
  induction a generalizing p s with
  | zero => simp [runWindows]
  | succ a ih =>
    rw [Nat.add_right_comm, runWindows, runWindows, ih]
    congr 1
    rw [Nat.add_comm a 1, BitVec.ofNat_add, BitVec.add_assoc]; rfl

/-- The loop's last turn. -/
theorem runWindows_succ (n : Nat) (p : BitVec 64) (s : State) :
    runWindows (n + 1) p s =
      writeWindow (windowStep (runWindows n p s) (p + BitVec.ofNat 64 n)) (runWindows n p s) := by
  rw [runWindows_add n 1 p s]; rfl

/-- The words RUN's loop appends: word k is that of the window step at p + k, from the state k turns on. -/
theorem runWindows_outputs (n : Nat) (p : BitVec 64) (s : State) :
    (runWindows n p s).outFifo = s.outFifo ++
      (List.range n).map fun k => (windowStep (runWindows k p s) (p + BitVec.ofNat 64 k)).out := by
  induction n with
  | zero => simp [runWindows]
  | succ n ih =>
    rw [runWindows_succ, writeWindow_outFifo, ih, List.range_succ, List.map_append, List.append_assoc]; rfl

/-- The loop does not change what the windows are. -/
theorem window_run (n : Nat) (p q : BitVec 64) (s : State) : window (runWindows n p s) q = window s q := by
  obtain ⟨-, -, -, -, -, -, -, -, hrp, hin, -⟩ := runWindows_frame n p s
  simp only [window, inRead, hrp, hin]

/-- The loop does not change a window's exact result. -/
theorem exactResult_run (n : Nat) (p : BitVec 64) (s : State) (w : Window) :
    exactResult (runWindows n p s) w = exactResult s w := by
  obtain ⟨-, hmode, -, -, -, -, ht0, ht1, -⟩ := runWindows_frame n p s
  simp only [exactResult, hmode, ht0, ht1]

/-- A capacity is at least n when it is unbounded or a bound that is. -/
theorem capacityAtLeast_iff (c : Option Nat) (n : Nat) : capacityAtLeast c n = true ↔ ∀ k, c = some k → n ≤ k := by
  cases c <;> simp [capacityAtLeast]

/-! ## The commands -/

/-- What a command can do: hold, raise an error, end with no other effect, configure, run, or reset. -/
theorem exec_cases (i : Instr) (s : State) :
    exec i s = .next s ∨
    (∃ e, exec i s = .next (raise e s)) ∨
    exec i s = .next (complete s) ∨
    (∃ sel, i = .cfgSingle sel ∧ s.phase = .unconfigured ∧ validSelector sel = true ∧
      exec i s = .next (complete (configureSingle sel s))) ∨
    (∃ sel0 sel1, i = .cfgDual sel0 sel1 ∧ s.phase = .unconfigured ∧ validSelector sel0 = true ∧
      validSelector sel1 = true ∧ exec i s = .next (complete (configureDual sel0 sel1 s))) ∨
    (∃ n, i = .run n ∧ s.phase = .ready ∧ runEnabled n s = true ∧
      exec i s = .next (complete (consume n (runWindows n s.rp s)))) ∨
    (i = .sreset ∧ exec i s = .next (resetBlock s)) := by
  cases i with
  | cfgSingle sel =>
    by_cases hp : s.phase = .ready
    · exact .inr (.inl ⟨.reconfigure, by simp [exec, execCfgSingle, hp]⟩)
    · have hu : s.phase = .unconfigured := by cases h : s.phase <;> simp_all
      by_cases hv : validSelector sel = true
      · exact .inr (.inr (.inr (.inl ⟨sel, rfl, hu, hv, by simp [exec, execCfgSingle, hu, hv]⟩)))
      · exact .inr (.inl ⟨.invalidSelector, by simp [exec, execCfgSingle, hu, hv]⟩)
  | cfgDual sel0 sel1 =>
    by_cases hp : s.phase = .ready
    · exact .inr (.inl ⟨.reconfigure, by simp [exec, execCfgDual, hp]⟩)
    · have hu : s.phase = .unconfigured := by cases h : s.phase <;> simp_all
      by_cases hv : validSelector sel0 = true
      · by_cases hv' : validSelector sel1 = true
        · exact .inr (.inr (.inr (.inr (.inl ⟨sel0, sel1, rfl, hu, hv, hv', by
            simp [exec, execCfgDual, hu, hv, hv']⟩))))
        · exact .inr (.inl ⟨.invalidSelector, by simp [exec, execCfgDual, hu, hv, hv']⟩)
      · exact .inr (.inl ⟨.invalidSelector, by simp [exec, execCfgDual, hu, hv]⟩)
  | run n =>
    by_cases hp : s.phase = .unconfigured
    · exact .inr (.inl ⟨.notConfigured, by simp [exec, execRun, hp]⟩)
    · have hr : s.phase = .ready := by cases h : s.phase <;> simp_all
      by_cases hl : runTooLong n s = true
      · exact .inr (.inl ⟨.runLength, by simp [exec, execRun, hr, hl]⟩)
      · by_cases h0 : n = 0
        · exact .inr (.inr (.inl (by subst h0; simp [exec, execRun, hr, hl])))
        · by_cases he : runEnabled n s = true
          · exact .inr (.inr (.inr (.inr (.inr (.inl ⟨n, rfl, hr, he, by
              simp [exec, execRun, hr, hl, h0, he]⟩)))))
          · exact .inl (by simp [exec, execRun, hr, hl, h0, he])
  | sreset => exact .inr (.inr (.inr (.inr (.inr (.inr ⟨rfl, rfl⟩)))))

/-- Every command answers a next state. -/
theorem exec_next (i : Instr) (s : State) : ∃ t, exec i s = .next t := by
  rcases exec_cases i s with h | ⟨e, h⟩ | h | ⟨_, _, _, _, h⟩ | ⟨_, _, _, _, _, _, h⟩ | ⟨_, _, _, _, h⟩ | ⟨_, h⟩ <;>
    exact ⟨_, h⟩

/-! ## The Host's actions -/

theorem hostCmdWrite_eq (w : Word) (s : State) :
    (s.pending = none ∧ hostCmdWrite w s = some { s with pending := some w }) ∨
      (s.pending ≠ none ∧ hostCmdWrite w s = none) := by
  unfold hostCmdWrite
  by_cases h : s.pending = none
  · exact .inl ⟨h, if_pos h⟩
  · exact .inr ⟨h, if_neg h⟩

theorem hostPush_eq (item : BitVec 64) (s : State) :
    (capacityAtLeast s.params.inCapacity (live s + 1) = true ∧
        hostPush item s = some { s with inStream := s.inStream ++ [sampleOfItem item] }) ∨
      (capacityAtLeast s.params.inCapacity (live s + 1) = false ∧ hostPush item s = none) := by
  unfold hostPush
  cases h : capacityAtLeast s.params.inCapacity (live s + 1)
  · exact .inr ⟨rfl, rfl⟩
  · exact .inl ⟨rfl, rfl⟩

theorem hostPop_eq (s : State) :
    (∃ v rest, s.outFifo = v :: rest ∧
        hostPop s = some { s with outFifo := rest, received := s.received ++ [v] }) ∨
      (s.outFifo = [] ∧ hostPop s = none) := by
  unfold hostPop
  cases h : s.outFifo with
  | nil => exact .inr ⟨rfl, rfl⟩
  | cons v rest => exact .inl ⟨v, rest, rfl, rfl⟩

/-! ## One step -/

/-- What a step can do: the Engine's step, or one Host action that does not hold, each with the agenda's turn taken. -/
theorem step_cases (s : State) :
    (∃ rest, step s = engineStep { s with agenda := rest }) ∨
    (∃ a rest t, s.agenda = .host a :: rest ∧ hostAct a { s with agenda := rest } = some t ∧ step s = .next t) := by
  unfold step
  split
  · exact .inl ⟨s.agenda, rfl⟩
  · next rest _ => exact .inl ⟨rest, rfl⟩
  · next a rest heq =>
    cases h : hostAct a { s with agenda := rest } with
    | none => exact .inl ⟨s.agenda, rfl⟩
    | some t => exact .inr ⟨a, rest, t, heq, h, rfl⟩

/-- What the Engine's step can do: nothing, an illegal word's error, or the command. -/
theorem engineStep_cases (s : State) :
    (s.pending = none ∧ engineStep s = .next s) ∨
    (∃ w e, s.pending = some w ∧ decodeWord w = .error e ∧ engineStep s = .next (raise .illegalCommand s)) ∨
    (∃ w i, s.pending = some w ∧ decodeWord w = .ok i ∧ engineStep s = exec i s) := by
  unfold engineStep
  cases hp : s.pending with
  | none => exact .inl ⟨rfl, rfl⟩
  | some w =>
    cases hd : decodeWord w with
    | error e => exact .inr (.inl ⟨w, e, rfl, hd, by simp [hd]⟩)
    | ok i => exact .inr (.inr ⟨w, i, rfl, hd, by simp [hd]⟩)

/-- Every step answers a next state. -/
theorem step_next (s : State) : ∃ t, step s = .next t := by
  rcases step_cases s with ⟨rest, h⟩ | ⟨_, _, t, _, _, h⟩
  · rcases engineStep_cases { s with agenda := rest } with ⟨_, h'⟩ | ⟨_, _, _, _, h'⟩ | ⟨_, i, _, _, h'⟩
    · exact ⟨_, h.trans h'⟩
    · exact ⟨_, h.trans h'⟩
    · obtain ⟨t, ht⟩ := exec_next i { s with agenda := rest }
      exact ⟨t, h.trans (h'.trans ht)⟩
  · exact ⟨t, h⟩

end Sys2Proof.Laws
end

