-- ==== Sys2Proof/Laws/Encoding.lean ====
section
/-! SUPPORT. Command words: each row's word decoded field by field, the masks as number facts, and the bytes of a
word. -/

namespace Sys2Proof.Laws

/-! ## Words put together from fields -/

/-- A RUN word (R72). -/
theorem decodeWord_run (x : BitVec 16) : decodeWord (0x3#4 ++ 0#12 ++ x) = .ok (.run x.toNat) := by
  have hbit : ∀ i, (0x3#4 ++ 0#12 ++ x : BitVec 32).getLsbD i =
      if i < 16 then x.getLsbD i else (0x3000#16).getLsbD (i - 16) := by
    intro i; rw [show (0x3#4 ++ 0#12 : BitVec 16) = 0x3000#16 from rfl]
    have := BitVec.getLsbD_append (x := 0x3000#16) (y := x) (i := i)
    simpa using this
  generalize hw : (0x3#4 ++ 0#12 ++ x : BitVec 32) = w at hbit ⊢
  have h1 : w &&& 0xFFFF0000#32 = 0x30000000#32 := by
    apply BitVec.eq_of_getLsbD_eq
    intro i hi; rw [BitVec.getLsbD_and, hbit]; interval_cases i <;> simp
  have h2 : w &&& 0xFFFFFC00#32 ≠ 0x10000000#32 := fun h => by
    have := congrArg (·.getLsbD 29) h
    simp only [BitVec.getLsbD_and, hbit] at this; norm_num at this; revert this; decide
  have h3 : w &&& 0xFC00FC00#32 ≠ 0x20000000#32 := fun h => by
    have := congrArg (·.getLsbD 28) h
    simp only [BitVec.getLsbD_and, hbit] at this; norm_num at this; revert this; decide
  have h4 : w.extractLsb' 0 16 = x := by
    apply BitVec.eq_of_getLsbD_eq
    intro i hi; rw [BitVec.getLsbD_extractLsb', hbit]; simp [hi]
  simp only [decodeWord, h1, h2, h3, if_true, if_false, countOf, h4]

/-- A CFG.DUAL word (R71). -/
theorem decodeWord_dual (x y : BitVec 10) :
    decodeWord (0x2#4 ++ 0#2 ++ y ++ 0#6 ++ x) = .ok (.cfgDual x.toInt y.toInt) := by
  have hbit : ∀ i, (0x2#4 ++ 0#2 ++ y ++ 0#6 ++ x : BitVec 32).getLsbD i =
      if i < 10 then x.getLsbD i else if i < 16 then false
      else if i < 26 then y.getLsbD (i - 16) else (0x8#6).getLsbD (i - 26) := by
    intro i; rw [show (0x2#4 ++ 0#2 : BitVec 6) = 0x8#6 from rfl]
    rw [BitVec.getLsbD_append, BitVec.getLsbD_append, BitVec.getLsbD_append]
    rcases Nat.lt_or_ge i 10 with h | h
    · simp [h]
    · rcases Nat.lt_or_ge i 16 with h' | h'
      · simp [h', not_lt.mpr h, show i - 10 < 6 by omega]
      · rw [if_neg (not_lt.mpr h), if_neg (not_lt.mpr h')]
        simp only [not_lt.mpr h, show ¬i - 10 < 6 by omega, Nat.sub_sub]
        rcases Nat.lt_or_ge i 26 with h'' | h''
        · simp [h'', show i - 16 < 10 by omega]
        · simp [not_lt.mpr h'', show ¬i - 16 < 10 by omega]
  generalize hw : (0x2#4 ++ 0#2 ++ y ++ 0#6 ++ x : BitVec 32) = w at hbit ⊢
  have h1 : w &&& 0xFC00FC00#32 = 0x20000000#32 := by
    apply BitVec.eq_of_getLsbD_eq
    intro i hi; rw [BitVec.getLsbD_and, hbit]; interval_cases i <;> simp
  have h2 : w &&& 0xFFFFFC00#32 ≠ 0x10000000#32 := fun h => by
    have := congrArg (·.getLsbD 29) h
    simp only [BitVec.getLsbD_and, hbit] at this; norm_num at this; revert this; decide
  have h4 : w.extractLsb' 0 10 = x := by
    apply BitVec.eq_of_getLsbD_eq
    intro i hi; rw [BitVec.getLsbD_extractLsb', hbit]; simp [hi]
  have h5 : w.extractLsb' 16 10 = y := by
    apply BitVec.eq_of_getLsbD_eq
    intro i hi
    rw [BitVec.getLsbD_extractLsb', hbit, if_neg (by omega), if_neg (by omega), if_pos (by omega)]
    simp [hi]
  simp only [decodeWord, h1, h2, if_true, if_false, selAOf, selBOf, h4, h5]

/-- A CFG.SINGLE word (R71). -/
theorem decodeWord_single (x : BitVec 10) : decodeWord (0x1#4 ++ 0#18 ++ x) = .ok (.cfgSingle x.toInt) := by
  revert x; decide +kernel

/-! ## The masks of the opcode map, as facts about the word's number -/

/-- The CFG.SINGLE mask: bits 31 to 10. -/
theorem singleMask_iff (w : BitVec 32) : w &&& 0xFFFFFC00#32 = 0x10000000#32 ↔ w.toNat / 2 ^ 10 = 2 ^ 18 := by
  have h : w &&& 0xFFFFFC00#32 = (w >>> 10) <<< 10 := by
    apply BitVec.eq_of_getLsbD_eq
    intro i hi
    rw [BitVec.getLsbD_and, BitVec.getLsbD_shiftLeft, BitVec.getLsbD_ushiftRight]
    interval_cases i <;> simp
  rw [h]
  constructor
  · intro h; have := congrArg BitVec.toNat h
    simp [Nat.shiftRight_eq_div_pow, Nat.shiftLeft_eq] at this; omega
  · intro h; apply BitVec.eq_of_toNat_eq
    simp [Nat.shiftRight_eq_div_pow, Nat.shiftLeft_eq]; omega

/-- The RUN mask: bits 31 to 16. -/
theorem runMask_iff (w : BitVec 32) : w &&& 0xFFFF0000#32 = 0x30000000#32 ↔ w.toNat / 2 ^ 16 = 3 * 2 ^ 12 := by
  have h : w &&& 0xFFFF0000#32 = (w >>> 16) <<< 16 := by
    apply BitVec.eq_of_getLsbD_eq
    intro i hi
    rw [BitVec.getLsbD_and, BitVec.getLsbD_shiftLeft, BitVec.getLsbD_ushiftRight]
    interval_cases i <;> simp
  rw [h]
  constructor
  · intro h; have := congrArg BitVec.toNat h
    simp [Nat.shiftRight_eq_div_pow, Nat.shiftLeft_eq] at this; omega
  · intro h; apply BitVec.eq_of_toNat_eq
    simp [Nat.shiftRight_eq_div_pow, Nat.shiftLeft_eq]; omega

/-- The CFG.DUAL mask: bits 31 to 26 and 15 to 10. -/
theorem dualMask_iff (w : BitVec 32) :
    w &&& 0xFC00FC00#32 = 0x20000000#32 ↔ w.toNat / 2 ^ 26 = 8 ∧ w.toNat / 2 ^ 10 % 2 ^ 6 = 0 := by
  have h : w &&& 0xFC00FC00#32 = w.extractLsb' 26 6 ++ 0#10 ++ w.extractLsb' 10 6 ++ 0#10 := by
    apply BitVec.eq_of_getLsbD_eq
    intro i hi
    rw [BitVec.getLsbD_and, BitVec.getLsbD_append, BitVec.getLsbD_append, BitVec.getLsbD_append]
    interval_cases i <;> simp
  have e6 : (w.extractLsb' 26 6).toNat = w.toNat / 2 ^ 26 := by simp [Nat.shiftRight_eq_div_pow]; omega
  have e1 : (w.extractLsb' 10 6).toNat = w.toNat / 2 ^ 10 % 2 ^ 6 := by simp [Nat.shiftRight_eq_div_pow]
  rw [h, show 0x20000000#32 = 8#6 ++ 0#10 ++ 0#6 ++ 0#10 from rfl, ← e1, ← e6]
  constructor
  · intro h
    have a := congrArg (·.extractLsb' 26 6) h
    have b := congrArg (·.extractLsb' 10 6) h
    have a' : w.extractLsb' 26 6 = 8#6 := by
      apply BitVec.eq_of_getLsbD_eq
      intro i hi
      have := congrArg (·.getLsbD i) a
      simp only [BitVec.getLsbD_extractLsb', BitVec.getLsbD_append, hi, decide_true, Bool.true_and] at this
      interval_cases i <;> simpa using this
    have b' : w.extractLsb' 10 6 = 0#6 := by
      apply BitVec.eq_of_getLsbD_eq
      intro i hi
      have := congrArg (·.getLsbD i) b
      simp only [BitVec.getLsbD_extractLsb', BitVec.getLsbD_append, hi, decide_true, Bool.true_and] at this
      interval_cases i <;> simpa using this
    simp [a', b']
  · rintro ⟨a, b⟩
    rw [show w.extractLsb' 26 6 = 8#6 from BitVec.eq_of_toNat_eq a,
      show w.extractLsb' 10 6 = 0#6 from BitVec.eq_of_toNat_eq b]

/-! ## Bytes -/

/-- The four bytes of a word give it back (R59). -/
theorem wordOfBytes_wordBytes (w : Word) :
    wordOfBytes (w.extractLsb' 0 8) (w.extractLsb' 8 8) (w.extractLsb' 16 8) (w.extractLsb' 24 8) = w := by
  apply BitVec.eq_of_getLsbD_eq
  intro i hi
  simp only [wordOfBytes, BitVec.getLsbD_append, BitVec.getLsbD_extractLsb']
  interval_cases i <;> simp

end Sys2Proof.Laws
end

