-- ==== Sys2Proof/Laws/Exact.lean ====
section
/-! SUPPORT. What the operations of Machine/Exact.lean do to the real numbers behind the exact ones. -/

namespace Sys2Proof.Laws

open Sys2Proof.Machine Sys2Proof.Safety

theorem root_sq (n : Nat) :
    Real.sqrtTwoAddSeries 0 (n + 1) * Real.sqrtTwoAddSeries 0 (n + 1) = 2 + Real.sqrtTwoAddSeries 0 n := by
  rw [Real.sqrtTwoAddSeries]
  exact Real.mul_self_sqrt (by linarith [Real.sqrtTwoAddSeries_zero_nonneg n])

theorem root_pos (n : Nat) : 0 < Real.sqrtTwoAddSeries 0 (n + 1) := by
  rw [Real.sqrtTwoAddSeries]
  exact Real.sqrt_pos.mpr (by linarith [Real.sqrtTwoAddSeries_zero_nonneg n])

@[simp] theorem surdReal_int (n : Nat) (z : Int) : surdReal n (surdInt n z) = z := by
  induction n generalizing z with
  | zero => rfl
  | succ n ih => simp [surdInt, surdReal, ih]

@[simp] theorem surdReal_add (n : Nat) (x y : Surd n) :
    surdReal n (surdAdd n x y) = surdReal n x + surdReal n y := by
  induction n with
  | zero => exact Int.cast_add (R := ℝ) x y
  | succ n ih => simp only [surdAdd, surdReal, ih]; ring

@[simp] theorem surdReal_neg (n : Nat) (x : Surd n) : surdReal n (surdNeg n x) = -surdReal n x := by
  induction n with
  | zero => exact Int.cast_neg (R := ℝ) x
  | succ n ih => simp only [surdNeg, surdReal, ih]; ring

@[simp] theorem surdReal_sub (n : Nat) (x y : Surd n) :
    surdReal n (surdSub n x y) = surdReal n x - surdReal n y := by
  simp [surdSub, sub_eq_add_neg]

@[simp] theorem surdReal_scale (n : Nat) (z : Int) (x : Surd n) :
    surdReal n (surdScale n z x) = z * surdReal n x := by
  induction n with
  | zero => exact Int.cast_mul (α := ℝ) z x
  | succ n ih => simp only [surdScale, surdReal, ih]; ring

@[simp] theorem surdReal_timesRadicand (n : Nat) (x : Surd n) :
    surdReal n (surdTimesRadicand n x) = (2 + Real.sqrtTwoAddSeries 0 n) * surdReal n x := by
  induction n with
  | zero =>
    have h : surdReal 0 (surdTimesRadicand 0 x) = ((2 : Int) : ℝ) * surdReal 0 x :=
      Int.cast_mul (α := ℝ) 2 x
    simpa [Real.sqrtTwoAddSeries] using h
  | succ n ih =>
    rw [surdTimesRadicand, surdReal_add, surdReal_scale]
    simp only [surdReal, ih]
    linear_combination (-surdReal n x.root) * root_sq n

@[simp] theorem surdReal_mul (n : Nat) (x y : Surd n) :
    surdReal n (surdMul n x y) = surdReal n x * surdReal n y := by
  induction n with
  | zero => exact Int.cast_mul (α := ℝ) x y
  | succ n ih =>
    simp only [surdMul, surdReal, surdReal_add, surdReal_sub, surdReal_timesRadicand, ih]
    linear_combination (-surdReal n x.root * surdReal n y.root) * root_sq n

/-- `surdSign` is the sign of the real number. -/
theorem surdSign_cases (n : Nat) (x : Surd n) :
    (surdSign n x = 1 ∧ 0 < surdReal n x) ∨ (surdSign n x = 0 ∧ surdReal n x = 0) ∨
      (surdSign n x = -1 ∧ surdReal n x < 0) := by
  induction n with
  | zero =>
    rcases Int.lt_trichotomy x 0 with h | h | h
    · exact .inr (.inr ⟨Int.sign_eq_neg_one_of_neg h, Int.cast_lt_zero.mpr h⟩)
    · exact .inr (.inl ⟨Int.sign_eq_zero_iff_zero.mpr h, Int.cast_eq_zero.mpr h⟩)
    · exact .inl ⟨Int.sign_eq_one_of_pos h, Int.cast_pos.mpr h⟩
  | succ n ih =>
    have hc := root_pos n
    have hd := ih (surdSub n (surdMul n x.base x.base) (surdTimesRadicand n (surdMul n x.root x.root)))
    have hsq : surdReal n (surdSub n (surdMul n x.base x.base)
        (surdTimesRadicand n (surdMul n x.root x.root))) =
        surdReal n x.base ^ 2 - (surdReal n x.root * Real.sqrtTwoAddSeries 0 (n + 1)) ^ 2 := by
      simp only [surdReal_sub, surdReal_mul, surdReal_timesRadicand]
      linear_combination (surdReal n x.root ^ 2) * root_sq n
    rw [hsq] at hd
    simp only [surdSign, surdReal]
    generalize Real.sqrtTwoAddSeries 0 (n + 1) = c at *
    clear hsq
    rcases ih x.base with ⟨hb, hb'⟩ | ⟨hb, hb'⟩ | ⟨hb, hb'⟩ <;>
      rcases ih x.root with ⟨hr, hr'⟩ | ⟨hr, hr'⟩ | ⟨hr, hr'⟩
    · simp [hb, hr]; positivity
    · simp [hb, hr, hr', hb']
    · have hp := mul_neg_of_neg_of_pos hr' hc
      rcases hd with ⟨hd, hd'⟩ | ⟨hd, hd'⟩ | ⟨hd, hd'⟩ <;> simp [hb, hr, hd] <;> nlinarith
    · simp [hb, hr, hb']; positivity
    · simp [hb, hr, hb', hr']
    · simp [hb, hr, hb']; exact mul_neg_of_neg_of_pos hr' hc
    · have hp := mul_pos hr' hc
      rcases hd with ⟨hd, hd'⟩ | ⟨hd, hd'⟩ | ⟨hd, hd'⟩ <;> simp [hb, hr, hd] <;> nlinarith
    · simp [hb, hr, hb', hr']
    · have hp := mul_neg_of_neg_of_pos hr' hc
      simp [hb, hr]; linarith

/-- Exact comparison compares the reals. -/
theorem surdCompare_gt_iff (n : Nat) (x y : Surd n) :
    surdCompare n x y = .gt ↔ surdReal n y < surdReal n x := by
  have h := surdSign_cases n (surdSub n x y)
  rw [surdReal_sub] at h
  unfold surdCompare
  rcases h with ⟨h, h'⟩ | ⟨h, h'⟩ | ⟨h, h'⟩ <;> rw [h]
  · exact ⟨fun _ => by linarith, fun _ => rfl⟩
  · exact ⟨fun h => by simp at h, fun _ => by linarith⟩
  · exact ⟨fun h => absurd h (by decide), fun _ => by linarith⟩

theorem surdCompare_lt_iff (n : Nat) (x y : Surd n) :
    surdCompare n x y = .lt ↔ surdReal n x < surdReal n y := by
  have h := surdSign_cases n (surdSub n x y)
  rw [surdReal_sub] at h
  unfold surdCompare
  rcases h with ⟨h, h'⟩ | ⟨h, h'⟩ | ⟨h, h'⟩ <;> rw [h]
  · exact ⟨fun h => absurd h (by decide), fun _ => by linarith⟩
  · exact ⟨fun h => by simp at h, fun _ => by linarith⟩
  · exact ⟨fun _ => by linarith, fun _ => rfl⟩

theorem surdCompare_eq_iff (n : Nat) (x y : Surd n) :
    surdCompare n x y = .eq ↔ surdReal n x = surdReal n y := by
  have h := surdSign_cases n (surdSub n x y)
  rw [surdReal_sub] at h
  unfold surdCompare
  rcases h with ⟨h, h'⟩ | ⟨h, h'⟩ | ⟨h, h'⟩ <;> rw [h]
  · exact ⟨fun h => absurd h (by decide), fun _ => by linarith⟩
  · exact ⟨fun _ => by linarith, fun _ => by simp⟩
  · exact ⟨fun h => absurd h (by decide), fun _ => by linarith⟩

/-! ## The table of cosines -/

/-- The angle between neighbouring entries of `cosTable n`: 2 pi / 2^(n+2). -/
noncomputable def tableAngle (n : Nat) : ℝ := Real.pi / 2 ^ (n + 1)

theorem tableAngle_succ (n : Nat) : tableAngle n = 2 * tableAngle (n + 1) := by
  unfold tableAngle; rw [pow_succ 2 (n + 1)]; field_simp

theorem root_eq_cos (n : Nat) : Real.sqrtTwoAddSeries 0 n = 2 * Real.cos (tableAngle n) := by
  have := Real.cos_pi_over_two_pow n
  unfold tableAngle; linarith

/-- If the list holds 2 cos(j a) from index `first` on and `prev` is b(first - 1), the interleaved list holds the
doubled cosines of half the angle. -/
theorem interleaveCos_real (n : Nat) (ts : List (Surd n)) (prev : Surd n) (first : Nat)
    (hts : ∀ j (h : j < ts.length), surdReal n ts[j] = 2 * Real.cos ((first + j) * tableAngle n))
    (hprev : surdReal n prev * Real.sqrtTwoAddSeries 0 (n + 1) =
      2 * Real.cos ((2 * first - 1) * tableAngle (n + 1))) :
    ∀ k (h : k < (interleaveCos n prev ts).length),
      surdReal (n + 1) (interleaveCos n prev ts)[k] = 2 * Real.cos ((2 * first + k) * tableAngle (n + 1)) := by
  induction ts generalizing prev first with
  | nil => intro k h; simp [interleaveCos] at h
  | cons t ts ih =>
    have ht : surdReal n t = 2 * Real.cos (2 * first * tableAngle (n + 1)) := by
      have := hts 0 (by simp)
      simp only [List.getElem_cons_zero, Nat.cast_zero, add_zero, tableAngle_succ n] at this
      rw [this]; ring_nf
    have hb : surdReal n (surdSub n t prev) * Real.sqrtTwoAddSeries 0 (n + 1) =
        2 * Real.cos ((2 * first + 1) * tableAngle (n + 1)) := by
      rw [surdReal_sub, sub_mul, hprev, ht, root_eq_cos]
      have e1 : (2 * (first : ℝ) + 1) * tableAngle (n + 1) =
        2 * first * tableAngle (n + 1) + tableAngle (n + 1) := by ring
      have e2 : (2 * (first : ℝ) - 1) * tableAngle (n + 1) =
        2 * first * tableAngle (n + 1) - tableAngle (n + 1) := by ring
      rw [e1, e2, Real.cos_add, Real.cos_sub]; ring
    intro k h
    match k with
    | 0 => simp [interleaveCos, surdReal, ht]
    | 1 =>
      simp only [interleaveCos, List.getElem_cons_succ, List.getElem_cons_zero, surdReal, surdReal_int, hb]
      simp
    | k + 2 =>
      have := ih (surdSub n t prev) (first + 1)
        (fun j h => by
          have := hts (j + 1) (by simpa using h)
          simp only [List.getElem_cons_succ] at this
          rw [this]; push_cast; ring_nf)
        (by rw [hb]; push_cast; ring_nf) k
        (by simp only [interleaveCos, List.length_cons] at h; omega)
      simp only [interleaveCos, List.getElem_cons_succ]
      rw [this]; push_cast; ring_nf

/-- Entry k of the table is 2 cos(2 pi k / 2^(n+2)). -/
theorem cosTable_real (n k : Nat) (h : k < (cosTable n).length) :
    surdReal n (cosTable n)[k] = 2 * Real.cos (k * tableAngle n) := by
  induction n generalizing k with
  | zero =>
    have hk : k < 4 := h
    have ha : tableAngle 0 = Real.pi / 2 := by simp [tableAngle]
    rw [ha]
    interval_cases k
    · simp [cosTable, surdReal]
    · simp [cosTable, surdReal]
    · simp [cosTable, surdReal, mul_div_cancel₀]
    · have : ((3 : Nat) : ℝ) * (Real.pi / 2) = Real.pi / 2 + Real.pi := by push_cast; ring
      rw [this, Real.cos_add_pi]; simp [cosTable, surdReal]
  | succ n ih =>
    have := interleaveCos_real n (cosTable n) (surdInt n 1) 0
      (fun j h => by rw [ih j h]; push_cast; ring_nf)
      (by
        rw [surdReal_int, root_eq_cos, ← Real.cos_neg (tableAngle (n + 1))]
        push_cast; ring_nf)
      k h
    refine Eq.trans this ?_
    push_cast; ring_nf

end Sys2Proof.Laws
end

