-- ==== Sys2Proof/Laws/Float.lean ====
section
/-! SUPPORT. binary32: the order of the finite words, and what the rounding of Machine/Float.lean finds. -/

namespace Sys2Proof.Laws

open Sys2Proof.Machine Sys2Proof.Safety

/-! ## Magnitudes -/

theorem magnitudeOf_lt_succ (bits : Nat) : magnitudeOf bits < magnitudeOf (bits + 1) := by
  unfold magnitudeOf
  dsimp only
  have hf := Nat.mod_lt bits (show 0 < 2 ^ 23 by norm_num)
  by_cases hw : bits % 2 ^ 23 = 2 ^ 23 - 1
  · have h1 : (bits + 1) / 2 ^ 23 = bits / 2 ^ 23 + 1 := by omega
    have h2 : (bits + 1) % 2 ^ 23 = 0 := by omega
    rw [h1, h2, hw]
    rcases Nat.eq_zero_or_pos (bits / 2 ^ 23) with h0 | h0
    · rw [h0]; norm_num
    · rw [if_neg (by omega), if_neg (by omega)]
      obtain ⟨e, he⟩ : ∃ e, bits / 2 ^ 23 = e + 1 := ⟨_, (Nat.succ_pred_eq_of_pos h0).symm⟩
      rw [he]
      simp only [Nat.add_sub_cancel, pow_succ 2 e]
      have : 0 < 2 ^ e := by positivity
      omega
  · have h1 : (bits + 1) / 2 ^ 23 = bits / 2 ^ 23 := by omega
    have h2 : (bits + 1) % 2 ^ 23 = bits % 2 ^ 23 + 1 := by omega
    rw [h1, h2]
    split
    · omega
    · exact Nat.mul_lt_mul_of_pos_right (by omega) (by positivity)

theorem magnitudeOf_strictMono : StrictMono magnitudeOf := strictMono_nat_of_lt_succ magnitudeOf_lt_succ

@[simp] theorem magnitudeOf_zero : magnitudeOf 0 = 0 := by simp [magnitudeOf]

theorem magnitudeOf_largest : (magnitudeOf largestFiniteBits : ℝ) / 2 ^ 149 = largestFinite := by
  have : magnitudeOf largestFiniteBits = (2 ^ 24 - 1) * 2 ^ 253 := by
    norm_num [magnitudeOf, largestFiniteBits]
  rw [this, largestFinite]; push_cast; norm_num

/-! ## Words -/

/-- The low 31 bits of a word as a number. -/
def lowBits (w : Word) : Nat := (w.extractLsb' 0 31).toNat

theorem lowBits_lt (w : Word) : lowBits w < 2 ^ 31 := (w.extractLsb' 0 31).isLt

theorem isFinite_iff (w : Word) : isFinite w = true ↔ lowBits w ≤ largestFiniteBits := by
  unfold isFinite lowBits largestFiniteBits
  rw [bne_iff_ne, ne_eq, BitVec.toNat_eq]
  simp only [BitVec.extractLsb'_toNat, Nat.shiftRight_eq_div_pow]
  have := w.isLt
  norm_num
  omega

theorem scaledVal_nonneg_word (w : Word) (h : w.getLsbD 31 = false) :
    scaledVal w = (magnitudeOf (lowBits w) : Int) := by
  unfold scaledVal lowBits; rw [h]; rfl

theorem scaledVal_neg_word (w : Word) (h : w.getLsbD 31 = true) :
    scaledVal w = -(magnitudeOf (lowBits w) : Int) := by
  unfold scaledVal lowBits; rw [h]; rfl

theorem lowBits_ofNat (b : Nat) (h : b < 2 ^ 31) : lowBits (BitVec.ofNat 32 b) = b := by
  unfold lowBits
  simp only [BitVec.extractLsb'_toNat, BitVec.toNat_ofNat, Nat.shiftRight_zero]
  omega

theorem signBit_ofNat (b : Nat) (h : b < 2 ^ 31) : (BitVec.ofNat 32 b).getLsbD 31 = false := by
  rw [BitVec.getLsbD_ofNat, Nat.testBit_lt_two_pow h]; rfl

theorem evenBit_ofNat (b : Nat) (h : b % 2 = 0) : (BitVec.ofNat 32 b).getLsbD 0 = false := by
  rw [BitVec.getLsbD_ofNat, Nat.testBit_zero]; simp [h]

theorem wordReal_ofNat (b : Nat) (h : b < 2 ^ 31) :
    wordReal (BitVec.ofNat 32 b) = (magnitudeOf b : ℝ) / 2 ^ 149 := by
  unfold wordReal
  rw [scaledVal_nonneg_word _ (signBit_ofNat b h), lowBits_ofNat b h]; simp

/-- A finite word is plus or minus a magnitude. -/
theorem wordReal_cases (w : Word) (hw : isFinite w = true) :
    ∃ b ≤ largestFiniteBits, wordReal w = (magnitudeOf b : ℝ) / 2 ^ 149 ∨
      wordReal w = -((magnitudeOf b : ℝ) / 2 ^ 149) := by
  refine ⟨lowBits w, (isFinite_iff w).mp hw, ?_⟩
  unfold wordReal
  cases h : w.getLsbD 31
  · left; rw [scaledVal_nonneg_word w h]; simp
  · right; rw [scaledVal_neg_word w h]; push_cast; ring

theorem lowBits_negWord (w : Word) : lowBits (negWord w) = lowBits w := by
  unfold lowBits negWord
  congr 1
  ext i hi
  simp only [BitVec.getElem_extractLsb', BitVec.getLsbD_or]
  have : (0x80000000#32).getLsbD (0 + i) = false := by
    interval_cases i <;> decide
  rw [this, Bool.or_false]

theorem signBit_negWord (w : Word) : (negWord w).getLsbD 31 = true := by
  unfold negWord; rw [BitVec.getLsbD_or]; simp

theorem isFinite_negWord (w : Word) : isFinite (negWord w) = isFinite w := by
  have h := isFinite_iff w
  have h' := isFinite_iff (negWord w)
  rw [lowBits_negWord] at h'
  exact Bool.eq_iff_iff.mpr (h'.trans h.symm)

theorem evenBit_negWord (w : Word) : (negWord w).getLsbD 0 = w.getLsbD 0 := by
  unfold negWord; rw [BitVec.getLsbD_or]; simp

theorem wordReal_negWord (w : Word) (h : w.getLsbD 31 = false) : wordReal (negWord w) = -wordReal w := by
  unfold wordReal
  rw [scaledVal_neg_word _ (signBit_negWord w), lowBits_negWord, scaledVal_nonneg_word w h]
  push_cast; ring

/-! ## The search -/

/-- The search ends at a word that is reached while the next is not. -/
theorem searchBits_spec (cmp : Comparison) (count bits : Nat) (hlow : reaches cmp bits = true)
    (hhigh : reaches cmp (bits + 2 ^ count) = false) :
    reaches cmp (searchBits cmp count bits) = true ∧
      reaches cmp (searchBits cmp count bits + 1) = false := by
  induction count generalizing bits with
  | zero => exact ⟨hlow, hhigh⟩
  | succ count ih =>
    unfold searchBits
    split
    · next h => exact ih _ h (by rw [← hhigh, pow_succ]; congr 1; omega)
    · next h => exact ih _ hlow (by simpa using h)

/-- A comparison's three answers, as statements about the real. -/
theorem compares_eq_iff {cmp : Comparison} {r : ℝ} (h : Compares cmp r) (y : Nat) :
    cmp y = .eq ↔ r = (y : ℝ) / 2 ^ 150 := by
  obtain ⟨hlt, hgt⟩ := h y
  cases hc : cmp y
  · have := hlt.mp hc
    exact ⟨fun h => (by cases h), fun h => absurd h this.ne⟩
  · refine ⟨fun _ => ?_, fun _ => rfl⟩
    have h1 : ¬ r < (y : ℝ) / 2 ^ 150 := fun h => by have := hlt.mpr h; rw [hc] at this; cases this
    have h2 : ¬ (y : ℝ) / 2 ^ 150 < r := fun h => by have := hgt.mpr h; rw [hc] at this; cases this
    linarith
  · have := hgt.mp hc
    exact ⟨fun h => (by cases h), fun h => absurd h this.ne'⟩

/-- A word is reached when its value is at most the real. -/
theorem reaches_iff {cmp : Comparison} {r : ℝ} (h : Compares cmp r) (b : Nat) :
    reaches cmp b = true ↔ b ≤ largestFiniteBits ∧ (magnitudeOf b : ℝ) / 2 ^ 149 ≤ r := by
  unfold reaches
  rw [Bool.and_eq_true, bne_iff_ne, ne_eq, (h _).1, decide_eq_true_eq]
  have : (((2 * magnitudeOf b : Nat) : ℝ) / 2 ^ 150) = (magnitudeOf b : ℝ) / 2 ^ 149 := by
    push_cast; ring
  rw [this, not_lt]

/-- What `roundBits` answers for a real that is at most the largest finite word: the neighbours below and above it,
and the nearer of the two, the even one from the midpoint. -/
theorem roundBits_cases {cmp : Comparison} {r : ℝ} (h : Compares cmp r) (h0 : 0 ≤ r)
    (hmax : r ≤ largestFinite) :
    ∃ below b, roundBits cmp = some b ∧ below ≤ largestFiniteBits ∧
      (magnitudeOf below : ℝ) / 2 ^ 149 ≤ r ∧
      (below < largestFiniteBits → r < (magnitudeOf (below + 1) : ℝ) / 2 ^ 149) ∧
      (below = largestFiniteBits → r = (magnitudeOf below : ℝ) / 2 ^ 149) ∧
      ((b = below ∧ r < ((magnitudeOf below + magnitudeOf (below + 1) : Nat) : ℝ) / 2 ^ 150) ∨
       (b = below + 1 ∧ ((magnitudeOf below + magnitudeOf (below + 1) : Nat) : ℝ) / 2 ^ 150 < r) ∨
       (b % 2 = 0 ∧ (b = below ∨ b = below + 1) ∧
          r = ((magnitudeOf below + magnitudeOf (below + 1) : Nat) : ℝ) / 2 ^ 150)) := by
  have hover : cmp (2 * magnitudeOf largestFiniteBits) ≠ .gt := by
    rw [ne_eq, (h _).2, not_lt]
    have := magnitudeOf_largest
    push_cast; rw [pow_succ]; linarith
  obtain ⟨hr, hr'⟩ := searchBits_spec cmp 31 0 ((reaches_iff h 0).mpr ⟨by decide, by simpa using h0⟩)
    (by simp [reaches, largestFiniteBits])
  have hb := (reaches_iff h _).mp hr
  have hb' := mt (reaches_iff h _).mpr (by rw [hr']; exact Bool.false_ne_true)
  unfold roundBits
  rw [if_neg hover]
  dsimp only
  generalize searchBits cmp 31 0 = below at *
  have hmono : (magnitudeOf below : ℝ) ≤ magnitudeOf largestFiniteBits := by
    exact_mod_cast magnitudeOf_strictMono.monotone hb.1
  have hup : below < largestFiniteBits → r < (magnitudeOf (below + 1) : ℝ) / 2 ^ 149 := fun hlt => by
    by_contra hge
    exact hb' ⟨hlt, not_lt.mp hge⟩
  have htop : below = largestFiniteBits → r = (magnitudeOf below : ℝ) / 2 ^ 149 := fun he => by
    have := magnitudeOf_largest
    rw [he] at hb ⊢; linarith [hb.2]
  cases hc : cmp (magnitudeOf below + magnitudeOf (below + 1))
  · exact ⟨below, below, rfl, hb.1, hb.2, hup, htop, .inl ⟨rfl, (h _).1.mp hc⟩⟩
  · refine ⟨below, _, rfl, hb.1, hb.2, hup, htop, .inr (.inr ⟨?_, ?_, (compares_eq_iff h _).mp hc⟩)⟩
    · split <;> omega
    · split <;> simp
  · exact ⟨below, below + 1, rfl, hb.1, hb.2, hup, htop, .inr (.inl ⟨rfl, (h _).2.mp hc⟩)⟩

end Sys2Proof.Laws
end

