-- ==== Sys2Proof/Laws/PerInstr.lean ====
section
/-! SUPPORT. The statement made of every command, proved per constructor: its word selects its own row of the opcode
map (spec/30_encoding.md R76). -/

namespace Sys2Proof.Laws.Opcode

/-- The word of a command selects the command's row. -/
def Statement (i : Instr) : Prop := encode i &&& opcodeMask i = opcodeMatch i

theorem cfgSingle (sel : Int) : Statement (.cfgSingle sel) := by
  have h : ∀ x : BitVec 10, (0x1#4 ++ 0#18 ++ x) &&& 0xFFFFFC00#32 = 0x10000000#32 := by decide +kernel
  exact h (selectorField sel)

theorem cfgDual (sel0 sel1 : Int) : Statement (.cfgDual sel0 sel1) := by
  simp only [Statement, encode, opcodeMask, opcodeMatch]
  generalize selectorField sel0 = a
  generalize selectorField sel1 = b
  have e : (0x2#4 ++ 0#2 : BitVec 6) = 0x8#6 := rfl
  apply BitVec.eq_of_getLsbD_eq
  intro i hi
  rw [e, BitVec.getLsbD_and, BitVec.getLsbD_append, BitVec.getLsbD_append, BitVec.getLsbD_append]
  interval_cases i <;> simp

theorem run (n : Nat) : Statement (.run n) := by
  simp only [Statement, encode, opcodeMask, opcodeMatch]
  generalize BitVec.ofNat 16 n = a
  have e : (0x3#4 ++ 0#12 : BitVec 16) = 0x3000#16 := rfl
  apply BitVec.eq_of_getLsbD_eq
  intro i hi
  rw [e, BitVec.getLsbD_and, BitVec.getLsbD_append]
  interval_cases i <;> simp

theorem sreset : Statement .sreset := by unfold Statement; decide

end Sys2Proof.Laws.Opcode
end

