-- ==== Sys2Proof/Laws/Transform.lean ====
section
/-! SUPPORT. The transform of Machine/Exact.lean is the discrete Fourier transform of the complex numbers behind it. -/

namespace Sys2Proof.Laws

open Sys2Proof.Machine Sys2Proof.Safety

@[simp] theorem surdComplex_zero (n : Nat) : surdComplex n (cxZero n) = 0 := by
  apply Complex.ext <;> simp [surdComplex, cxZero]

@[simp] theorem surdComplex_add (n : Nat) (x y : Cx (Surd n)) :
    surdComplex n (cxAdd n x y) = surdComplex n x + surdComplex n y := by
  apply Complex.ext <;> simp [surdComplex, cxAdd]

@[simp] theorem surdComplex_scale (n : Nat) (p : Cx Int) (z : Cx (Surd n)) :
    surdComplex n (cxScale n p z) = intComplex p * surdComplex n z := by
  apply Complex.ext <;> simp [surdComplex, cxScale, intComplex]

/-- |z|^2 of an exact complex number. -/
@[simp] theorem surdReal_normSq (n : Nat) (z : Cx (Surd n)) :
    surdReal n (cxNormSq n z) = Complex.normSq (surdComplex n z) := by
  simp [cxNormSq, surdComplex, Complex.normSq_apply]

@[simp] theorem intComplex_mul (x y : Cx Int) : intComplex (cxMul x y) = intComplex x * intComplex y := by
  apply Complex.ext <;> simp [intComplex, cxMul]

@[simp] theorem intComplex_conj (x : Cx Int) :
    intComplex (cxConj x) = (starRingEnd ℂ) (intComplex x) := by
  apply Complex.ext <;> simp [intComplex, cxConj]

/-- The angle of one whole turn. -/
theorem tableAngle_turn (n : Nat) : (2 ^ (n + 2) : ℝ) * tableAngle n = 2 * Real.pi := by
  unfold tableAngle
  rw [pow_succ 2 (n + 1)]; field_simp

/-- Entry k of the unit roots is 2 exp(-i k a), a the table's angle. -/
theorem unitRoots_complex (n k : Nat) (hk : k < 2 ^ (n + 2)) :
    surdComplex n ((unitRoots n).getD k (cxZero n)) =
      2 * Complex.exp (-(k * tableAngle n : ℝ) * Complex.I) := by
  have hlen := cosTable_size n
  have hk' : (k + 3 * 2 ^ n) % 2 ^ (n + 2) < 2 ^ (n + 2) := Nat.mod_lt _ (by positivity)
  have hcos : Real.cos ((((k + 3 * 2 ^ n) % 2 ^ (n + 2) : Nat) : ℝ) * tableAngle n) =
      Real.sin (k * tableAngle n) := by
    have hdiv := Nat.div_add_mod (k + 3 * 2 ^ n) (2 ^ (n + 2))
    generalize (k + 3 * 2 ^ n) % 2 ^ (n + 2) = r at *
    generalize (k + 3 * 2 ^ n) / 2 ^ (n + 2) = q at *
    have hr : (r : ℝ) = k + 3 * 2 ^ n - 2 ^ (n + 2) * q := by
      have : ((2 ^ (n + 2) * q + r : Nat) : ℝ) = ((k + 3 * 2 ^ n : Nat) : ℝ) := by rw [hdiv]
      push_cast at this; linarith
    have hturn := tableAngle_turn n
    have hq : (2 ^ n : ℝ) * tableAngle n = Real.pi / 2 := by
      rw [pow_add] at hturn; nlinarith
    have : (r : ℝ) * tableAngle n = (k * tableAngle n - Real.pi / 2) + 2 * Real.pi - q * (2 * Real.pi) := by
      rw [hr, ← hturn]; linear_combination -hq
    rw [this, Real.cos_sub_nat_mul_two_pi, Real.cos_add_two_pi, Real.cos_sub_pi_div_two]
  have hget : (unitRoots n).getD k (cxZero n) =
      ⟨(cosTable n)[k]'(by omega), surdNeg n ((cosTable n)[(k + 3 * 2 ^ n) % 2 ^ (n + 2)]'(by omega))⟩ := by
    rw [unitRoots_get n k hk]; simp [hlen, hk, hk']
  rw [hget]
  have hexp : Complex.exp (-(k * tableAngle n : ℝ) * Complex.I) =
      ⟨Real.cos (k * tableAngle n), -Real.sin (k * tableAngle n)⟩ := by
    apply Complex.ext
    · rw [← Complex.ofReal_neg, Complex.exp_ofReal_mul_I_re, Real.cos_neg]
    · rw [← Complex.ofReal_neg, Complex.exp_ofReal_mul_I_im, Real.sin_neg]
  rw [hexp]
  apply Complex.ext
  · simp [surdComplex, cosTable_real]
  · simp [surdComplex, cosTable_real, hcos]

/-- A unit root of an index beyond the table is that of the index's remainder. -/
theorem exp_mod (n e : Nat) :
    Complex.exp (-((e % 2 ^ (n + 2) : Nat) * tableAngle n : ℝ) * Complex.I) =
      Complex.exp (-(e * tableAngle n : ℝ) * Complex.I) := by
  have hdiv := Nat.div_add_mod e (2 ^ (n + 2))
  generalize e % 2 ^ (n + 2) = r at *
  generalize e / 2 ^ (n + 2) = q at *
  have hturn := tableAngle_turn n
  have h : -((r : ℝ) * tableAngle n : ℝ) * Complex.I =
      -((e : ℝ) * tableAngle n : ℝ) * Complex.I + q * (2 * Real.pi * Complex.I) := by
    rw [← hdiv]
    have : ((2 * Real.pi : ℝ) : ℂ) = ((2 ^ (n + 2) * tableAngle n : ℝ) : ℂ) := by rw [hturn]
    push_cast at this ⊢
    rw [this]; ring
  rw [h, Complex.exp_periodic.nat_mul q]

theorem rootSum_complex (n m : Nat) (p : Nat → Cx Int) (count : Nat) :
    surdComplex n (rootSum n (unitRoots n) p m count) =
      2 * ∑ j ∈ Finset.range count,
        intComplex (p j) * Complex.exp (-((j * m : Nat) * tableAngle n : ℝ) * Complex.I) := by
  induction count with
  | zero => simp [rootSum]
  | succ count ih =>
    rw [rootSum, surdComplex_add, surdComplex_scale, ih, Finset.sum_range_succ,
      unitRoots_complex n _ (Nat.mod_lt _ (by positivity)), exp_mod]
    ring

/-- Bin m of the transform is twice the discrete Fourier sum. -/
theorem transform_complex (n : Nat) (p : Nat → Cx Int) (m : Nat) (hm : m < 2 ^ (n + 2)) :
    surdComplex n (transform n p)[m] =
      2 * ∑ j ∈ Finset.range (2 ^ (n + 2)),
        intComplex (p j) * Complex.exp (-((j * m : Nat) * tableAngle n : ℝ) * Complex.I) := by
  simp only [transform, Vector.getElem_ofFn]
  exact rootSum_complex n m p _

/-! ## Sums of roots of unity -/

/-- The 512 powers of a root of unity other than 1 sum to 0. -/
theorem root_sum_zero (d : ℤ) (hd : ¬(512 : ℤ) ∣ d) :
    ∑ m : Fin 512, Complex.exp (2 * Real.pi * Complex.I * d * (m : ℕ) / 512) = 0 := by
  have hp : IsPrimitiveRoot (Complex.exp (2 * Real.pi * Complex.I / 512)) 512 := by
    simpa using Complex.isPrimitiveRoot_exp 512 (by norm_num)
  have e : ∀ m : Fin 512, Complex.exp (2 * Real.pi * Complex.I * d * (m : ℕ) / 512) =
      (Complex.exp (2 * Real.pi * Complex.I / 512) ^ d) ^ (m : ℕ) := fun m => by
    rw [← Complex.exp_int_mul, ← Complex.exp_nat_mul]; congr 1; ring
  rw [Finset.sum_congr rfl fun m _ => e m]
  generalize Complex.exp (2 * Real.pi * Complex.I / 512) = z at hp
  rw [Fin.sum_univ_eq_sum_range (fun m => (z ^ d) ^ m) 512]
  have hne : z ^ d ≠ 1 := by rw [ne_eq, hp.zpow_eq_one_iff_dvd]; exact_mod_cast hd
  have h1 : (z ^ d) ^ 512 = 1 := by
    rw [← zpow_natCast, ← zpow_mul, mul_comm d, zpow_mul, zpow_natCast, hp.pow_eq_one, one_zpow]
  rw [geom_sum_eq hne 512, h1]; simp

/-- Parseval's identity for DFT512. -/
theorem parseval (p : Fin 512 → ℂ) :
    ∑ m, Complex.normSq (realDft p m) = 512 * ∑ j, Complex.normSq (p j) := by
  have hc : ((∑ m, Complex.normSq (realDft p m) : ℝ) : ℂ) = ((512 * ∑ j, Complex.normSq (p j) : ℝ) : ℂ) := by
    push_cast
    have h1 : ∀ m, ((Complex.normSq (realDft p m) : ℝ) : ℂ) = ∑ j, ∑ k, p j * (starRingEnd ℂ) (p k) *
        Complex.exp (2 * Real.pi * Complex.I * ((k : ℤ) - (j : ℤ) : ℤ) * (m : ℕ) / 512) := by
      intro m
      rw [← Complex.mul_conj]
      unfold realDft
      rw [map_sum, Finset.sum_mul_sum]
      refine Finset.sum_congr rfl fun j _ => Finset.sum_congr rfl fun k _ => ?_
      rw [map_mul, ← Complex.exp_conj, mul_mul_mul_comm, ← Complex.exp_add]
      congr 2
      simp only [map_div₀, map_mul, map_neg, Complex.conj_I, Complex.conj_ofReal, map_ofNat, map_natCast]
      push_cast
      ring
    simp only [h1]
    rw [Finset.sum_comm, Finset.mul_sum]
    refine Finset.sum_congr rfl fun j _ => ?_
    rw [Finset.sum_comm, Finset.sum_eq_single j]
    · simp only [sub_self, Int.cast_zero, mul_zero, zero_mul, zero_div, Complex.exp_zero, mul_one,
        Finset.sum_const, Finset.card_univ, Fintype.card_fin, nsmul_eq_mul]
      rw [Complex.mul_conj]; push_cast; ring
    · intro k _ hk
      rw [← Finset.mul_sum, root_sum_zero, mul_zero]
      rintro ⟨c, hc⟩
      have := j.isLt
      have := k.isLt
      exact hk (Fin.ext (by omega))
    · intro h; exact absurd (Finset.mem_univ _) h
  exact_mod_cast hc

end Sys2Proof.Laws
end

