-- ==== Sys2Proof/Laws/Window.lean ====
section
/-! SUPPORT. The stages of the window step, read as real and complex numbers. -/

namespace Sys2Proof.Laws

open Sys2Proof.Machine Sys2Proof.Safety

/-- The exact value of a sample is its complex value in units of 2^-149. -/
theorem sampleVal_complex (x : Sample) :
    intComplex (sampleVal x) = ((2 ^ 149 : ℝ) : ℂ) * sampleComplex x := by
  apply Complex.ext
  · rw [Complex.re_ofReal_mul]
    simp only [intComplex, sampleVal, sampleComplex, wordReal]
    field_simp
  · rw [Complex.im_ofReal_mul]
    simp only [intComplex, sampleVal, sampleComplex, wordReal]
    field_simp

/-- Level 7 turns by 2 pi / 512. -/
theorem tableAngle_seven : tableAngle 7 = 2 * Real.pi / 512 := by
  unfold tableAngle; norm_num; ring

set_option maxRecDepth 8000 in
/-- The transform of 512 points, doubled, is twice DFT512. -/
theorem dft512_complex (p : Vector (Cx Int) 512) (m : Fin 512) :
    surdComplex 7 (dft512 p)[m] = 2 * realDft (fun j => intComplex p[j]) m := by
  have h := transform_complex 7 (fun j => p.toArray.getD j ⟨0, 0⟩) m m.isLt
  refine Eq.trans h ?_
  unfold realDft
  congr 1
  rw [show 2 ^ (7 + 2) = 512 from rfl, ← Fin.sum_univ_eq_sum_range
    (fun j => intComplex (p.toArray.getD j ⟨0, 0⟩) *
      Complex.exp (-((j * (m : Nat) : Nat) * tableAngle 7 : ℝ) * Complex.I)) 512]
  refine Finset.sum_congr rfl fun j _ => ?_
  congr 2
  · simp [Array.getD]
  · rw [tableAngle_seven]; push_cast; ring

/-- The products a window step forms are those of the real correlation, in units of 2^-149. -/
theorem product_complex (t : Template) (w : Window) (j : Fin 512) :
    intComplex (product t w)[j] =
      ((2 ^ 149 : ℝ) : ℂ) * (intComplex t[j] * sampleComplex w[j]) := by
  simp only [product, Fin.getElem_fin, Vector.getElem_ofFn, intComplex_mul, sampleVal_complex]
  ring

/-- A transform buffer's output after a window step is the real bin in units of 2^-150. -/
theorem transformStep_complex (t : Template) (w : Window) (m : Fin 512) :
    surdComplex 7 (transformStep t w).output[m] = ((2 ^ 150 : ℝ) : ℂ) * realBins t w m := by
  simp only [transformStep, dft512_complex, realBins, realDft, product_complex]
  rw [Finset.mul_sum, Finset.mul_sum]
  refine Finset.sum_congr rfl fun j _ => ?_
  rw [pow_succ (2 : ℝ) 149]; push_cast; ring

theorem magnitudes_length (f : Vector (Cx Exact) 512) : (magnitudes f).length = 512 := by
  simp [magnitudes]

theorem magnitudes_get (f : Vector (Cx Exact) 512) (m : Fin 512) :
    (magnitudes f)[m.val]'(by rw [magnitudes_length]; exact m.isLt) = cxNormSq 7 f[m] := by
  simp [magnitudes]

/-- A squared magnitude is the real one in units of 2^-300. -/
theorem magnitudes_real (t : Template) (w : Window) (m : Fin 512) :
    surdReal 7 ((magnitudes (transformStep t w).output)[m.val]'(by rw [magnitudes_length]; exact m.isLt)) =
      2 ^ 300 * realMags t w m := by
  rw [magnitudes_get]
  refine (surdReal_normSq 7 _).trans ?_
  rw [transformStep_complex, Complex.normSq_mul, Complex.normSq_ofReal, realMags, ← pow_add]

/-- PEAK answers a greatest entry, at the least index that has it. -/
theorem peakScan_spec (best : Exact) (idx j : Nat) (rest seen : List Exact) (hj : j = seen.length)
    (hidx : ∃ h : idx < seen.length, seen[idx] = best)
    (hmax : ∀ k (h : k < seen.length), surdReal 7 seen[k] ≤ surdReal 7 best)
    (hfirst : ∀ k (h : k < seen.length), k < idx → surdReal 7 seen[k] < surdReal 7 best) :
    let r := peakScan best idx j rest
    (∃ h : r.2 < (seen ++ rest).length, (seen ++ rest)[r.2] = r.1) ∧
      (∀ k (h : k < (seen ++ rest).length), surdReal 7 (seen ++ rest)[k] ≤ surdReal 7 r.1) ∧
      (∀ k (h : k < (seen ++ rest).length), k < r.2 → surdReal 7 (seen ++ rest)[k] < surdReal 7 r.1) := by
  induction rest generalizing best idx j seen with
  | nil => simpa [peakScan] using ⟨hidx, hmax, hfirst⟩
  | cons x rest ih =>
    obtain ⟨hlt, hget⟩ := hidx
    have happ : seen ++ x :: rest = (seen ++ [x]) ++ rest := by simp
    have hsplit : ∀ k (h : k < (seen ++ [x]).length),
        (∃ h' : k < seen.length, (seen ++ [x])[k] = seen[k]) ∨ (k = seen.length ∧ (seen ++ [x])[k] = x) := by
      intro k h
      rcases Nat.lt_or_ge k seen.length with hk | hk
      · exact .inl ⟨hk, List.getElem_append_left hk⟩
      · have : k = seen.length := by simp at h; omega
        subst this; exact .inr ⟨rfl, by simp⟩
    simp only [peakScan]
    split
    · next hgt =>
      rw [surdCompare_gt_iff] at hgt
      simp only [happ]
      refine ih x j (j + 1) (seen ++ [x]) (by simp [hj]) ⟨by simp [hj], by simp [hj]⟩ ?_ ?_
      · intro k h
        rcases hsplit k h with ⟨h', e⟩ | ⟨_, e⟩ <;> rw [e]
        exact (hmax k h').trans hgt.le
      · intro k h hk
        rcases hsplit k h with ⟨h', e⟩ | ⟨he, _⟩
        · rw [e]; exact (hmax k h').trans_lt hgt
        · omega
    · next hle =>
      rw [surdCompare_gt_iff, not_lt] at hle
      simp only [happ]
      refine ih best idx (j + 1) (seen ++ [x]) (by simp [hj])
        ⟨by simp; omega, by rw [List.getElem_append_left hlt]; exact hget⟩ ?_ ?_
      · intro k h
        rcases hsplit k h with ⟨h', e⟩ | ⟨_, e⟩ <;> rw [e]
        · exact hmax k h'
        · exact hle
      · intro k h hk
        rcases hsplit k h with ⟨h', e⟩ | ⟨he, _⟩
        · rw [e]; exact hfirst k h' hk
        · omega

theorem peak_spec (mag : List Exact) (hne : mag ≠ []) :
    (∃ h : (peak mag).2 < mag.length, mag[(peak mag).2] = (peak mag).1) ∧
      (∀ k (h : k < mag.length), surdReal 7 mag[k] ≤ surdReal 7 (peak mag).1) ∧
      (∀ k (h : k < mag.length), k < (peak mag).2 → surdReal 7 mag[k] < surdReal 7 (peak mag).1) := by
  cases mag with
  | nil => exact absurd rfl hne
  | cons x rest =>
    exact peakScan_spec x 0 1 rest [x] rfl ⟨by simp, rfl⟩ (fun k h => by simp at h; subst h; simp)
      (fun k h hk => absurd hk (Nat.not_lt_zero k))

/-- SUM's exact number is the sum of the reals. -/
theorem energy_real (mag : List Exact) : surdReal 7 (energy mag) = (mag.map (surdReal 7)).sum := by
  have h : ∀ (l : List Exact) (a : Exact),
      surdReal 7 (l.foldl (surdAdd 7) a) = surdReal 7 a + (l.map (surdReal 7)).sum := by
    intro l
    induction l with
    | nil => intro a; simp
    | cons x l ih =>
      intro a
      rw [List.foldl_cons, ih, List.map_cons, List.sum_cons]
      rw [show surdReal 7 (surdAdd 7 a x) = surdReal 7 a + surdReal 7 x from surdReal_add 7 a x]
      ring
  rw [energy, h]
  rw [show surdReal 7 (surdInt 7 0) = ((0 : Int) : ℝ) from surdReal_int 7 0]
  simp

/-- The comparison of a square root is exact. -/
theorem compareSqrt_compares (x : Exact) (r : ℝ) (hr : 0 ≤ r) (hx : surdReal 7 x = 2 ^ 300 * r) :
    Compares (compareSqrt x) (Real.sqrt r) := by
  intro y
  have hy : surdReal 7 (surdInt 7 ((y : Int) ^ 2)) = (y : ℝ) ^ 2 := by
    rw [show surdReal 7 (surdInt 7 ((y : Int) ^ 2)) = (((y : Int) ^ 2 : Int) : ℝ) from surdReal_int 7 _]
    push_cast; rfl
  have hpos : (0 : ℝ) ≤ (y : ℝ) / 2 ^ 150 := by positivity
  have e : ((y : ℝ) / 2 ^ 150) ^ 2 * 2 ^ 300 = (y : ℝ) ^ 2 := by
    rw [div_pow, ← pow_mul]; norm_num
  constructor
  · unfold compareSqrt
    rw [surdCompare_lt_iff, hx, hy, Real.sqrt_lt hr hpos, ← e, mul_comm]
    exact mul_lt_mul_iff_left₀ (by positivity)
  · unfold compareSqrt
    rw [surdCompare_gt_iff, hx, hy, Real.lt_sqrt hpos, ← e, mul_comm (2 ^ 300)]
    exact mul_lt_mul_iff_left₀ (by positivity)

/-- The comparison of an energy is exact. -/
theorem compareEnergy_compares (x : Exact) (r : ℝ) (hx : surdReal 7 x = 2 ^ 300 * r) :
    Compares (compareEnergy x) r := by
  intro y
  have hy : surdReal 7 (surdInt 7 ((y : Int) * 2 ^ 150)) = (y : ℝ) / 2 ^ 150 * 2 ^ (150 + 150) := by
    rw [show surdReal 7 (surdInt 7 ((y : Int) * 2 ^ 150)) = (((y : Int) * 2 ^ 150 : Int) : ℝ) from
      surdReal_int 7 _, pow_add (2 : ℝ) 150 150]
    push_cast; field_simp; norm_num
  constructor
  · unfold compareEnergy
    rw [surdCompare_lt_iff, hx, hy, mul_comm]
    exact mul_lt_mul_iff_left₀ (by positivity)
  · unfold compareEnergy
    rw [surdCompare_gt_iff, hx, hy, mul_comm (2 ^ 300)]
    exact mul_lt_mul_iff_left₀ (by positivity)

/-! ## The two outcomes of a finite window in DUAL mode -/

/-- A DUAL window keeps its transforms, and its word and bins are the computed ones or, beyond the finite range, those of
the draw. -/
theorem dualWindow_cases (free : WindowResult) (b0 b1 : FftBuf) :
    let p0 := peak (magnitudes b0.output)
    let p1 := peak (magnitudes b1.output)
    let r := dualWindow free b0 b1
    r.fft0 = b0 ∧ r.fft1 = b1 ∧
      ((∃ y, dualDecision p0.1 p1.1 = some y ∧ r.out = y ∧ r.idx0 = BitVec.ofNat 9 p0.2 ∧
          r.idx1 = BitVec.ofNat 9 p1.2) ∨
        (dualDecision p0.1 p1.1 = none ∧ r.out = free.out ∧ r.idx0 = free.idx0 ∧ r.idx1 = free.idx1)) := by
  dsimp only
  unfold dualWindow
  dsimp only
  split
  · next y h => exact ⟨rfl, rfl, .inl ⟨y, h, rfl, rfl, rfl⟩⟩
  · next h => exact ⟨rfl, rfl, .inr ⟨h, rfl, rfl, rfl⟩⟩

/-- The window step at EXACT numerics on a finite window, mode by mode. -/
theorem exactWindow_dual (s : State) (w : Window) (hmode : s.mode = .dual) :
    exactWindow s w =
      dualWindow (Config.freeWindow s.draws) (transformStep s.t0 w) (transformStep s.t1 w) := by
  unfold exactWindow; rw [hmode]

theorem exactWindow_single (s : State) (w : Window) (hmode : s.mode = .single) :
    exactWindow s w =
      { out := (singleDecision (energy (magnitudes (transformStep s.t0 w).output))).getD
          (Config.freeWindow s.draws).out
        idx0 := s.idx0, idx1 := s.idx1, fft0 := transformStep s.t0 w, fft1 := s.fft1 } := by
  unfold exactWindow; rw [hmode]

/-! ## The peak and the sum of a window's magnitudes -/

/-- The peak's value is the supremum. -/
theorem isPeak_sup {mag : Fin 512 → ℝ} {i : Fin 512} (h : IsPeak mag i) : (⨆ m, mag m) = mag i := by
  apply le_antisymm
  · exact ciSup_le h.1
  · exact le_ciSup (Set.finite_range mag).bddAbove i

/-- PEAK of magnitudes that are c times the reals R. -/
theorem peak_scaled (mag : List Exact) (R : Fin 512 → ℝ) (c : ℝ) (hc : 0 < c) (hlen : mag.length = 512)
    (hR : ∀ m : Fin 512, surdReal 7 (mag[m.val]'(by rw [hlen]; exact m.isLt)) = c * R m) :
    ∃ i : Fin 512, (peak mag).2 = i ∧ IsPeak R i ∧ surdReal 7 (peak mag).1 = c * R i := by
  obtain ⟨⟨h, he⟩, h1, h2⟩ := peak_spec mag (by intro h; rw [h] at hlen; cases hlen)
  have h' : (peak mag).2 < 512 := hlen ▸ h
  have key : surdReal 7 (peak mag).1 = c * R ⟨_, h'⟩ := (congrArg (surdReal 7) he.symm).trans (hR ⟨_, h'⟩)
  refine ⟨⟨_, h'⟩, rfl, ⟨fun m => ?_, fun m hm => ?_⟩, key⟩
  · have := h1 m.val (by rw [hlen]; exact m.isLt)
    rw [key] at this
    exact le_of_mul_le_mul_left ((hR m).symm.le.trans this) hc
  · have := h2 m.val (by rw [hlen]; exact m.isLt) hm
    rw [key] at this
    exact lt_of_mul_lt_mul_left ((hR m).symm.le.trans_lt this) hc.le

/-- SUM of magnitudes that are c times the reals R. -/
theorem energy_scaled (mag : List Exact) (R : Fin 512 → ℝ) (c : ℝ) (hlen : mag.length = 512)
    (hR : ∀ m : Fin 512, surdReal 7 (mag[m.val]'(by rw [hlen]; exact m.isLt)) = c * R m) :
    surdReal 7 (energy mag) = c * ∑ m, R m := by
  have : mag.map (surdReal 7) = List.ofFn fun m : Fin 512 => c * R m := by
    refine List.ext_getElem (by rw [List.length_map, List.length_ofFn, hlen]) fun n h1 h2 => ?_
    rw [List.getElem_map, List.getElem_ofFn]
    exact hR ⟨n, by rwa [List.length_ofFn] at h2⟩
  rw [energy_real, this, List.sum_ofFn, Finset.mul_sum]

/-- PEAK of a window (R165). -/
theorem peak_real (t : Template) (w : Window) :
    ∃ i : Fin 512, (peak (magnitudes (transformStep t w).output)).2 = i ∧ IsPeak (realMags t w) i ∧
      surdReal 7 (peak (magnitudes (transformStep t w).output)).1 = 2 ^ 300 * realMags t w i :=
  peak_scaled _ _ _ (by positivity) (magnitudes_length _) (magnitudes_real t w)

theorem realMags_nonneg (t : Template) (w : Window) (m : Fin 512) : 0 ≤ realMags t w m := Complex.normSq_nonneg _

/-- SUM of a window (R164). -/
theorem energy_sum (t : Template) (w : Window) :
    surdReal 7 (energy (magnitudes (transformStep t w).output)) = 2 ^ 300 * ∑ m, realMags t w m :=
  energy_scaled _ _ _ (magnitudes_length _) (magnitudes_real t w)

end Sys2Proof.Laws
end

