-- ==== Sys2Proof/Tests/Slice0.lean ====
section
/-! SUPPORT. Tests: words and values taken from spec/, and for each statement with hypotheses a state and operands that
meet them. -/

namespace Sys2Proof.Tests

open Sys2Proof.Machine Sys2Proof.Safety Sys2Proof.Laws

/-! ## Well-formedness: an ill-formed term for each check (R74, R75, R80) -/

theorem test_wf_single_high : (Instr.cfgSingle 512).wellFormed = false := by decide
theorem test_wf_single_low : (Instr.cfgSingle (-513)).wellFormed = false := by decide
theorem test_wf_dual_first : (Instr.cfgDual 512 0).wellFormed = false := by decide
theorem test_wf_dual_second : (Instr.cfgDual 0 (-513)).wellFormed = false := by decide
theorem test_wf_run : (Instr.run 65536).wellFormed = false := by decide
theorem test_wf_boundary : (Instr.cfgDual (-512) 511).wellFormed = true ∧ (Instr.run 65535).wellFormed = true := by
  decide

/-! ## Decoding, from the table of R83 and the bit patterns of R76 -/

theorem test_decode_single_minus_two :
    decodeWord 0b00010000000000000000001111111110 = .ok (.cfgSingle (-2)) := by decide
theorem test_decode_single_510 : decodeWord 0b00010000000000000000000111111110 = .ok (.cfgSingle 510) := by decide
theorem test_decode_dual : decodeWord 0b00100000000001110000000000000011 = .ok (.cfgDual 3 7) := by decide
theorem test_decode_dual_signs : decodeWord 0b00100011111111100000000111111110 = .ok (.cfgDual 510 (-2)) := by decide
theorem test_decode_run : decodeWord 0b00110000000000001111111111111111 = .ok (.run 65535) := by decide
theorem test_decode_sreset : decodeWord 0b11110000000000000000000000000000 = .ok .sreset := by decide
theorem test_decode_illegal :
    decodeWord 0x00000000 = .error .undefinedOpcode ∧ decodeWord 0x40000000 = .error .undefinedOpcode ∧
      decodeWord 0x10000400 = .error .reservedBits ∧ decodeWord 0x10010000 = .error .reservedBits ∧
      decodeWord 0x24000000 = .error .reservedBits ∧ decodeWord 0x30010000 = .error .reservedBits ∧
      decodeWord 0xF0000001 = .error .reservedBits := by decide
theorem test_encode :
    encode (.cfgSingle (-3)) = 0x100003FD ∧ encode (.cfgDual (-2) (-1)) = 0x23FF03FE ∧
      encode (.run 3) = 0x30000003 ∧ encode .sreset = 0xF0000000 := by decide
/-- R59: least significant byte first. -/
theorem test_bytes : encodeBytes (.cfgDual 3 7) = [0x03, 0x00, 0x07, 0x20] := by decide
theorem test_decode_truncated : decodeBytes [0x03, 0x00, 0x07] = .error .truncated := by decide
/-- R80, R81. -/
theorem test_assembler :
    assemble "cfg.dual 510, -2".toList = some 0x23FE01FE ∧ assemble "step".toList = some 0x30000001 ∧
      assemble "cfg.mseq1 7".toList = some 0x200703FE ∧ assemble "run 0x10".toList = some 0x30000010 ∧
      assemble "cfg.single 512".toList = none := by decide

/-! ## Single steps, from the examples of spec/ -/

/-- Parameters for the tests: IN_CAPACITY 1024, OUT_CAPACITY 4, and the tables of R104's example. -/
def testParams : Params where
  mseq1 := 0
  mseq2 := 1
  inCapacity := some 1024
  outCapacity := some 4
  numerics := .exact

/-- The reset state of a block with the tests' parameters. -/
def start : State := { State.reset with params := testParams }

/-- The same with live samples. -/
def startWith (samples : List Sample) : State := { start with inStream := samples }

/-- A block in READY and SINGLE mode with the template of the code 0. -/
def singleBlock (samples : List Sample) : State :=
  { startWith samples with phase := .ready, t0 := loadTemplate 0 }

/-- A block in READY and DUAL mode with the template of the code 0 in both slots. -/
def dualBlock (samples : List Sample) : State :=
  { singleBlock samples with mode := .dual, t1 := loadTemplate 0 }

theorem dualBlock_inStream (samples : List Sample) : (dualBlock samples).inStream = samples := rfl

/-- 512 samples of value 0. -/
def zeros : List Sample := List.replicate 512 ⟨0, 0⟩

/-- R141's example. -/
theorem test_cfg_single :
    ∃ t, exec (.cfgSingle 5) start = .next t ∧ t.sel0 = 5 ∧ statusWord t = 0x00000001 := ⟨_, rfl, by decide⟩
/-- R142's example. -/
theorem test_cfg_dual :
    ∃ t, exec (.cfgDual (-2) (-1)) start = .next t ∧ t.sel1 = 0xFFFFFFFF ∧ statusWord t = 0x00000003 :=
  ⟨_, rfl, by decide⟩
/-- D18: RUN 0 fails in UNCONFIGURED like any RUN. -/
theorem test_run_zero_unconfigured :
    ∃ t, exec (.run 0) start = .next t ∧ statusWord t = 0x00000844 := ⟨_, rfl, by decide⟩
/-- R170: with no sample live, RUN 1 holds. -/
theorem test_run_holds : exec (.run 1) (singleBlock []) = .next (singleBlock []) := rfl
/-- R145: SRESET in READY. -/
theorem test_sreset :
    ∃ t, exec .sreset (singleBlock zeros) = .next t ∧ statusWord t = 0 ∧ live t = 0 := ⟨_, rfl, by decide⟩
/-- R203: the same word through a step, after the Host has written it. -/
theorem test_step_illegal :
    ∃ t, step { start with pending := some 0x40000000, agenda := [.engine] } = .next t ∧
      statusWord t = 0x00000114 := ⟨_, rfl, by decide⟩

/-! ## Codes and waveforms, from R104 and R130 -/

set_option maxRecDepth 4000 in
/-- R104's example: the one 1 of GENERATE(1) is at k = 510. -/
theorem test_generate : generate testParams 1 = BitVec.twoPow 512 510 := by decide +kernel

/-- R130, row E1: chip 1 = 1, rest 0. -/
theorem test_modulate_e1 :
    (List.range 8).map (modulatedSample 2) =
      [⟨1, 0⟩, ⟨0, 1⟩, ⟨1, 0⟩, ⟨0, 1⟩, ⟨-1, 0⟩, ⟨0, -1⟩, ⟨1, 0⟩, ⟨0, 1⟩] := by decide +kernel
/-- R130, row E0: chip 0 = 1, rest 0; the entries 508 to 511. -/
theorem test_modulate_e0_end :
    [508, 509, 510, 511].map (modulatedSample 1) = [⟨-1, 0⟩, ⟨0, -1⟩, ⟨1, 0⟩, ⟨0, 1⟩] := by decide +kernel

/-! ## The window step, from R161, R165 to R168 and the vectors V9, V13, V14 -/

theorem test_product : cxMul ⟨0, -1⟩ ⟨3, 4⟩ = ⟨4, -3⟩ := by decide
/-- R165: two bins tied for the maximum give the lower index. -/
theorem test_peak : (peak ([0, 2, 9, 0, 9].map (surdInt 7))).2 = 2 := by decide +kernel
/-- R166's example: max0 = 512^2, max1 = 100. -/
theorem test_dual_decision :
    dualDecision (surdInt 7 (512 ^ 2 * 2 ^ 300)) (surdInt 7 (100 * 2 ^ 300)) = some 0xC4000000 := by decide +kernel
/-- V9: both maxima 2, sqrt 2 rounded. -/
theorem test_dual_tie :
    dualDecision (surdInt 7 (2 * 2 ^ 300)) (surdInt 7 (2 * 2 ^ 300)) = some 0x3FB504F3 := by decide +kernel
/-- R167's example. -/
theorem test_single_decision : singleDecision (surdInt 7 (262144 * 2 ^ 300)) = some 0x48800000 := by decide +kernel
/-- V13: 512 + 2^-15 is a tie and rounds to even. -/
theorem test_round_tie : singleDecision (surdInt 7 ((2 ^ 24 + 1) * 2 ^ 285)) = some 0x44000000 := by decide +kernel
/-- V14: 512 + 9 * 2^-17 rounds up. -/
theorem test_round_up : singleDecision (surdInt 7 ((2 ^ 26 + 9) * 2 ^ 283)) = some 0x44000001 := by decide +kernel
/-- R168: 2^128 is beyond the finite range. -/
theorem test_overflow : singleDecision (surdInt 7 (2 ^ 428)) = none := by decide +kernel
/-- R55: how the parts of a template read. -/
theorem test_int_word : intWord 0 = 0 ∧ intWord 1 = 0x3F800000 ∧ intWord (-1) = 0xBF800000 := by decide +kernel

/-! ## Witnesses: values that meet the hypotheses of the statements -/

theorem test_witness_DecodeOfEncode : (Instr.cfgDual (-512) 511).wellFormed = true := by decide
theorem test_witness_EncodeOfDecode : ∃ i, decodeWord 0x3000FFFF = .ok i := ⟨_, rfl⟩
theorem test_witness_OpcodeRows :
    0x23FF03FE#32 &&& opcodeMask (.cfgDual 0 0) = opcodeMatch (.cfgDual 1 1) := by decide
theorem test_witness_OperandFields :
    decodeWord 0x100001FF = .ok (.cfgSingle 511) ∧ decodeWord 0x10000200 = .ok (.cfgSingle (-512)) ∧
      decodeWord 0x22000200 = .ok (.cfgDual (-512) (-512)) ∧ decodeWord 0x30000000 = .ok (.run 0) := by decide

/-- The four ways a step can begin, with a RUN 0 pending. -/
theorem test_witness_StepExecutesPending :
    let s : State := { start with pending := some 0x30000000 }
    decodeWord 0x30000000 = .ok (.run 0) ∧ s.agenda = [] ∧
      (hostAct (.cmdWrite 0) { s with agenda := [] } = none) ∧
      (∃ t, hostAct (.read 0) { s with agenda := [] } = some t) := ⟨rfl, rfl, rfl, _, rfl⟩

theorem test_witness_EngineStepEndsPending :
    engineHasStep { start with pending := some 0x30000001 } = true ∧
      engineHasStep { singleBlock [] with pending := some 0x30000001 } = false ∧
      engineHasStep start = false := by decide

theorem test_witness_IllegalCommandError :
    ({ start with pending := some 0 } : State).pending = some 0 ∧ decodeWord 0 = .error .undefinedOpcode := by decide
theorem test_witness_ReconfigureError : (singleBlock []).phase = .ready := rfl
theorem test_witness_NotConfiguredError : start.phase = .unconfigured := rfl
theorem test_witness_InvalidSelectorError :
    start.phase = .unconfigured ∧ ¬((-2 : Int) ≤ 511 ∧ (511 : Int) ≤ 510) ∧ ¬((-2 : Int) ≤ -3 ∧ (-3 : Int) ≤ 510) ∧
      selectorFits 511 = true := by decide

/-- IN_CAPACITY 1024 and OUT_CAPACITY 4: RUN 514 exceeds the first, RUN 5 the second. -/
theorem test_witness_RunLengthError :
    (singleBlock []).phase = .ready ∧ (singleBlock []).params.inCapacity = some 1024 ∧ 1024 < 514 + 511 ∧
      (singleBlock []).params.outCapacity = some 4 ∧ 4 < 5 := by decide
theorem test_witness_RunLengthError_unbounded :
    ∃ s t : State, s.phase = .ready ∧ s.params.inCapacity = none ∧ s.params.outCapacity = none ∧
      exec (.run 1) s = .next t :=
  ⟨{ singleBlock [] with params := { testParams with inCapacity := none, outCapacity := none } }, _, rfl, rfl, rfl, rfl⟩
theorem test_witness_RunLengthError_1024 :
    ∃ s t : State, s.phase = .ready ∧ s.params.inCapacity = some 1024 ∧ s.params.outCapacity = none ∧
      exec (.run 513) s = .next t :=
  ⟨{ singleBlock [] with params := { testParams with outCapacity := none } }, _, rfl, rfl, rfl, rfl⟩

theorem test_witness_CheckOrder : ({ start with pending := some 0x100001FF } : State).pending = some 0x100001FF := rfl
theorem test_witness_ErrorsAreSticky :
    wordError start 0x30000001 = some .notConfigured ∧ wordError start 0 = some .illegalCommand ∧
      decodeWord 0 ≠ .ok .sreset ∧
      engineStep { start with pending := some 0 } = .next (raise .illegalCommand start) ∧
      exec (.run 1) (raise .illegalCommand start) = .next (raise .notConfigured (raise .illegalCommand start)) ∧
      (raise .illegalCommand start).firstErr ≠ 0 ∧ hostAct .pop start = none ∧
      (∃ t, hostAct (.push 0) start = some t) := ⟨rfl, rfl, by decide, rfl, rfl, by decide, rfl, _, rfl⟩
theorem test_witness_CfgSingleConfigures :
    start.phase = .unconfigured ∧ (-2 : Int) ≤ -2 ∧ (-2 : Int) ≤ 510 ∧ (-2 : Int) ≤ 510 ∧ (510 : Int) ≤ 510 := by
  decide
theorem test_witness_CfgDualConfigures :
    start.phase = .unconfigured ∧ (-2 : Int) ≤ -1 ∧ (-1 : Int) ≤ 510 ∧ (-2 : Int) ≤ 510 ∧ (510 : Int) ≤ 510 := by
  decide
theorem test_witness_GenerateChips : (-2 : Int) ≤ 0 ∧ (0 : Int) ≤ 510 ∧ (510 : Nat) ≤ 510 := by decide
/-- The three chip ranges at their ends, for s = 0 and s = 510. -/
theorem test_witness_GoldTwoLoops :
    (0 ≤ 510 ∧ 509 < 510 - 0) ∧ (1 ≤ 510 ∧ 510 - 1 < 510 ∧ 510 ≤ 510) ∧ (510 ≤ 510 ∧ 510 - 510 < 1) := by decide
theorem test_witness_LastChipUnused :
    ∀ k < 511, (0 : Code).getLsbD k = (BitVec.twoPow 512 511).getLsbD k := by decide +kernel

theorem test_witness_RunHolds :
    (singleBlock []).phase = .ready ∧ 1 ≤ 513 ∧
      (∀ c, (singleBlock []).params.inCapacity = some c → 1 + 511 ≤ c) ∧
      (∀ c, (singleBlock []).params.outCapacity = some c → 1 ≤ c) ∧
      (singleBlock []).inStream.length < 1 + 511 := by
  refine ⟨rfl, by decide, ?_, ?_, by decide⟩ <;> (intro c hc; cases hc; decide)
/-- The second reason to hold: enough samples, and OUT full. -/
theorem test_witness_RunHolds_full :
    ∃ s : State, s.phase = .ready ∧ s.inStream.length = 1 + 511 ∧
      ∃ c, s.params.outCapacity = some c ∧ 1 ≤ c ∧ c < s.outFifo.length + 1 :=
  ⟨{ singleBlock zeros with outFifo := [0, 0, 0, 0] }, rfl, by decide +kernel, 4, rfl, by decide⟩
theorem test_witness_RunZeroCompletes : (singleBlock []).phase = .ready ∧ legalParams (singleBlock []).params :=
  ⟨rfl, rfl, rfl⟩

/-- A RUN 1 that is enabled: of RunCompletes, RunOutputs and EndToEnd. -/
theorem test_witness_RunCompletes (s : State) (h : s = singleBlock zeros ∨ s = dualBlock zeros) :
    s.phase = .ready ∧ (∀ c, s.params.inCapacity = some c → 1 + 511 ≤ c) ∧ 1 + 511 ≤ s.inStream.length ∧
      (∀ c, s.params.outCapacity = some c → s.outFifo.length + 1 ≤ c) ∧ s.params.numerics = .exact ∧
      countFits 1 = true := by
  rcases h with rfl | rfl <;> refine ⟨rfl, ?_, by decide +kernel, ?_, rfl, rfl⟩ <;> (intro c hc; cases hc; decide)

theorem zeros_get (n k : Nat) : (List.replicate n (⟨0, 0⟩ : Sample)).getD k default = ⟨0, 0⟩ := by
  rw [List.getD_eq_getElem?_getD, List.getElem?_replicate]; split <;> rfl

theorem zeros_live (s : State) (n k : Nat) (h : s.inStream = List.replicate n ⟨0, 0⟩) :
    liveWindow s k = Vector.replicate 512 ⟨0, 0⟩ := by
  apply Vector.ext
  intro i hi
  simp only [liveWindow, Vector.getElem_ofFn, Vector.getElem_replicate, h]
  exact zeros_get n _

theorem zeros_window (s : State) (n : Nat) (p : BitVec 64) (h : s.inStream = List.replicate n ⟨0, 0⟩) :
    window s p = Vector.replicate 512 ⟨0, 0⟩ := by
  apply Vector.ext
  intro i hi
  simp only [window, inRead, Vector.getElem_ofFn, Vector.getElem_replicate, h, ← List.getD_eq_getElem?_getD]
  exact zeros_get n _

theorem zeros_sample (j : Fin 512) : sampleComplex (Vector.replicate 512 (⟨0, 0⟩ : Sample))[j] = 0 := by
  have h : wordReal 0 = 0 := by
    rw [wordReal, show scaledVal 0 = 0 by decide +kernel]; simp
  simp only [Fin.getElem_fin, Vector.getElem_replicate, sampleComplex, h]; rfl

theorem zeros_mags (t : Template) (m : Fin 512) : realMags t (Vector.replicate 512 ⟨0, 0⟩) m = 0 := by
  simp only [realMags, realBins, realDft, zeros_sample, mul_zero, zero_mul, Finset.sum_const_zero, map_zero]

theorem zeros_result (s : State) : exactResult s (Vector.replicate 512 ⟨0, 0⟩) = 0 := by
  have h : ∀ t, realMags t (Vector.replicate 512 ⟨0, 0⟩) = fun _ => 0 := fun t => funext (zeros_mags t)
  unfold exactResult
  simp only [h]
  cases s.mode <;> simp

theorem zeros_in_range (s : State) : |exactResult s (Vector.replicate 512 ⟨0, 0⟩)| ≤ largestFinite := by
  rw [zeros_result, abs_zero, largestFinite]; norm_num

theorem zeros_finite : finiteWindow (Vector.replicate 512 ⟨0, 0⟩) = true := by decide +kernel

theorem test_witness_WindowSamples : 0 + 512 ≤ zeros.length ∧ 0 + 512 ≤ 2 ^ 64 := by decide +kernel

/-- The comparison of the real 1, and of 2^128, with the multiples of 2^-150. -/
theorem test_witness_RoundingIsNearestEven (r : Nat) (_ : r = 1 ∨ r = 2 ^ 128) :
    Compares (fun y => compare (r * 2 ^ 150) y) (r : ℝ) ∧ (0 : ℝ) ≤ r ∧
      (r = 1 → (r : ℝ) ≤ largestFinite) ∧ (r = 2 ^ 128 → largestFinite < (r : ℝ)) := by
  refine ⟨fun y => ⟨?_, ?_⟩, by positivity, ?_, ?_⟩
  · rw [compare_lt_iff_lt, lt_div_iff₀ (by positivity)]
    exact_mod_cast Iff.rfl
  · rw [compare_gt_iff_gt, div_lt_iff₀ (by positivity)]
    exact_mod_cast Iff.rfl
  · rintro rfl; rw [largestFinite]; norm_num
  · rintro rfl; rw [largestFinite]; norm_num

/-- A finite window at EXACT numerics: of WindowStepResult, TransformBuffers, WindowDependsOnItsSamples, and in DUAL mode of
ImpulseWindows and OutputSignAndZero. -/
theorem test_witness_WindowStepResult :
    (dualBlock zeros).params.numerics = .exact ∧ (dualBlock zeros).mode = .dual ∧
      (dualBlock zeros).t0 = loadTemplate 0 ∧ (dualBlock zeros).t1 = loadTemplate 0 ∧
      finiteWindow (window (dualBlock zeros) 0) = true ∧
      |exactResult (dualBlock zeros) (window (dualBlock zeros) 0)| ≤ largestFinite ∧
      (∀ j : Fin 512, sampleComplex (window (dualBlock zeros) 0)[j] = 0) := by
  have h := zeros_window (dualBlock zeros) 512 0 rfl
  refine ⟨rfl, rfl, rfl, rfl, ?_, ?_, fun j => ?_⟩ <;> simp only [h]
  · exact zeros_finite
  · exact zeros_in_range _
  · exact zeros_sample j

/-- The same in SINGLE mode, with the bound of EnergyLaw. -/
theorem test_witness_EnergyLaw :
    (singleBlock zeros).mode = .single ∧ (singleBlock zeros).t0 = loadTemplate 0 ∧
      window (singleBlock zeros) 0 = Vector.replicate 512 ⟨0, 0⟩ ∧
      512 * windowEnergy (Vector.replicate 512 ⟨0, 0⟩) ≤ largestFinite := by
  refine ⟨rfl, rfl, zeros_window _ 512 0 rfl, ?_⟩
  simp only [windowEnergy, zeros_sample, map_zero, Finset.sum_const_zero, mul_zero, largestFinite]
  norm_num

/-- In SINGLE mode, with nothing in slot 1: ImpulseWindows and OutputSignAndZero for a window of zeros. -/
theorem test_witness_OutputSignAndZero_single :
    (singleBlock zeros).params.numerics = .exact ∧ (singleBlock zeros).mode = .single ∧
      (singleBlock zeros).t0 = loadTemplate 0 ∧ (singleBlock zeros).t1 = zeroTemplate ∧
      finiteWindow (window (singleBlock zeros) 0) = true ∧
      |exactResult (singleBlock zeros) (window (singleBlock zeros) 0)| ≤ largestFinite := by
  have h := zeros_window (singleBlock zeros) 512 0 rfl
  refine ⟨rfl, rfl, rfl, rfl, ?_, ?_⟩ <;> simp only [h]
  · exact zeros_finite
  · exact zeros_in_range _

/-- One sample of value 1, then zeros. -/
def impulse : List Sample := ⟨0x3F800000, 0⟩ :: List.replicate 511 ⟨0, 0⟩

/-- At RP = 0 the window at position 0 is made of the first live samples. -/
theorem window_start (s : State) (hrp : s.rp = 0) : window s 0 = liveWindow s 0 := by
  unfold window liveWindow inRead
  congr 1
  funext j
  have e : (0 + BitVec.ofNat 64 j - s.rp).toNat = j := by
    rw [hrp]
    simpa using Nat.mod_eq_of_lt (show (j : Nat) < 2 ^ 64 by omega)
  rw [e, Nat.zero_add, List.getD_eq_getElem?_getD]

theorem impulse_window (s : State) (hin : s.inStream = impulse) (hrp : s.rp = 0) :
    finiteWindow (window s 0) = true ∧ sampleComplex (window s 0)[(0 : Fin 512)] = 1 ∧
      ∀ j : Fin 512, j ≠ 0 → sampleComplex (window s 0)[j] = 0 := by
  have hw : window s 0 = Vector.ofFn fun j : Fin 512 => if j = 0 then ⟨0x3F800000, 0⟩ else ⟨0, 0⟩ := by
    rw [window_start s hrp]
    apply Vector.ext
    intro i hi
    simp only [liveWindow, Vector.getElem_ofFn, hin, Nat.zero_add]
    cases i with
    | zero => rfl
    | succ i => exact zeros_get 511 i
  have h0 : wordReal 0 = 0 := by rw [wordReal, show scaledVal 0 = 0 by decide +kernel]; simp
  have h1 : wordReal 0x3F800000 = 1 := by
    rw [wordReal, show scaledVal 0x3F800000 = 2 ^ 149 by decide +kernel]; norm_num
  rw [hw]
  refine ⟨by decide +kernel, ?_, fun j hj => ?_⟩
  · simp only [Fin.getElem_fin, Vector.getElem_ofFn, sampleComplex]
    exact Complex.ext h1 h0
  · simp only [Fin.getElem_fin, Vector.getElem_ofFn, Fin.eta, if_neg hj, sampleComplex, h0]; rfl

/-- The sample 1 with zeros, in SINGLE mode with nothing in slot 1, and in DUAL mode: 1 and 512 are within range. -/
theorem test_witness_ImpulseWindows (s : State) (h : s = singleBlock impulse ∨ s = dualBlock impulse) :
    s.params.numerics = .exact ∧ s.t0 = loadTemplate 0 ∧ finiteWindow (window s 0) = true ∧
      (∀ j : Fin 512, j ≠ 0 → sampleComplex (window s 0)[j] = 0) ∧
      (s = singleBlock impulse → s.mode = .single ∧ s.t1 = zeroTemplate) ∧
      (s = dualBlock impulse → s.mode = .dual ∧ s.t1 = loadTemplate 0) ∧
      ‖sampleComplex (window s 0)[(0 : Fin 512)]‖ ≤ largestFinite ∧
      512 * ‖sampleComplex (window s 0)[(0 : Fin 512)]‖ ^ 2 ≤ largestFinite := by
  have hi : s.inStream = impulse ∧ s.rp = 0 := by rcases h with rfl | rfl <;> exact ⟨rfl, rfl⟩
  obtain ⟨hf, h1, hz⟩ := impulse_window s hi.1 hi.2
  refine ⟨by rcases h with rfl | rfl <;> rfl, by rcases h with rfl | rfl <;> rfl, hf, hz, ?_, ?_, ?_, ?_⟩
  · rintro rfl; exact ⟨rfl, rfl⟩
  · rintro rfl; exact ⟨rfl, rfl⟩
  · rw [h1, norm_one, largestFinite]; norm_num
  · rw [h1, norm_one, largestFinite]; norm_num

/-- 513 zero samples, RUN 1 twice and RUN 2. -/
theorem test_witness_SplitRun (s : State) (h : s = singleBlock (List.replicate 513 ⟨0, 0⟩)) :
    s.phase = .ready ∧ countFits (1 + 1) = true ∧ (∀ c, s.params.inCapacity = some c → 1 + 1 + 511 ≤ c) ∧
      1 + 1 + 511 ≤ s.inStream.length ∧ (∀ c, s.params.outCapacity = some c → s.outFifo.length + (1 + 1) ≤ c) ∧
      ∀ k < 1 + 1, finiteWindow (liveWindow s k) = true ∧
        (s.params.numerics = .exact → |exactResult s (liveWindow s k)| ≤ largestFinite) := by
  have hin : s.inStream = List.replicate 513 ⟨0, 0⟩ := by rw [h]; rfl
  refine ⟨by rw [h]; rfl, rfl, ?_, by rw [hin, List.length_replicate], ?_, fun k _ => ?_⟩
  · intro c hc; rw [h] at hc; cases hc; decide
  · intro c hc; rw [h] at hc ⊢; cases hc; decide
  · rw [zeros_live s 513 k hin]; exact ⟨zeros_finite, fun _ => zeros_in_range s⟩

theorem unit_sample (z : Cx Int) (hre : z.re = 0 ∨ z.re = 1 ∨ z.re = -1) (him : z.im = 0 ∨ z.im = 1 ∨ z.im = -1) :
    sampleComplex (sampleOfInts z) = intComplex z := by
  have h : ∀ x : Int, x = 0 ∨ x = 1 ∨ x = -1 → wordReal (intWord x) = x := by
    rintro x (rfl | rfl | rfl)
    · rw [wordReal, show scaledVal (intWord 0) = 0 by decide +kernel]; simp
    · rw [wordReal, show scaledVal (intWord 1) = 2 ^ 149 by decide +kernel]; norm_num
    · rw [wordReal, show scaledVal (intWord (-1)) = -2 ^ 149 by decide +kernel]; norm_num
  simp only [sampleComplex, sampleOfInts, intComplex, h _ hre, h _ him]

theorem zero_code (k : Nat) : iRail 0 k = 1 ∧ qRail 0 k = 1 := by
  have hd : ∀ k, diffChip 0 k = 1 := by intro k; cases k <;> simp [diffChip]
  induction k with
  | zero => exact ⟨rfl, hd 0⟩
  | succ k ih => simp only [iRail, qRail, hd, ih, mul_one, ite_self, and_self]

theorem zero_template (j : Fin 512) :
    ((loadTemplate 0)[j].re = 0 ∨ (loadTemplate 0)[j].re = 1 ∨ (loadTemplate 0)[j].re = -1) ∧
      ((loadTemplate 0)[j].im = 0 ∨ (loadTemplate 0)[j].im = 1 ∨ (loadTemplate 0)[j].im = -1) := by
  simp only [loadTemplate, modulate, Fin.getElem_fin, Vector.getElem_ofFn, modulatedSample, zero_code]
  split <;> decide

/-- The waveform of the code 0 and its template, as samples. -/
theorem test_witness_SelfCorrelation (j : Fin 512) :
    sampleComplex (Vector.ofFn fun k : Fin 512 => sampleOfInts (cxConj (loadTemplate 0)[k]))[j] =
        (starRingEnd ℂ) (intComplex (loadTemplate 0)[j]) ∧
      sampleComplex (Vector.ofFn fun k : Fin 512 => sampleOfInts (loadTemplate 0)[k])[j] =
        intComplex (loadTemplate 0)[j] := by
  have h := zero_template j
  simp only [Fin.getElem_fin, Vector.getElem_ofFn] at h ⊢
  generalize (loadTemplate 0)[j.val] = z at h
  have hneg : (cxConj z).im = 0 ∨ (cxConj z).im = 1 ∨ (cxConj z).im = -1 := by
    have e : (cxConj z).im = -z.im := rfl
    rw [e]; omega
  exact ⟨by rw [unit_sample (cxConj z) h.1 hneg, intComplex_conj], unit_sample z h.1 h.2⟩

/-- The same as the live samples of a DUAL block with that template in both slots: the windows of its window step. -/
theorem test_witness_SelfCorrelation_window (f : Cx Int → Cx Int) (hf : f = cxConj ∨ f = id) :
    let s := dualBlock (List.ofFn fun k : Fin 512 => sampleOfInts (f (loadTemplate 0)[k]))
    s.params.numerics = .exact ∧ s.mode = .dual ∧ s.t0 = loadTemplate 0 ∧ s.t1 = loadTemplate 0 ∧
      finiteWindow (window s 0) = true ∧
      window s 0 = Vector.ofFn fun k : Fin 512 => sampleOfInts (f (loadTemplate 0)[k]) := by
  intro s
  have hw : window s 0 = Vector.ofFn fun k : Fin 512 => sampleOfInts (f (loadTemplate 0)[k]) := by
    rw [window_start s rfl]
    apply Vector.ext
    intro i hi
    simp only [liveWindow, Vector.getElem_ofFn, Nat.zero_add, List.getD_eq_getElem?_getD]
    rw [dualBlock_inStream, List.getElem?_ofFn, dif_pos hi, Option.getD_some]
  refine ⟨rfl, rfl, rfl, rfl, ?_, hw⟩
  rw [hw, finiteWindow, List.all_eq_true]
  intro x hx
  obtain ⟨i, hi, rfl⟩ := List.getElem_of_mem hx
  have h := zero_template ⟨i, by simpa using hi⟩
  simp only [Vector.getElem_toList, Vector.getElem_ofFn]
  simp only [Fin.getElem_fin] at h ⊢
  generalize (loadTemplate 0)[i]'_ = z at h ⊢
  have hfin : ∀ a : Int, a = 0 ∨ a = 1 ∨ a = -1 → isFinite (intWord a) = true := by
    rintro a (rfl | rfl | rfl) <;> decide +kernel
  have hneg : -z.im = 0 ∨ -z.im = 1 ∨ -z.im = -1 := by omega
  rcases hf with rfl | rfl <;>
    simp only [finiteSample, sampleOfInts, cxConj, id, hfin _ h.1, hfin _ h.2, hfin _ hneg, Bool.and_self]

/-- Whatever the samples are, so for the 512 of EndToEnd too. -/
theorem test_witness_EndToEnd (samples : List Sample) :
    let s := dualBlock samples
    s.phase = .ready ∧ s.mode = .dual ∧ s.params.numerics = .exact ∧ legalParams s.params ∧ s.outFifo = [] ∧
      s.t0 = loadTemplate 0 ∧ s.t1 = loadTemplate 0 ∧ s.inStream = samples :=
  ⟨rfl, rfl, rfl, ⟨rfl, rfl⟩, rfl, rfl, rfl, rfl⟩

/-! ## Witnesses: ports, readback, the whole machine -/

theorem test_witness_HostPush :
    (∃ s : State, s.agenda = [.host (.push (0#32 ++ 0x3F800000#32))] ∧
      ∀ c, s.params.inCapacity = some c → s.inStream.length < c) ∧
    (∃ s : State, s.agenda = [.host (.push (0#32 ++ 0x3F800000#32))] ∧
      s.params.inCapacity = some s.inStream.length) :=
  ⟨⟨{ start with agenda := [.host (.push (0#32 ++ 0x3F800000#32))] }, rfl, fun c hc => by cases hc; decide⟩,
    ⟨{ startWith zeros with
        agenda := [.host (.push (0#32 ++ 0x3F800000#32))]
        params := { testParams with inCapacity := some 512 } }, rfl, by decide +kernel⟩⟩
theorem test_witness_HostPop :
    (∃ s : State, s.agenda = [.host .pop] ∧ s.outFifo = [0x40A00000]) ∧
      (∃ s : State, s.agenda = [.host .pop] ∧ s.outFifo = []) :=
  ⟨⟨{ start with agenda := [.host .pop], outFifo := [0x40A00000] }, rfl, rfl⟩,
    ⟨{ start with agenda := [.host .pop] }, rfl, rfl⟩⟩
theorem test_witness_HostCommandWrite :
    (∃ s : State, s.agenda = [.host (.cmdWrite 0)] ∧ s.pending = none) ∧
      (∃ s : State, s.agenda = [.host (.cmdWrite 0)] ∧ s.pending = some 0x30000001) :=
  ⟨⟨{ start with agenda := [.host (.cmdWrite 0)] }, rfl, rfl⟩,
    ⟨{ start with agenda := [.host (.cmdWrite 0)], pending := some 0x30000001 }, rfl, rfl⟩⟩
theorem test_witness_HostRead :
    ({ start with agenda := [.host (.read 0)] } : State).agenda = [.host (.read 0)] := rfl
theorem test_witness_HostActionFrame :
    (∃ t, hostAct (.cmdWrite 0) start = some t) ∧ (∃ t, hostAct (.push (0#32 ++ 0#32)) start = some t) ∧
      (∃ t, hostAct .pop { start with outFifo := [0] } = some t) ∧ (∃ t, hostAct (.read 0) start = some t) :=
  ⟨⟨_, rfl⟩, ⟨_, rfl⟩, ⟨_, rfl⟩, ⟨_, rfl⟩⟩
/-- The reserved ranges at their ends. -/
theorem test_witness_ReadbackRegisters :
    ([0x00C, 0x00F, 0x050, 0x3FF, 0xC00, 0xFFF] : List (BitVec 12)).all (fun a => memRead start a == 0) = true := by
  decide

/-- A configured block is in the invariant. -/
theorem test_witness_Invariant : Invariant (complete (configureSingle 5 start)) where
  params := ⟨rfl, rfl⟩
  unconfigured h := by cases h
  slot0 _ := by
    have e : (selectorWord 5).toInt = 5 := by decide
    simp only [slotLoaded, complete_sel0, complete_code0, complete_t0, complete_params, configureSingle_sel0,
      configureSingle_code0, configureSingle_t0, configureSingle_params, e]
    exact ⟨by decide, trivial, trivial⟩
  slot1 h := by cases h
  single _ := ⟨⟨rfl, rfl, rfl⟩, rfl, rfl⟩
  live := rfl
  out := rfl
  last v h := by cases h
  errors := .inl ⟨rfl, rfl⟩
/-- And it can step. -/
theorem test_witness_StepKeepsInv :
    step (complete (configureSingle 5 start)) = .next (complete (configureSingle 5 start)) := rfl

theorem test_witness_ReadbackFrame :
    errorRecorded .illegalCommand start (raise .illegalCommand start) ∧
      exec (.run 1) (singleBlock []) = .next (singleBlock []) ∧
      (∃ t, exec (.cfgSingle 5) start = .next t) ∧ (∃ t, exec (.cfgDual 5 6) start = .next t) ∧
      (0x001 : BitVec 12) ≠ 0x000 ∧ ¬(0x003 ≤ (0x002 : BitVec 12).toNat ∧ (0x002 : BitVec 12).toNat ≤ 0x009) ∧
      0x001 < (0x020 : BitVec 12).toNat := ⟨rfl, rfl, ⟨_, rfl⟩, ⟨_, rfl⟩, by decide⟩
theorem test_witness_ParametersStay : step start = .next start := rfl
/-- A configured block that stays, and one with SRESET pending. -/
theorem test_witness_ReadyIsImmutable :
    (singleBlock []).phase = .ready ∧ step (singleBlock []) = .next (singleBlock []) ∧
      ∃ t, step { singleBlock [] with pending := some 0xF0000000 } = .next t ∧ t.phase = .unconfigured :=
  ⟨rfl, rfl, _, rfl, rfl⟩
theorem test_witness_StreamsMoveByRun :
    Instr.run 0 ≠ .sreset ∧ exec (.run 0) (singleBlock []) = .next (complete (singleBlock [])) := ⟨by decide, rfl⟩

/-! ## The hooks the host asks Lean about -/

theorem test_table_word : decodeTableWord 32 0x20070003 = some (.cfgDual 3 7) := by decide
theorem test_fetch_word :
    ∃ t, step (State.reset.withFetchWord 32 0x10000005) = .next t ∧ t.phase = .ready ∧ t.sel0 = 5 :=
  ⟨_, rfl, by decide⟩

end Sys2Proof.Tests
end

/-! # The turns of a step, the parameters, and rounding to nearest even

What one step does by the head of the agenda (R15, R64), what no step changes (R38, R220), and that the word
`roundWord` answers is the nearest one with ties to even (R12, R168). -/

namespace Sys2Proof.Proofs

open Sys2Proof.Machine Sys2Proof.Safety Sys2Proof.Laws

/-! ## Rounding -/

/-- A number of at most 31 bits up to the largest finite one is a finite word. -/
theorem isFinite_ofNat {b : Nat} (hb : b ≤ largestFiniteBits) : isFinite (BitVec.ofNat 32 b) = true := by
  have hlt : b < 2 ^ 31 := hb.trans_lt (by decide)
  rwa [isFinite_iff, lowBits_ofNat b hlt]

/-- No finite word lies strictly between two neighbouring magnitudes. -/
theorem wordReal_le_or_succ_le (b : Nat) {v : Word} (hv : isFinite v = true) :
    wordReal v ≤ (magnitudeOf b : ℝ) / 2 ^ 149 ∨ (magnitudeOf (b + 1) : ℝ) / 2 ^ 149 ≤ wordReal v := by
  have mono {m n : Nat} (h : m ≤ n) : (magnitudeOf m : ℝ) / 2 ^ 149 ≤ (magnitudeOf n : ℝ) / 2 ^ 149 := by
    have : (magnitudeOf m : ℝ) ≤ magnitudeOf n := by exact_mod_cast magnitudeOf_strictMono.monotone h
    gcongr
  obtain ⟨c, -, hc | hc⟩ := wordReal_cases v hv
  · rw [hc]
    exact (Nat.lt_or_ge b c).symm.imp mono mono
  · left
    have hb : (0 : ℝ) ≤ (magnitudeOf b : ℝ) / 2 ^ 149 := by positivity
    have hc0 : (0 : ℝ) ≤ (magnitudeOf c : ℝ) / 2 ^ 149 := by positivity
    linarith

/-- A finite word that is strictly nearer than every other value is the rounded one. -/
theorem isNearestEven_of_unique {r : ℝ} {w : Word} (hfin : isFinite w = true)
    (hnear : ∀ v, isFinite v = true → wordReal v ≠ wordReal w → |wordReal w - r| < |wordReal v - r|)
    (hzero : r = 0 → w = 0) : IsNearestEven r w := by
  refine ⟨hfin, fun v hv => ?_, fun v hv heq hne => absurd heq (hnear v hv hne).ne, hzero⟩
  by_cases h : wordReal v = wordReal w
  · rw [h]
  · exact (hnear v hv h).le

/-- Below the midpoint the lower neighbour is the rounded word. -/
theorem isNearestEven_below {r : ℝ} {b : Nat} (hb : b ≤ largestFiniteBits)
    (hlow : (magnitudeOf b : ℝ) / 2 ^ 149 ≤ r)
    (hmid : r < ((magnitudeOf b + magnitudeOf (b + 1) : Nat) : ℝ) / 2 ^ 150) :
    IsNearestEven r (BitVec.ofNat 32 b) := by
  have hval := wordReal_ofNat b (hb.trans_lt (by decide))
  refine isNearestEven_of_unique (isFinite_ofNat hb) (fun v hv hne => ?_) (fun h0 => ?_)
  · rw [hval] at hne ⊢
    rw [abs_of_nonpos (by linarith), lt_abs]
    push_cast at hmid
    rcases wordReal_le_or_succ_le b hv with h | h
    · right; linarith [lt_of_le_of_ne h hne]
    · left; linarith
  · have hmag : magnitudeOf b = 0 := by
      have : (magnitudeOf b : ℝ) ≤ 0 := by linarith
      exact_mod_cast this.antisymm (Nat.cast_nonneg _)
    have : b = 0 := magnitudeOf_strictMono.injective (hmag.trans magnitudeOf_zero.symm)
    rw [this]
    rfl

/-- Above the midpoint the upper neighbour is the rounded word. -/
theorem isNearestEven_above {r : ℝ} {b : Nat} (hb : b < largestFiniteBits)
    (hhigh : r < (magnitudeOf (b + 1) : ℝ) / 2 ^ 149)
    (hmid : ((magnitudeOf b + magnitudeOf (b + 1) : Nat) : ℝ) / 2 ^ 150 < r) :
    IsNearestEven r (BitVec.ofNat 32 (b + 1)) := by
  have hval := wordReal_ofNat (b + 1) (lt_of_le_of_lt hb (by decide))
  have hpos : 0 < r := hmid.trans_le' (by positivity)
  refine isNearestEven_of_unique (isFinite_ofNat hb) (fun v hv hne => ?_) (fun h0 => absurd h0 hpos.ne')
  rw [hval] at hne ⊢
  rw [abs_of_nonneg (by linarith), lt_abs]
  push_cast at hmid
  rcases wordReal_le_or_succ_le b hv with h | h
  · right; linarith
  · left; linarith [lt_of_le_of_ne h hne.symm]

/-- At the midpoint both neighbours are nearest, and the even one is the rounded word. -/
theorem isNearestEven_tie {r : ℝ} {below b : Nat} (hbelow : below < largestFiniteBits) (heven : b % 2 = 0)
    (hb : b = below ∨ b = below + 1)
    (hmid : r = ((magnitudeOf below + magnitudeOf (below + 1) : Nat) : ℝ) / 2 ^ 150) :
    IsNearestEven r (BitVec.ofNat 32 b) := by
  have hfin : b ≤ largestFiniteBits := by omega
  have hgap : (magnitudeOf below : ℝ) < magnitudeOf (below + 1) := by exact_mod_cast magnitudeOf_lt_succ below
  have hpos : 0 < r := by
    rw [hmid, Nat.cast_add]
    have : (0 : ℝ) ≤ magnitudeOf below := Nat.cast_nonneg _
    exact div_pos (by linarith) (by positivity)
  have hdist : |wordReal (BitVec.ofNat 32 b) - r|
      = ((magnitudeOf (below + 1) : ℝ) - magnitudeOf below) / 2 ^ 150 := by
    rw [wordReal_ofNat b (hfin.trans_lt (by decide)), hmid]
    push_cast
    rcases hb with rfl | rfl
    · rw [abs_of_nonpos (by linarith)]; ring
    · rw [abs_of_nonneg (by linarith)]; ring
  refine ⟨isFinite_ofNat hfin, fun v hv => ?_, fun _ _ _ _ => evenBit_ofNat b heven, fun h0 => absurd h0 hpos.ne'⟩
  rw [hdist, hmid, le_abs]
  push_cast
  rcases wordReal_le_or_succ_le below hv with h | h
  · right; linarith
  · left; linarith

/-- Up to the largest finite value rounding answers the nearest word, ties to even. -/
theorem roundWord_isNearestEven {cmp : Comparison} {r : ℝ} (h : Compares cmp r) (h0 : 0 ≤ r)
    (hmax : r ≤ largestFinite) : ∃ w, roundWord cmp = some w ∧ IsNearestEven r w := by
  obtain ⟨below, b, hround, hle, hlow, hup, htop, hcase⟩ := roundBits_cases h h0 hmax
  refine ⟨BitVec.ofNat 32 b, by rw [roundWord, hround]; rfl, ?_⟩
  have below_lt (hmid : ((magnitudeOf below + magnitudeOf (below + 1) : Nat) : ℝ) / 2 ^ 150 ≤ r) :
      below < largestFiniteBits := by
    refine lt_of_le_of_ne hle fun heq => ?_
    have hgap : (magnitudeOf below : ℝ) < magnitudeOf (below + 1) := by
      exact_mod_cast magnitudeOf_lt_succ below
    have := htop heq
    push_cast at hmid
    linarith
  rcases hcase with ⟨rfl, hmid⟩ | ⟨rfl, hmid⟩ | ⟨heven, hb, hmid⟩
  · exact isNearestEven_below hle hlow hmid
  · have hlt := below_lt hmid.le
    exact isNearestEven_above hlt (hup hlt) hmid
  · exact isNearestEven_tie (below_lt hmid.ge) heven hb hmid

/-- Above the largest finite value rounding answers no word. -/
theorem roundWord_eq_none {cmp : Comparison} {r : ℝ} (h : Compares cmp r) (hr : largestFinite < r) :
    roundWord cmp = none := by
  have hover : cmp (2 * magnitudeOf largestFiniteBits) = .gt := by
    rw [(h _).2]
    have := magnitudeOf_largest
    push_cast
    linarith
  rw [roundWord, roundBits, if_pos hover]
  rfl

/-- Settles O33: within the range from the neighbours that the search finds, beyond it from the first comparison. -/
theorem roundingIsNearestEven : Obligations.RoundingIsNearestEven := fun _ _ h h0 =>
  ⟨roundWord_isNearestEven h h0, roundWord_eq_none h⟩

/-! ## The parameters and the received words -/

/-- No command changes the parameters or what the Host has received. -/
theorem exec_keeps_params_received {i : Instr} {s t : State} (h : exec i s = .next t) :
    t.params = s.params ∧ t.received = s.received := by
  have key {u : State} (hu : exec i s = .next u) (keeps : u.params = s.params ∧ u.received = s.received) :
      t.params = s.params ∧ t.received = s.received := by
    rwa [← Host.Outcome.next.inj (hu.symm.trans h)]
  rcases exec_cases i s with hu | ⟨e, hu⟩ | hu | ⟨sel, -, -, -, hu⟩ | ⟨sel0, sel1, -, -, -, -, hu⟩ |
    ⟨n, -, -, -, hu⟩ | ⟨-, hu⟩
  · exact key hu ⟨rfl, rfl⟩
  · exact key hu ⟨raise_params e s, raise_received e s⟩
  · exact key hu ⟨complete_params s, complete_received s⟩
  · exact key hu ⟨configureSingle_params sel s, configureSingle_received sel s⟩
  · exact key hu ⟨configureDual_params sel0 sel1 s, configureDual_received sel0 sel1 s⟩
  · obtain ⟨-, -, -, -, -, -, -, -, -, -, -, -, -, hparams, -, hreceived, -⟩ := runWindows_frame n s.rp s
    exact key hu ⟨hparams, hreceived⟩
  · exact key hu ⟨resetBlock_params s, resetBlock_received s⟩

/-- Nor does the Engine's step. -/
theorem engineStep_keeps_params_received {s t : State} (h : engineStep s = .next t) :
    t.params = s.params ∧ t.received = s.received := by
  rcases engineStep_cases s with ⟨-, hu⟩ | ⟨_, _, -, -, hu⟩ | ⟨_, _, -, -, hu⟩
  · rw [← Host.Outcome.next.inj (hu.symm.trans h)]
    exact ⟨rfl, rfl⟩
  · rw [← Host.Outcome.next.inj (hu.symm.trans h)]
    exact ⟨rfl, rfl⟩
  · exact exec_keeps_params_received (hu.symm.trans h)

/-- A Host action keeps the parameters, and POP and a read add to what the Host has received. -/
theorem hostAct_params_received {a : HostAction} {s t : State} (h : hostAct a s = some t) :
    t.params = s.params ∧ s.received <+: t.received := by
  cases a with
  | cmdWrite w =>
    rcases hostCmdWrite_eq w s with ⟨-, hu⟩ | ⟨-, hu⟩
    · cases hu.symm.trans h
      exact ⟨rfl, List.prefix_rfl⟩
    · cases hu.symm.trans h
  | push item =>
    rcases hostPush_eq item s with ⟨-, hu⟩ | ⟨-, hu⟩
    · cases hu.symm.trans h
      exact ⟨rfl, List.prefix_rfl⟩
    · cases hu.symm.trans h
  | pop =>
    rcases hostPop_eq s with ⟨v, rest, -, hu⟩ | ⟨-, hu⟩
    · cases hu.symm.trans h
      exact ⟨rfl, List.prefix_append _ _⟩
    · cases hu.symm.trans h
  | read addr =>
    cases h
    exact ⟨rfl, List.prefix_append _ _⟩
  | reset =>
    cases h
    exact ⟨rfl, List.prefix_rfl⟩

/-- Settles O57: by the Engine's step and the Host's actions. That the received words are a list kept in the state is
the model's form (notes/assumptions/7.md). -/
theorem parametersStay : Obligations.ParametersStay := by
  intro s t h
  rcases step_cases s with ⟨rest, hstep⟩ | ⟨a, rest, u, -, hact, hstep⟩
  · obtain ⟨hparams, hreceived⟩ := engineStep_keeps_params_received (hstep.symm.trans h)
    exact ⟨hparams, hreceived ▸ List.prefix_rfl⟩
  · rw [← Host.Outcome.next.inj (hstep.symm.trans h)]
    exact hostAct_params_received (s := { s with agenda := rest }) hact

/-! ## The turns of a step -/

/-- The Engine executes a pending word that decodes (R39). -/
theorem engineStep_of_decode {s : State} {w : Word} {i : Instr} (hw : s.pending = some w)
    (hi : decodeWord w = .ok i) : engineStep s = exec i s := by
  simp only [engineStep, hw, hi]

/-- An empty agenda gives the Engine the turn. -/
theorem step_of_agenda_nil {s : State} (h : s.agenda = []) : step s = engineStep s := by
  simp only [step, h]

/-- An Engine turn at the head is taken by the Engine. -/
theorem step_of_engine_turn {s : State} {rest : List Turn} (h : s.agenda = .engine :: rest) :
    step s = engineStep { s with agenda := rest } := by
  simp only [step, h]

/-- A Host action that holds stays at the head while the Engine moves (R54, R57, R58). -/
theorem step_of_host_holds {s : State} {a : HostAction} {rest : List Turn} (h : s.agenda = .host a :: rest)
    (hold : hostAct a { s with agenda := rest } = none) : step s = engineStep s := by
  simp only [step, h, hold]

/-- A Host action that does not hold is the step. -/
theorem step_of_host_acts {s t : State} {a : HostAction} {rest : List Turn} (h : s.agenda = .host a :: rest)
    (act : hostAct a { s with agenda := rest } = some t) : step s = .next t := by
  simp only [step, h, act]

/-- Settles O8: the step by the head of the agenda, then the Engine's step on a word that decodes. The agenda is the
model's form of the order of turns (notes/assumptions/7.md). -/
theorem stepExecutesPending : Obligations.StepExecutesPending := by
  intro s w i hw hi
  refine ⟨fun h => ?_, fun rest h => ?_, fun a rest h hold => ?_, fun a rest t h act => ?_⟩
  · exact (step_of_agenda_nil h).trans (engineStep_of_decode hw hi)
  · exact (step_of_engine_turn h).trans (engineStep_of_decode hw hi)
  · exact (step_of_host_holds h hold).trans (engineStep_of_decode hw hi)
  · exact step_of_host_acts h act

end Sys2Proof.Proofs

/-! # The block's state from step to step

What a command and a Host action can do, as rules for a property of the next state; the end of a command and its hold
(R39, R170); the error record (R28, R201); STATUS (R27); the transform buffers (R31); and what every step keeps: the
invariant, the configuration in READY (R23), and the streams but for RUN (R22, R34). -/

namespace Sys2Proof.Proofs

open Sys2Proof.Machine Sys2Proof.Safety Sys2Proof.Laws

/-! ## Rules for a property of the next state -/

/-- A property of the state after a command holds when it holds of each outcome that `exec_cases` names. -/
theorem exec_elim {P : State → Prop} {i : Instr} {s t : State} (h : exec i s = .next t)
    (hold : P s) (fails : ∀ e, P (raise e s)) (done : P (complete s))
    (single : ∀ sel, s.phase = .unconfigured → validSelector sel = true → P (complete (configureSingle sel s)))
    (dual : ∀ sel0 sel1, s.phase = .unconfigured → validSelector sel0 = true → validSelector sel1 = true →
      P (complete (configureDual sel0 sel1 s)))
    (run : ∀ n, i = .run n → s.phase = .ready → runEnabled n s = true →
      P (complete (consume n (runWindows n s.rp s))))
    (reset : i = .sreset → P (resetBlock s)) : P t := by
  have next {u : State} (hu : exec i s = .next u) (hP : P u) : P t := Host.Outcome.next.inj (hu.symm.trans h) ▸ hP
  rcases exec_cases i s with hu | ⟨e, hu⟩ | hu | ⟨sel, -, hphase, hsel, hu⟩ |
    ⟨sel0, sel1, -, hphase, hsel0, hsel1, hu⟩ | ⟨n, hi, hphase, henabled, hu⟩ | ⟨hi, hu⟩
  · exact next hu hold
  · exact next hu (fails e)
  · exact next hu done
  · exact next hu (single sel hphase hsel)
  · exact next hu (dual sel0 sel1 hphase hsel0 hsel1)
  · exact next hu (run n hi hphase henabled)
  · exact next hu (reset hi)

/-- A property of the state after the Engine's step holds when it holds of the same state, of the state that an illegal
word leaves, and after every command. -/
theorem engineStep_elim {P : State → Prop} {s t : State} (h : engineStep s = .next t) (idle : P s)
    (illegal : P (raise .illegalCommand s))
    (command : ∀ w i, s.pending = some w → decodeWord w = .ok i → exec i s = .next t → P t) : P t := by
  rcases engineStep_cases s with ⟨-, hu⟩ | ⟨_, _, -, -, hu⟩ | ⟨w, i, hw, hi, hu⟩
  · exact Host.Outcome.next.inj (hu.symm.trans h) ▸ idle
  · exact Host.Outcome.next.inj (hu.symm.trans h) ▸ illegal
  · exact command w i hw hi (hu.symm.trans h)

/-- A property of the state after a Host action that does not hold (R54, R56, R57, R58, R221). -/
theorem hostAct_elim {P : State → Prop} {a : HostAction} {s t : State} (h : hostAct a s = some t)
    (cmdWrite : ∀ w, P { s with pending := some w })
    (push : ∀ x, capacityAtLeast s.params.inCapacity (live s + 1) = true →
      P { s with inStream := s.inStream ++ [x] })
    (pop : ∀ v rest, s.outFifo = v :: rest → P { s with outFifo := rest, received := s.received ++ [v] })
    (read : ∀ addr, P (hostRead addr s))
    (reset : a = .reset → P (resetBlock s)) : P t := by
  cases a with
  | cmdWrite w =>
    rcases hostCmdWrite_eq w s with ⟨-, hu⟩ | ⟨-, hu⟩
    · exact Option.some.inj (hu.symm.trans h) ▸ cmdWrite w
    · cases hu.symm.trans h
  | push item =>
    rcases hostPush_eq item s with ⟨hroom, hu⟩ | ⟨-, hu⟩
    · exact Option.some.inj (hu.symm.trans h) ▸ push (sampleOfItem item) hroom
    · cases hu.symm.trans h
  | pop =>
    rcases hostPop_eq s with ⟨v, rest, hout, hu⟩ | ⟨-, hu⟩
    · exact Option.some.inj (hu.symm.trans h) ▸ pop v rest hout
    · cases hu.symm.trans h
  | read addr => exact Option.some.inj h ▸ read addr
  | reset => exact Option.some.inj h ▸ reset rfl

/-! ## The invariant -/

/-- More room than is asked for. -/
theorem capacityAtLeast_mono {c : Option Nat} {m n : Nat} (hmn : m ≤ n) (h : capacityAtLeast c n = true) :
    capacityAtLeast c m = true :=
  (capacityAtLeast_iff c m).2 fun k hk => hmn.trans ((capacityAtLeast_iff c n).1 h k hk)

/-- A valid selector is read back from the word that holds it (R25). -/
theorem selectorWord_toInt {sel : Int} (h : validSelector sel = true) : (selectorWord sel).toInt = sel := by
  simp only [validSelector, Bool.and_eq_true, decide_eq_true_eq] at h
  rw [selectorWord, BitVec.toInt_ofInt, Int.bmod_eq_of_le] <;> omega

/-- A configure command loads a slot (R141, R142). -/
theorem slotLoaded_of_validSelector (p : Params) {sel : Int} (h : validSelector sel = true) :
    slotLoaded p (selectorWord sel) (generate p sel) (loadTemplate (generate p sel)) := by
  simp only [slotLoaded, selectorWord_toInt h, h, true_and]

theorem errorBit_ne_zero (e : ErrorCode) : errorBit e ≠ 0 := by cases e <;> decide

/-- Recording an error keeps every bit that another one set. -/
theorem and_errorBit_raise (x : BitVec 5) (e e' : ErrorCode) (h : x &&& errorBit e' ≠ 0) :
    (x ||| errorBit e) &&& errorBit e' ≠ 0 := by
  rw [BitVec.and_or_distrib_right]
  exact fun h0 => h (BitVec.or_eq_zero_iff.1 h0).1

/-- The bit of a recorded error is set. -/
theorem or_errorBit_and_ne_zero (x : BitVec 5) (e : ErrorCode) : (x ||| errorBit e) &&& errorBit e ≠ 0 := by
  rw [BitVec.and_or_distrib_right, BitVec.and_self]
  exact fun h0 => errorBit_ne_zero e (BitVec.or_eq_zero_iff.1 h0).2

/-- Recording an error keeps the error record consistent (R28, R201). -/
theorem errorRecordAgrees_raise (e : ErrorCode) {s : State} (h : errorRecordAgrees s) :
    errorRecordAgrees (raise e s) := by
  right
  by_cases h0 : s.firstErr = 0
  · exact ⟨e, by rw [raise_firstErr, if_pos h0], or_errorBit_and_ne_zero s.err e⟩
  · obtain ⟨-, hzero⟩ | ⟨e', hfirst, hbit⟩ := h
    · exact absurd hzero h0
    · exact ⟨e', by rw [raise_firstErr, if_neg h0, hfirst], and_errorBit_raise s.err e e' hbit⟩

/-- A recorded error writes nothing else that the invariant reads. -/
theorem raise_keepsInv (e : ErrorCode) {s : State} (h : Invariant s) : Invariant (raise e s) :=
  { h with errors := errorRecordAgrees_raise e h.errors }

theorem complete_keepsInv {s : State} (h : Invariant s) : Invariant (complete s) := { h with }

/-- Reset empties both slots, both streams and the error record, and keeps the parameters (R220). -/
theorem resetBlock_inv {s : State} (h : legalParams s.params) : Invariant (resetBlock s) where
  params := h
  unconfigured _ := ⟨rfl, ⟨rfl, rfl, rfl⟩, rfl, rfl, rfl⟩
  slot0 hready := by cases hready
  slot1 hdual := by cases hdual
  single _ := ⟨⟨rfl, rfl, rfl⟩, rfl, rfl⟩
  live := capacityAtLeast_mono (Nat.zero_le _) h.1
  out := capacityAtLeast_mono (Nat.zero_le _) h.2
  last v hv := by cases hv
  errors := .inl ⟨rfl, rfl⟩

/-- CFG.SINGLE loads slot 0, and slot 1 stays as reset left it (R141). -/
theorem configureSingle_keepsInv {sel : Int} {s : State} (h : Invariant s) (hphase : s.phase = .unconfigured)
    (hsel : validSelector sel = true) : Invariant (configureSingle sel s) :=
  { h with
    unconfigured := fun hu => by cases hu
    slot0 := fun _ => by simpa using slotLoaded_of_validSelector s.params hsel
    slot1 := fun hdual => by cases hdual
    single := fun _ => h.single (h.unconfigured hphase).1 }

/-- CFG.DUAL loads both slots (R142). -/
theorem configureDual_keepsInv {sel0 sel1 : Int} {s : State} (h : Invariant s)
    (hsel0 : validSelector sel0 = true) (hsel1 : validSelector sel1 = true) :
    Invariant (configureDual sel0 sel1 s) :=
  { h with
    unconfigured := fun hu => by cases hu
    slot0 := fun _ => by simpa using slotLoaded_of_validSelector s.params hsel0
    slot1 := fun _ => by simpa using slotLoaded_of_validSelector s.params hsel1
    single := fun hsingle => by cases hsingle }

/-- RUN's loop and its end keep the invariant: the words fit by the enabling condition, LAST_OUT is the last of them,
and SINGLE mode keeps the peak bins (R170, R171). -/
theorem run_keepsInv {n : Nat} {s : State} (h : Invariant s) (hphase : s.phase = .ready)
    (henabled : runEnabled n s = true) : Invariant (consume n (runWindows n s.rp s)) := by
  obtain ⟨fphase, fmode, fsel0, fsel1, fcode0, fcode1, ft0, ft1, -, fin, -, ferr, ffirst, fparams, -⟩ :=
    runWindows_frame n s.rp s
  obtain ⟨ys, hlen, hout, hlast⟩ := runWindows_out n s.rp s
  obtain ⟨-, hroom⟩ := Bool.and_eq_true_iff.1 henabled
  constructor
  case params => simpa [fparams] using h.params
  case unconfigured => simp [fphase, hphase]
  case slot0 => simpa [fphase, fparams, fsel0, fcode0, ft0] using h.slot0
  case slot1 => simpa [fmode, fparams, fsel1, fcode1, ft1] using h.slot1
  case single =>
    intro hmode
    rw [consume_mode, fmode] at hmode
    obtain ⟨hidx0, hidx1, -⟩ := runWindows_single n s.rp s hmode
    simpa [fsel1, fcode1, ft1, hidx0, hidx1] using h.single hmode
  case live =>
    refine capacityAtLeast_mono ?_ (by simpa [fparams] using h.live)
    simp [live, fin]
  case out => simpa [fparams, hout, hlen] using hroom
  case last =>
    intro v hv
    rw [consume_outFifo, hout, List.getLast?_append] at hv
    rw [consume_lastOut, hlast]
    cases hys : ys.getLast? with
    | none => exact h.last v (by simpa [hys] using hv)
    | some y => simpa [hys] using hv
  case errors => simpa [errorRecordAgrees, ferr, ffirst] using h.errors

/-- Every command keeps the invariant. -/
theorem exec_keepsInv {i : Instr} {s t : State} (h : Invariant s) (hexec : exec i s = .next t) : Invariant t :=
  exec_elim hexec
    (hold := h)
    (fails := fun e => raise_keepsInv e h)
    (done := complete_keepsInv h)
    (single := fun _ hphase hsel => complete_keepsInv (configureSingle_keepsInv h hphase hsel))
    (dual := fun _ _ _ hsel0 hsel1 => complete_keepsInv (configureDual_keepsInv h hsel0 hsel1))
    (run := fun _ _ hphase henabled => complete_keepsInv (run_keepsInv h hphase henabled))
    (reset := fun _ => resetBlock_inv h.params)

theorem engineStep_keepsInv {s t : State} (h : Invariant s) (hstep : engineStep s = .next t) : Invariant t :=
  engineStep_elim hstep h (raise_keepsInv .illegalCommand h) fun _ _ _ _ => exec_keepsInv h

/-- The head of OUT leaves: LAST_OUT stays the last word of what is left, and before a configure there is no head. -/
theorem pop_keepsInv {s : State} {v : Word} {rest : List Word} (h : Invariant s) (hout : s.outFifo = v :: rest) :
    Invariant { s with outFifo := rest, received := s.received ++ [v] } :=
  { h with
    unconfigured := fun hu => by
      obtain ⟨-, -, -, hempty, -⟩ := h.unconfigured hu
      cases hout.symm.trans hempty
    out := capacityAtLeast_mono (by simp [hout]) h.out
    last := fun w hw => h.last w (by rw [hout, List.getLast?_cons, hw]; rfl) }

/-- Every Host action keeps the invariant. -/
theorem hostAct_keepsInv {a : HostAction} {s t : State} (h : Invariant s) (hact : hostAct a s = some t) :
    Invariant t :=
  hostAct_elim hact
    (cmdWrite := fun _ => { h with })
    (push := fun _ hroom => { h with live := by simpa [live] using hroom })
    (pop := fun _ _ hout => pop_keepsInv h hout)
    (read := fun _ => { h with })
    (reset := fun _ => resetBlock_inv h.params)

/-- Settles O55: the Engine's step and every Host action keep the invariant, which does not read the agenda. That SINGLE
mode keeps the peak bins for every window is the model's reading (notes/assumptions/5.md). -/
theorem stepKeepsInv : Obligations.StepKeepsInv := by
  intro s t h hstep
  rcases step_cases s with ⟨rest, hengine⟩ | ⟨a, rest, u, -, hact, hhost⟩
  · exact engineStep_keepsInv (s := { s with agenda := rest }) { h with } (hengine.symm.trans hstep)
  · rw [← Host.Outcome.next.inj (hhost.symm.trans hstep)]
    exact hostAct_keepsInv (s := { s with agenda := rest }) { h with } hact

/-! ## The end of a command, and its hold -/

/-- The Engine has a step for the command (R39): it is not a RUN that holds (R170). -/
def commandHasStep (s : State) : Instr → Bool
  | .run n => decide (s.phase = .unconfigured) || runTooLong n s || decide (n = 0) || runEnabled n s
  | _ => true

theorem engineHasStep_of_error {s : State} {w : Word} {r : DecodeReject} (hw : s.pending = some w)
    (hr : decodeWord w = .error r) : engineHasStep s = true := by
  simp only [engineHasStep, hw, hr]

theorem engineHasStep_of_decode {s : State} {w : Word} {i : Instr} (hw : s.pending = some w)
    (hi : decodeWord w = .ok i) : engineHasStep s = commandHasStep s i := by
  cases i <;> simp only [engineHasStep, hw, hi, commandHasStep]

/-- A command that has a step ends with PENDING empty (R39). -/
theorem exec_ends_pending {i : Instr} {s : State} (h : commandHasStep s i = true) :
    ∃ t, exec i s = .next t ∧ t.pending = none := by
  cases i with
  | cfgSingle sel =>
    simp only [exec, execCfgSingle]
    split_ifs <;> exact ⟨_, rfl, rfl⟩
  | cfgDual sel0 sel1 =>
    simp only [exec, execCfgDual]
    split_ifs <;> exact ⟨_, rfl, rfl⟩
  | run n =>
    simp only [exec, execRun]
    split_ifs with hphase hlong hzero henabled
    · exact ⟨_, rfl, rfl⟩
    · exact ⟨_, rfl, rfl⟩
    · exact ⟨_, rfl, rfl⟩
    · exact ⟨_, rfl, rfl⟩
    · simp [commandHasStep, hphase, hlong, hzero, henabled] at h
  | sreset => exact ⟨_, rfl, rfl⟩

/-- A command that has no step leaves the state as it is (R170). -/
theorem exec_holds {i : Instr} {s : State} (h : commandHasStep s i = false) : exec i s = .next s := by
  cases i with
  | run n =>
    simp only [commandHasStep, Bool.or_eq_false_iff, decide_eq_false_iff_not] at h
    obtain ⟨⟨⟨hphase, hlong⟩, hzero⟩, henabled⟩ := h
    simp [exec, execRun, hphase, hlong, hzero, henabled]
  | _ => cases h

/-- Settles O9: the Engine's step by what is pending, then the command with or without a step. That a hold is a step to
the same state is the model's choice (notes/assumptions/8.md). -/
theorem engineStepEndsPending : Obligations.EngineStepEndsPending := by
  intro s
  rcases engineStep_cases s with ⟨hnone, hu⟩ | ⟨w, r, hw, hr, hu⟩ | ⟨w, i, hw, hi, hu⟩
  · have hidle : engineHasStep s = false := by simp only [engineHasStep, hnone]
    exact ⟨fun h => absurd (hidle.symm.trans h) Bool.false_ne_true, fun _ => hu, fun _ => hidle⟩
  · have hhas := engineHasStep_of_error hw hr
    exact ⟨fun _ => ⟨_, hu, raise_pending _ s⟩, fun h => absurd (h.symm.trans hhas) Bool.false_ne_true,
      fun h => by cases h.symm.trans hw⟩
  · rw [engineHasStep_of_decode hw hi, hu]
    exact ⟨exec_ends_pending, exec_holds, fun h => by cases h.symm.trans hw⟩

/-! ## The error record -/

theorem validSelector_eq_false_iff (sel : Int) : (!validSelector sel) = true ↔ sel < -2 ∨ 510 < sel := by
  simp only [validSelector, Bool.not_eq_true', Bool.and_eq_false_iff, decide_eq_false_iff_not, not_le]

theorem capacityAtLeast_eq_false_iff (c : Option Nat) (n : Nat) :
    (!capacityAtLeast c n) = true ↔ ∃ k ∈ c, k < n := by
  cases c <;> simp [capacityAtLeast]

theorem runTooLong_iff (n : Nat) (s : State) :
    runTooLong n s = true ↔
      (∃ c ∈ s.params.inCapacity, c < n + 511) ∨ ∃ c ∈ s.params.outCapacity, c < n := by
  rw [runTooLong, Bool.or_eq_true, capacityAtLeast_eq_false_iff, capacityAtLeast_eq_false_iff]

/-- A command with a failing check records that check's error (R201, R210). -/
theorem exec_of_failedCheck {i : Instr} {s : State} {e : ErrorCode} (h : failedCheck s i = some e) :
    exec i s = .next (raise e s) := by
  cases i with
  | cfgSingle sel =>
    simp only [failedCheck, ← validSelector_eq_false_iff] at h
    simp only [exec, execCfgSingle]
    split_ifs at h ⊢ <;> cases h <;> rfl
  | cfgDual sel0 sel1 =>
    simp only [failedCheck, ← validSelector_eq_false_iff] at h
    simp only [exec, execCfgDual]
    split_ifs at h ⊢ <;> cases h <;> rfl
  | run n =>
    simp only [failedCheck, ← runTooLong_iff] at h
    simp only [exec, execRun]
    split_ifs at h ⊢ <;> cases h <;> rfl
  | sreset => cases h

/-- The Engine's step of a pending word that fails is `raise` of its error (R201, R203, R210). -/
theorem engineStep_of_wordError {s : State} {w : Word} {e : ErrorCode} (hw : s.pending = some w)
    (he : wordError s w = some e) : engineStep s = .next (raise e s) := by
  cases hd : decodeWord w with
  | error r =>
    simp only [wordError, hd, Option.some.injEq] at he
    simp only [engineStep, hw, hd, he]
  | ok i =>
    simp only [wordError, hd] at he
    exact (engineStep_of_decode hw hd).trans (exec_of_failedCheck he)

/-- No error bit of s is clear in t, and a FIRST_ERR that is set in s is the same in t (R28). -/
def ErrorsKept (s t : State) : Prop :=
  s.err &&& t.err = s.err ∧ (s.firstErr ≠ 0 → t.firstErr = s.firstErr)

/-- Equal error records. -/
theorem errorsKept_of_eq {s t : State} (herr : t.err = s.err) (hfirst : t.firstErr = s.firstErr) : ErrorsKept s t :=
  ⟨by rw [herr, BitVec.and_self], fun _ => hfirst⟩

theorem errorsKept_raise (e : ErrorCode) (s : State) : ErrorsKept s (raise e s) := by
  refine ⟨?_, fun h => by rw [raise_firstErr, if_neg h]⟩
  ext i hi
  rw [raise_err, BitVec.getElem_and, BitVec.getElem_or]
  exact inf_sup_self

/-- No command but SRESET clears an error bit or changes a FIRST_ERR that is set (R28). -/
theorem exec_errorsKept {i : Instr} {s t : State} (hi : i ≠ .sreset) (h : exec i s = .next t) : ErrorsKept s t :=
  exec_elim h
    (hold := errorsKept_of_eq rfl rfl)
    (fails := fun e => errorsKept_raise e s)
    (done := errorsKept_of_eq rfl rfl)
    (single := fun _ _ _ => errorsKept_of_eq rfl rfl)
    (dual := fun _ _ _ _ _ => errorsKept_of_eq rfl rfl)
    (run := fun n _ _ _ => by
      obtain ⟨-, -, -, -, -, -, -, -, -, -, -, herr, hfirst, -⟩ := runWindows_frame n s.rp s
      exact errorsKept_of_eq herr hfirst)
    (reset := fun h => absurd h hi)

/-- Nor does the Engine's step of any other word. -/
theorem engineStep_errorsKept {s t : State} (hno : ∀ w, s.pending = some w → decodeWord w ≠ .ok .sreset)
    (h : engineStep s = .next t) : ErrorsKept s t :=
  engineStep_elim h
    (idle := errorsKept_of_eq rfl rfl)
    (illegal := errorsKept_raise .illegalCommand s)
    (command := fun w _ hw hi hexec => exec_errorsKept (fun hs => hno w hw (hs ▸ hi)) hexec)

/-- No Host action but reset writes the error record. -/
theorem hostAct_errors {a : HostAction} {s t : State} (ha : a ≠ .reset) (h : hostAct a s = some t) :
    t.err = s.err ∧ t.firstErr = s.firstErr :=
  hostAct_elim (P := fun t => t.err = s.err ∧ t.firstErr = s.firstErr) h
    (cmdWrite := fun _ => ⟨rfl, rfl⟩)
    (push := fun _ _ => ⟨rfl, rfl⟩)
    (pop := fun _ _ _ => ⟨rfl, rfl⟩)
    (read := fun _ => ⟨rfl, rfl⟩)
    (reset := fun h => absurd h ha)

/-- Settles O16: a word that fails is `raise` of its error, and only a reset clears what `raise` records. -/
theorem errorsAreSticky : Obligations.ErrorsAreSticky := by
  refine ⟨fun s w e hw he => ?_, fun _ _ => engineStep_errorsKept, fun _ _ _ => exec_errorsKept,
    fun _ _ _ => hostAct_errors⟩
  exact ⟨_, engineStep_of_wordError hw he, or_errorBit_and_ne_zero s.err e, raise_firstErr e s⟩

/-! ## STATUS -/

/-- Some error bit is set where ERR is not 0. -/
theorem bne_zero_iff_exists_bit {n : Nat} (x : BitVec n) : (x != 0) = true ↔ ∃ b < n, x.getLsbD b = true := by
  rw [bne_iff_ne]
  constructor
  · intro hne
    by_contra hall
    push Not at hall
    exact hne (BitVec.eq_of_getLsbD_eq fun b hb => by simpa using hall b hb)
  · rintro ⟨b, -, hb⟩ rfl
    simp at hb

/-- The four flags of STATUS, bits 0 to 3 (R27). -/
theorem statusWord_flags (s : State) :
    (statusWord s).getLsbD 0 = decide (s.phase = .ready) ∧
    (statusWord s).getLsbD 1 = (decide (s.phase = .ready) && decide (s.mode = .dual)) ∧
    (statusWord s).getLsbD 2 = (s.err != 0) ∧
    (statusWord s).getLsbD 3 = s.pending.isSome := by
  simp only [statusWord, BitVec.getLsbD_append, BitVec.getLsbD_ofBool]
  simp

/-- The bits above the low part of two joined words. -/
theorem getLsbD_append_add {m n : Nat} (x : BitVec m) (y : BitVec n) (k : Nat) :
    (x ++ y).getLsbD (n + k) = x.getLsbD k := by
  rw [BitVec.getLsbD_append, if_neg (by omega), Nat.add_sub_cancel_left]

/-- The fields of STATUS above the four flags (R27). -/
theorem statusWord_fields (s : State) (k : Nat) :
    (statusWord s).getLsbD (4 + k) = (0#19 ++ s.err ++ s.firstErr).getLsbD k := by
  rw [show 4 + k = 1 + (1 + (1 + (1 + k))) by omega]
  simp only [statusWord, getLsbD_append_add]

/-- FIRST_ERR is STATUS[7:4] (R27). -/
theorem statusWord_firstErr (s : State) {b : Nat} (hb : b < 4) :
    (statusWord s).getLsbD (4 + b) = s.firstErr.getLsbD b := by
  rw [statusWord_fields, BitVec.getLsbD_append, if_pos hb]

/-- ERR is STATUS[12:8], and zeros are above it (R27). -/
theorem statusWord_err (s : State) (b : Nat) : (statusWord s).getLsbD (8 + b) = s.err.getLsbD b := by
  rw [show 8 + b = 4 + (4 + b) by omega, statusWord_fields, getLsbD_append_add, BitVec.getLsbD_append]
  split_ifs with hb
  · rfl
  · rw [BitVec.getLsbD_zero, BitVec.getLsbD_of_ge _ _ (by omega)]

/-- Settles O50: field by field of the STATUS word. -/
theorem statusBits : Obligations.StatusBits := by
  refine ⟨fun s => ?_, by decide⟩
  obtain ⟨hready, hmode, herr, hpending⟩ := statusWord_flags s
  refine ⟨?_, ?_, ?_, ?_, fun b => statusWord_firstErr s, fun b _ => statusWord_err s b, fun b hb => ?_⟩
  · rw [hready, decide_eq_true_iff]
  · rw [hmode, Bool.and_eq_true, decide_eq_true_iff, decide_eq_true_iff]
  · rw [herr, bne_zero_iff_exists_bit]
  · rw [hpending, Option.isSome_iff_ne_none]
  · obtain ⟨k, rfl⟩ := Nat.exists_eq_add_of_le (show 8 ≤ b by omega)
    rw [statusWord_err]
    exact BitVec.getLsbD_of_ge _ _ (by omega)

/-! ## The transform buffers -/

/-- The buffer holds the product of the template and the window, in units of 2^-149, and its forward transform, in units
of 2^-150 (R31, R161, R162). -/
def HoldsTransform (b : FftBuf) (t : Template) (w : Window) : Prop :=
  (∀ j : Fin 512, intComplex b.input[j] = (2 : ℂ) ^ 149 * (intComplex t[j] * sampleComplex w[j])) ∧
  ∀ m : Fin 512, surdComplex 7 b.output[m] = (2 : ℂ) ^ 150 * realBins t w m

theorem transformStep_holdsTransform (t : Template) (w : Window) : HoldsTransform (transformStep t w) t w := by
  refine ⟨fun j => ?_, fun m => ?_⟩
  · exact_mod_cast product_complex t w j
  · exact_mod_cast transformStep_complex t w m

/-- At EXACT numerics the window step of a finite window is the exact one (R168). -/
theorem windowStep_exact {s : State} {p : BitVec 64} (hexact : s.params.numerics = .exact)
    (hfinite : finiteWindow (window s p) = true) : windowStep s p = exactWindow s (window s p) := by
  simp only [windowStep, hfinite, hexact, if_true]

/-- The buffer of slot 0 after the exact window step, in either mode. -/
theorem exactWindow_fft0 (s : State) (w : Window) : (exactWindow s w).fft0 = transformStep s.t0 w := by
  cases hmode : s.mode with
  | single => rw [exactWindow_single s w hmode]
  | dual =>
    obtain ⟨hfft0, -⟩ := dualWindow_cases (Config.freeWindow s.draws) (transformStep s.t0 w) (transformStep s.t1 w)
    rw [exactWindow_dual s w hmode, hfft0]

/-- The buffer of slot 1 in DUAL mode. -/
theorem exactWindow_fft1 {s : State} (w : Window) (hmode : s.mode = .dual) :
    (exactWindow s w).fft1 = transformStep s.t1 w := by
  obtain ⟨-, hfft1, -⟩ := dualWindow_cases (Config.freeWindow s.draws) (transformStep s.t0 w) (transformStep s.t1 w)
  rw [exactWindow_dual s w hmode, hfft1]

/-- Settles O36: each buffer that the exact window step writes is the transform step of its slot. That the model holds
the buffers in these units, and that SINGLE mode keeps FFTBUF1, are its readings (notes/assumptions/2.md, 5.md). -/
theorem transformBuffers : Obligations.TransformBuffers := by
  intro s p hexact hfinite
  have hstep := windowStep_exact hexact hfinite
  have h0 : HoldsTransform (windowStep s p).fft0 s.t0 (window s p) := by
    rw [hstep, exactWindow_fft0]
    exact transformStep_holdsTransform _ _
  have h1 (hmode : s.mode = .dual) : HoldsTransform (windowStep s p).fft1 s.t1 (window s p) := by
    rw [hstep, exactWindow_fft1 _ hmode]
    exact transformStep_holdsTransform _ _
  obtain ⟨hinput, houtput⟩ := h0
  refine ⟨hinput, houtput, h1, fun hmode => ?_⟩
  obtain ⟨-, -, hkept⟩ := windowStep_single p hmode
  exact hkept

/-! ## The configuration in READY -/

/-- t is in READY with the mode, the selectors, the codes and the templates of s. -/
def SameConfiguration (s t : State) : Prop :=
  t.phase = .ready ∧ t.mode = s.mode ∧ t.sel0 = s.sel0 ∧ t.sel1 = s.sel1 ∧ t.code0 = s.code0 ∧
    t.code1 = s.code1 ∧ t.t0 = s.t0 ∧ t.t1 = s.t1

/-- A state in READY has its own configuration, and so has every update of it that writes none of these fields. -/
theorem sameConfiguration_refl {s : State} (hready : s.phase = .ready) : SameConfiguration s s :=
  ⟨hready, rfl, rfl, rfl, rfl, rfl, rfl, rfl⟩

/-- Only the word 0xF0000000 decodes to SRESET (R76). -/
theorem eq_of_decodeWord_sreset {w : Word} (h : decodeWord w = .ok .sreset) : w = 0xF0000000 := by
  unfold decodeWord at h
  split_ifs at h with _ _ _ hw
  · cases h
  · cases h
  · cases h
  · exact hw

/-- A command in READY keeps the configuration, or is SRESET (R23, R204). -/
theorem exec_sameConfiguration {i : Instr} {s t : State} (hready : s.phase = .ready) (h : exec i s = .next t) :
    SameConfiguration s t ∨ (t.phase = .unconfigured ∧ i = .sreset) :=
  exec_elim (P := fun t => SameConfiguration s t ∨ (t.phase = .unconfigured ∧ i = .sreset)) h
    (hold := .inl (sameConfiguration_refl hready))
    (fails := fun _ => .inl (sameConfiguration_refl hready))
    (done := .inl (sameConfiguration_refl hready))
    (single := fun _ hphase _ => by cases hready.symm.trans hphase)
    (dual := fun _ _ hphase _ _ => by cases hready.symm.trans hphase)
    (run := fun n _ _ _ => by
      obtain ⟨hphase, hmode, hsel0, hsel1, hcode0, hcode1, ht0, ht1, -⟩ := runWindows_frame n s.rp s
      exact .inl ⟨hphase.trans hready, hmode, hsel0, hsel1, hcode0, hcode1, ht0, ht1⟩)
    (reset := fun hi => .inr ⟨rfl, hi⟩)

/-- The Engine's step in READY keeps the configuration, or SRESET was pending. -/
theorem engineStep_sameConfiguration {s t : State} (hready : s.phase = .ready) (h : engineStep s = .next t) :
    SameConfiguration s t ∨ (t.phase = .unconfigured ∧ s.pending = some 0xF0000000) :=
  engineStep_elim (P := fun t => SameConfiguration s t ∨ (t.phase = .unconfigured ∧ s.pending = some 0xF0000000)) h
    (idle := .inl (sameConfiguration_refl hready))
    (illegal := .inl (sameConfiguration_refl hready))
    (command := fun w i hw hi hexec => by
      refine (exec_sameConfiguration hready hexec).imp_right fun ⟨hphase, hs⟩ => ⟨hphase, ?_⟩
      subst hs
      rw [hw, eq_of_decodeWord_sreset hi])

/-- A Host action in READY keeps the configuration, or is the reset input (R221). -/
theorem hostAct_sameConfiguration {a : HostAction} {s t : State} (hready : s.phase = .ready)
    (h : hostAct a s = some t) : SameConfiguration s t ∨ (t.phase = .unconfigured ∧ a = .reset) :=
  hostAct_elim (P := fun t => SameConfiguration s t ∨ (t.phase = .unconfigured ∧ a = .reset)) h
    (cmdWrite := fun _ => .inl (sameConfiguration_refl hready))
    (push := fun _ _ => .inl (sameConfiguration_refl hready))
    (pop := fun _ _ _ => .inl (sameConfiguration_refl hready))
    (read := fun _ => .inl (sameConfiguration_refl hready))
    (reset := fun ha => .inr ⟨rfl, ha⟩)

/-- Settles O58: by whose turn the step is. -/
theorem readyIsImmutable : Obligations.ReadyIsImmutable := by
  intro s t hready h
  rcases step_cases s with ⟨rest, hengine⟩ | ⟨a, rest, u, hagenda, hact, hhost⟩
  · exact (engineStep_sameConfiguration (s := { s with agenda := rest }) hready (hengine.symm.trans h)).imp_right
      fun ⟨hphase, hpending⟩ => ⟨hphase, .inl hpending⟩
  · rw [← Host.Outcome.next.inj (hhost.symm.trans h)]
    exact (hostAct_sameConfiguration (s := { s with agenda := rest }) hready hact).imp_right
      fun ⟨hphase, ha⟩ => ⟨hphase, .inr ⟨rest, ha ▸ hagenda⟩⟩

/-! ## The streams -/

/-- RP, the live samples, OUT and LAST_OUT are as they were. -/
def SameStreams (s t : State) : Prop :=
  t.rp = s.rp ∧ t.inStream = s.inStream ∧ t.outFifo = s.outFifo ∧ t.lastOut = s.lastOut

/-- RP has advanced by n, n samples are discarded and n words appended (R171). -/
def StreamsMovedBy (n : Nat) (s t : State) : Prop :=
  t.rp = s.rp + BitVec.ofNat 64 n ∧ t.inStream = s.inStream.drop n ∧ s.outFifo <+: t.outFifo ∧
    t.outFifo.length = s.outFifo.length + n

/-- A RUN N that is enabled moves the streams by N (R171). -/
theorem run_streamsMovedBy (n : Nat) (s : State) :
    StreamsMovedBy n s (complete (consume n (runWindows n s.rp s))) := by
  obtain ⟨-, -, -, -, -, -, -, -, hrp, hin, -⟩ := runWindows_frame n s.rp s
  obtain ⟨ys, hlen, hout, -⟩ := runWindows_out n s.rp s
  refine ⟨by simp [hrp], by simp [hin], by simp [hout], by simp [hout, hlen]⟩

/-- Settles O59: by the outcomes of a command, of which only an enabled RUN moves the streams. -/
theorem streamsMoveByRun : Obligations.StreamsMoveByRun := by
  intro i s t hi h
  exact exec_elim (P := fun t => SameStreams s t ∨ ∃ n, i = .run n ∧ StreamsMovedBy n s t) h
    (hold := .inl ⟨rfl, rfl, rfl, rfl⟩)
    (fails := fun _ => .inl ⟨rfl, rfl, rfl, rfl⟩)
    (done := .inl ⟨rfl, rfl, rfl, rfl⟩)
    (single := fun _ _ _ => .inl ⟨rfl, rfl, rfl, rfl⟩)
    (dual := fun _ _ _ _ _ => .inl ⟨rfl, rfl, rfl, rfl⟩)
    (run := fun n hn _ _ => .inr ⟨n, hn, run_streamsMovedBy n s⟩)
    (reset := fun hs => absurd hs hi)

end Sys2Proof.Proofs

/-! # The ports and the readback space

A command as bytes (R59, R70), the Host's four port actions as steps (R54, R56, R57, R58), the words of the readback
space (R55), and which of them each command can change (R141, R142, R171, R201). -/

namespace Sys2Proof.Proofs

open Sys2Proof.Machine Sys2Proof.Safety Sys2Proof.Laws

/-! ## A command as bytes -/

/-- A selector that fits its field is read back from it (R74). -/
theorem selectorField_toInt {sel : Int} (h : selectorFits sel = true) : (selectorField sel).toInt = sel := by
  simp only [selectorFits, Bool.and_eq_true, decide_eq_true_eq] at h
  rw [selectorField, BitVec.toInt_ofInt, Int.bmod_eq_of_le] <;> omega

/-- The word of a command whose operands fit decodes to the command (R76, R80). -/
theorem decodeWord_encode {i : Instr} (h : i.wellFormed = true) : decodeWord (encode i) = .ok i := by
  cases i with
  | cfgSingle sel => rw [encode, decodeWord_single, selectorField_toInt h]
  | cfgDual sel0 sel1 =>
    obtain ⟨h0, h1⟩ := Bool.and_eq_true_iff.mp h
    rw [encode, decodeWord_dual, selectorField_toInt h0, selectorField_toInt h1]
  | run n =>
    have hn : n ≤ 65535 := of_decide_eq_true h
    rw [encode, decodeWord_run, BitVec.toNat_ofNat, Nat.mod_eq_of_lt (by omega)]
  | sreset => decide

/-- A byte string that starts with the bytes of a word decodes as the word does, and the rest is left over (R70). -/
theorem decodeBytes_wordBytes_append {w : Word} {i : Instr} (h : decodeWord w = .ok i) (rest : List Byte) :
    decodeBytes (wordBytes w ++ rest) = .ok (i, rest) := by
  simp only [wordBytes, List.cons_append, List.nil_append, decodeBytes, wordOfBytes_wordBytes, h]

/-- Settles O2: the command's word decodes, and its bytes are the word's. The byte order is the model's reading of R59
for commands (notes/assumptions/11.md). -/
theorem decodeBytesOfEncode : Obligations.DecodeBytesOfEncode := fun _ rest h =>
  decodeBytes_wordBytes_append (decodeWord_encode h) rest

/-! ## The Host's ports -/

/-- The sample of an item whose low half is the real part (R59). -/
theorem sampleOfItem_append (im re : Word) : sampleOfItem (im ++ re) = ⟨re, im⟩ := by
  rw [sampleOfItem]
  congr 1
  · exact BitVec.extractLsb'_append_eq_right
  · exact BitVec.extractLsb'_append_eq_left

/-- There is room for one more sample where every bound is above LIVE (R54). -/
theorem hostPush_of_room {s : State} (item : BitVec 64)
    (h : ∀ c, s.params.inCapacity = some c → s.inStream.length < c) :
    hostPush item s = some { s with inStream := s.inStream ++ [sampleOfItem item] } :=
  if_pos ((capacityAtLeast_iff _ _).mpr h)

/-- PUSH holds at LIVE = IN_CAPACITY (R54). -/
theorem hostPush_of_full {s : State} (item : BitVec 64) (h : s.params.inCapacity = some s.inStream.length) :
    hostPush item s = none :=
  if_neg fun hroom => Nat.lt_irrefl _ ((capacityAtLeast_iff _ _).mp hroom _ h)

theorem hostPop_of_cons {s : State} {v : Word} {vs : List Word} (h : s.outFifo = v :: vs) :
    hostPop s = some { s with outFifo := vs, received := s.received ++ [v] } := by
  simp only [hostPop, h]

theorem hostPop_of_empty {s : State} (h : s.outFifo = []) : hostPop s = none := by
  simp only [hostPop, h]

/-- Settles O45: PUSH by whether there is room. That the Engine has the turn during a hold is the model's scheduling
(notes/assumptions/7.md). -/
protected theorem hostPush : Obligations.HostPush := by
  intro s re im rest hagenda
  refine ⟨fun hroom => ?_, fun hfull => ?_⟩
  · rw [← sampleOfItem_append im re]
    exact step_of_host_acts hagenda (hostPush_of_room (s := { s with agenda := rest }) _ hroom)
  · exact step_of_host_holds hagenda (hostPush_of_full (s := { s with agenda := rest }) _ hfull)

/-- Settles O46: POP by whether OUT has a head. The hold's turn and the list of received words are the model's own
(notes/assumptions/7.md). -/
protected theorem hostPop : Obligations.HostPop := fun s rest hagenda =>
  ⟨fun _ _ hout => step_of_host_acts hagenda (hostPop_of_cons (s := { s with agenda := rest }) hout),
    fun hempty => step_of_host_holds hagenda (hostPop_of_empty (s := { s with agenda := rest }) hempty)⟩

/-- Settles O47: a command write by whether PENDING is empty. That the Engine has the turn during a hold is the model's
scheduling (notes/assumptions/7.md). -/
theorem hostCommandWrite : Obligations.HostCommandWrite := fun _ _ _ hagenda =>
  ⟨fun hnone => step_of_host_acts hagenda (if_pos hnone),
    fun v hsome => step_of_host_holds hagenda (if_neg (by rw [hsome]; exact Option.some_ne_none v))⟩

/-- Settles O48: no readback word reads the agenda or the words received. The list of those words is the model's own
(notes/assumptions/7.md). -/
protected theorem hostRead : Obligations.HostRead := fun _ _ _ hagenda =>
  ⟨_, step_of_host_acts hagenda rfl, rfl, fun _ => rfl, rfl⟩

/-- Settles O49: each action by the lemma that says what it can do. -/
theorem hostActionFrame : Obligations.HostActionFrame := by
  refine fun s t => ⟨fun w h => ?_, fun re im h => ?_, fun h => ?_, fun addr h => ?_⟩
  · rcases hostCmdWrite_eq w s with ⟨hnone, hu⟩ | ⟨-, hu⟩
    · exact ⟨hnone, Option.some.inj (h.symm.trans hu)⟩
    · cases hu.symm.trans h
  · rcases hostPush_eq (im ++ re) s with ⟨-, hu⟩ | ⟨-, hu⟩
    · rw [sampleOfItem_append] at hu
      exact Option.some.inj (h.symm.trans hu)
    · cases hu.symm.trans h
  · rcases hostPop_eq s with ⟨v, vs, hout, hu⟩ | ⟨-, hu⟩
    · cases hu.symm.trans h
      exact ⟨v, hout, rfl⟩
    · cases hu.symm.trans h
  · exact (Option.some.inj h).symm

/-! ## The words of the readback space -/

theorem countWord_toNat (n : Nat) : (countWord n).toNat = min n 0xFFFFFFFF := by
  rw [countWord, BitVec.toNat_ofNat, Nat.mod_eq_of_lt (by omega)]

/-- Reserved addresses read 0 (R55, R56). -/
theorem memRead_reserved (s : State) {addr : BitVec 12}
    (h : (0x00C ≤ addr.toNat ∧ addr.toNat ≤ 0x00F) ∨ (0x050 ≤ addr.toNat ∧ addr.toNat ≤ 0x3FF) ∨
      0xC00 ≤ addr.toNat) : memRead s addr = 0 := by
  rcases h with h | h | h <;> simp (disch := omega) only [memRead, if_neg, if_pos]

/-- Word i of the codes and of the code tables (R55). -/
theorem memRead_chipWords (s : State) {i : Nat} (hi : i < 16) :
    memRead s (BitVec.ofNat 12 (0x010 + i)) = chipWord s.code0 i ∧
    memRead s (BitVec.ofNat 12 (0x020 + i)) = chipWord s.code1 i ∧
    memRead s (BitVec.ofNat 12 (0x030 + i)) = chipWord s.params.mseq1 i ∧
    memRead s (BitVec.ofNat 12 (0x040 + i)) = chipWord s.params.mseq2 i := by
  simp (disch := omega) only [memRead, BitVec.toNat_ofNat, Nat.mod_eq_of_lt, if_neg, if_pos,
    Nat.add_sub_cancel_left, and_self]

/-- Word i of the templates (R55). -/
theorem memRead_templateWords (s : State) {i : Nat} (hi : i < 1024) :
    memRead s (BitVec.ofNat 12 (0x400 + i)) = templateWord s.t0 i ∧
    memRead s (BitVec.ofNat 12 (0x800 + i)) = templateWord s.t1 i := by
  simp (disch := omega) only [memRead, BitVec.toNat_ofNat, Nat.mod_eq_of_lt, if_neg, if_pos,
    Nat.add_sub_cancel_left, and_self]

/-- Settles O51: the map of the readback space at each register, and the reserved ranges. -/
theorem readbackRegisters : Obligations.ReadbackRegisters := by
  intro s
  have hrp : s.rp.extractLsb' 32 32 ++ s.rp.extractLsb' 0 32 = s.rp :=
    (BitVec.extractLsb'_append_extractLsb'_eq_extractLsb' rfl).trans BitVec.extractLsb'_eq_self
  have hin : memRead s 0x00A = capacityWord s.params.inCapacity := rfl
  have hout : memRead s 0x00B = capacityWord s.params.outCapacity := rfl
  have hidx0 : (memRead s 0x006).toNat = s.idx0.toNat := BitVec.toNat_setWidth_of_le (b := s.idx0) (by decide)
  have hidx1 : (memRead s 0x007).toNat = s.idx1.toNat := BitVec.toNat_setWidth_of_le (b := s.idx1) (by decide)
  refine ⟨rfl, rfl, rfl, hrp, rfl, hidx0, hidx1, countWord_toNat _, countWord_toNat _, fun c hc => ?_, fun hc => ?_,
    fun c hc => ?_, fun hc => ?_, fun _ => memRead_reserved s⟩
  · exact hin ▸ hc ▸ countWord_toNat c
  · rw [hin, hc]
    rfl
  · exact hout ▸ hc ▸ countWord_toNat c
  · rw [hout, hc]
    rfl

/-- Bit b of word i of a chip sequence is chip 32 i + b (R55, decision D45). -/
theorem chipWord_getLsbD {n : Nat} (chips : BitVec n) (i : Nat) {b : Nat} (hb : b < 32) :
    (chipWord chips i).getLsbD b = chips.getLsbD (32 * i + b) := by
  rw [chipWord, BitVec.getLsbD_ofFnLE]
  simp [hb]

/-- Chip k is bit k mod 32 of word k div 32 (R55). -/
theorem chipWord_chip {n : Nat} (chips : BitVec n) (k : Nat) :
    (chipWord chips (k / 32)).getLsbD (k % 32) = chips.getLsbD k := by
  rw [chipWord_getLsbD chips _ (Nat.mod_lt k (by decide)), Nat.div_add_mod]

/-- The last bit of the last word of a code table is past its 511 chips. -/
theorem chipWord_last (table : CodeTable) : (chipWord table 15).getLsbD 31 = false := by
  rw [chipWord_getLsbD table 15 (by decide)]
  exact BitVec.getLsbD_of_ge _ _ (by decide)

/-- Settles O52: each table's words, then the chips of a word. -/
theorem readbackChips : Obligations.ReadbackChips := by
  intro s
  refine ⟨fun k hk => ?_, fun k hk => ?_, ?_⟩
  · obtain ⟨hcode0, hcode1, -, -⟩ := memRead_chipWords s (show k / 32 < 16 by omega)
    rw [hcode0, hcode1]
    exact ⟨chipWord_chip s.code0 k, chipWord_chip s.code1 k⟩
  · obtain ⟨-, -, hmseq1, hmseq2⟩ := memRead_chipWords s (show k / 32 < 16 by omega)
    rw [hmseq1, hmseq2]
    exact ⟨chipWord_chip s.params.mseq1 k, chipWord_chip s.params.mseq2 k⟩
  · obtain ⟨-, -, hmseq1, hmseq2⟩ := memRead_chipWords s (show 15 < 16 by decide)
    exact ⟨hmseq1 ▸ chipWord_last s.params.mseq1, hmseq2 ▸ chipWord_last s.params.mseq2⟩

/-! ## The parts of a template -/

/-- What each part of a template is: 0, +1 or -1 (R127, R146). -/
def UnitPart (z : Int) : Prop := z = 0 ∨ z = 1 ∨ z = -1

/-- Every part of the template is 0, +1 or -1. -/
def UnitParts (t : Template) : Prop := ∀ (k : Nat) (_ : k < 512), UnitPart t[k].re ∧ UnitPart t[k].im

theorem unitPart_zero : UnitPart 0 := .inl rfl

theorem unitPart_of_isUnit {z : Int} (h : IsUnit z) : UnitPart z := .inr (Int.isUnit_iff.mp h)

theorem diffChip_isUnit (code : Code) (k : Nat) : IsUnit (diffChip code k) := by
  rw [Int.isUnit_iff]
  cases k <;> rw [diffChip] <;> split <;> simp

/-- The in-phase rail is +1 or -1 (R122). -/
theorem iRail_isUnit (code : Code) (k : Nat) : IsUnit (iRail code k) := by
  induction k with
  | zero => exact isUnit_one
  | succ k ih =>
    rw [iRail]
    split
    · exact (diffChip_isUnit code _).mul ih
    · exact ih

/-- The quadrature rail is +1 or -1 (R123). -/
theorem qRail_isUnit (code : Code) (k : Nat) : IsUnit (qRail code k) := by
  induction k with
  | zero => exact diffChip_isUnit code 0
  | succ k ih =>
    rw [qRail]
    split
    · exact (diffChip_isUnit code _).mul ih
    · exact ih

/-- One part of a modulated chip is a rail's value or its opposite, and the other is 0 (R124). -/
theorem modulatedSample_unitParts (code : Code) (k : Nat) :
    UnitPart (modulatedSample code k).re ∧ UnitPart (modulatedSample code k).im := by
  have hi := iRail_isUnit code k
  have hq := qRail_isUnit code k
  rw [modulatedSample]
  split
  · exact ⟨unitPart_of_isUnit hi, unitPart_zero⟩
  · exact ⟨unitPart_zero, unitPart_of_isUnit hq⟩
  · exact ⟨unitPart_of_isUnit hi.neg, unitPart_zero⟩
  · exact ⟨unitPart_zero, unitPart_of_isUnit hq.neg⟩

theorem unitPart_neg {z : Int} (h : UnitPart z) : UnitPart (-z) := by
  unfold UnitPart at *
  omega

/-- The loaded template is the waveform's conjugate (R143). -/
theorem unitParts_loadTemplate (code : Code) : UnitParts (loadTemplate code) := by
  intro k hk
  obtain ⟨hre, him⟩ := modulatedSample_unitParts code k
  simp only [loadTemplate, modulate, Fin.getElem_fin, Vector.getElem_ofFn, cxConj]
  exact ⟨hre, unitPart_neg him⟩

theorem unitParts_zeroTemplate : UnitParts zeroTemplate := by
  intro k hk
  simp only [zeroTemplate, Vector.getElem_replicate]
  exact ⟨unitPart_zero, unitPart_zero⟩

/-- In a state of the invariant each slot's template is empty or loaded (R30, R146). -/
theorem unitParts_of_invariant {s : State} (h : Invariant s) : UnitParts s.t0 ∧ UnitParts s.t1 := by
  constructor
  · cases hphase : s.phase with
    | unconfigured =>
      obtain ⟨-, ⟨-, -, ht⟩, -⟩ := h.unconfigured hphase
      exact ht ▸ unitParts_zeroTemplate
    | ready =>
      obtain ⟨-, -, ht⟩ := h.slot0 hphase
      exact ht ▸ unitParts_loadTemplate s.code0
  · cases hmode : s.mode with
    | single =>
      obtain ⟨⟨-, -, ht⟩, -⟩ := h.single hmode
      exact ht ▸ unitParts_zeroTemplate
    | dual =>
      obtain ⟨-, -, ht⟩ := h.slot1 hmode
      exact ht ▸ unitParts_loadTemplate s.code1

/-- The binary32 words of the three parts (R55). -/
theorem intWord_unitPart {z : Int} (h : UnitPart z) :
    intWord z = if z = 0 then 0#32 else if z = 1 then 0x3F800000#32 else 0xBF800000#32 := by
  obtain rfl | rfl | rfl := h <;> decide +kernel

/-- Word 2 k of a template is the real part of entry k, and word 2 k + 1 its imaginary part (R55). -/
theorem templateWord_parts (t : Template) {k : Nat} (hk : k < 512) :
    templateWord t (2 * k) = intWord t[k].re ∧ templateWord t (2 * k + 1) = intWord t[k].im := by
  have heven : 2 * k / 2 = k ∧ 2 * k % 2 = 0 := by omega
  have hodd : (2 * k + 1) / 2 = k ∧ (2 * k + 1) % 2 = 1 := by omega
  simp [templateWord, heven, hodd, hk]

/-- Settles O53: the words of a template's parts, which the invariant makes 0, +1 or -1. -/
theorem readbackTemplates : Obligations.ReadbackTemplates := by
  intro s hinv k hk
  obtain ⟨h0, h1⟩ := unitParts_of_invariant hinv
  obtain ⟨hre0, him0⟩ := h0 k hk
  obtain ⟨hre1, him1⟩ := h1 k hk
  obtain ⟨heven0, heven1⟩ := memRead_templateWords s (show 2 * k < 1024 by omega)
  obtain ⟨hodd0, hodd1⟩ := memRead_templateWords s (show 2 * k + 1 < 1024 by omega)
  obtain ⟨wre0, wim0⟩ := templateWord_parts s.t0 hk
  obtain ⟨wre1, wim1⟩ := templateWord_parts s.t1 hk
  refine ⟨?_, ?_, ?_, ?_, ?_⟩
  · simp only [List.forall_mem_cons, List.not_mem_nil, false_imp_iff, implies_true, and_true]
    exact ⟨hre0, him0, hre1, him1⟩
  · exact heven0.trans (wre0.trans (intWord_unitPart hre0))
  · exact hodd0.trans (wim0.trans (intWord_unitPart him0))
  · exact heven1.trans (wre1.trans (intWord_unitPart hre1))
  · exact hodd1.trans (wim1.trans (intWord_unitPart him1))

/-! ## What a command can change in the readback space -/

/-- The readback words that a command can change, by address: always STATUS; a RUN 0x003 to 0x009 too, CFG.SINGLE SEL0,
CODE0 and T0, CFG.DUAL both selectors, codes and templates (R141, R142, R171), and SRESET all of these (R220). -/
def mayChange (a : Nat) : Instr → Prop
  | .run _ => a = 0 ∨ (0x003 ≤ a ∧ a ≤ 0x009)
  | .cfgSingle _ => a ≤ 0x001 ∨ (0x010 ≤ a ∧ a ≤ 0x01F) ∨ (0x400 ≤ a ∧ a ≤ 0x7FF)
  | .cfgDual _ _ => a ≤ 0x002 ∨ (0x010 ≤ a ∧ a ≤ 0x02F) ∨ (0x400 ≤ a ∧ a ≤ 0xBFF)
  | .sreset => a ≤ 0x009 ∨ (0x010 ≤ a ∧ a ≤ 0x02F) ∨ (0x400 ≤ a ∧ a ≤ 0xBFF)

theorem mayChange_zero (i : Instr) : mayChange 0 i := by cases i <;> simp [mayChange]

/-- Two states with the same parameters read the same at an address if they agree in what the address shows (R55). -/
theorem memRead_congr {s t : State} {addr : BitVec 12} (params : t.params = s.params)
    (status : addr.toNat = 0 → statusWord t = statusWord s)
    (sel0 : addr.toNat = 1 → t.sel0 = s.sel0) (sel1 : addr.toNat = 2 → t.sel1 = s.sel1)
    (streams : 0x003 ≤ addr.toNat ∧ addr.toNat ≤ 0x009 → SameStreams s t)
    (peaks : 0x006 ≤ addr.toNat ∧ addr.toNat ≤ 0x007 → t.idx0 = s.idx0 ∧ t.idx1 = s.idx1)
    (code0 : 0x010 ≤ addr.toNat ∧ addr.toNat ≤ 0x01F → t.code0 = s.code0)
    (code1 : 0x020 ≤ addr.toNat ∧ addr.toNat ≤ 0x02F → t.code1 = s.code1)
    (t0 : 0x400 ≤ addr.toNat ∧ addr.toNat ≤ 0x7FF → t.t0 = s.t0)
    (t1 : 0x800 ≤ addr.toNat ∧ addr.toNat ≤ 0xBFF → t.t1 = s.t1) : memRead t addr = memRead s addr := by
  unfold memRead
  dsimp only
  generalize addr.toNat = a at *
  rw [params]
  exact
    ite_congr rfl status fun _ =>
    ite_congr rfl sel0 fun _ =>
    ite_congr rfl sel1 fun _ =>
    ite_congr rfl (fun _ => by obtain ⟨hrp, -⟩ := streams (by omega); rw [hrp]) fun _ =>
    ite_congr rfl (fun _ => by obtain ⟨hrp, -⟩ := streams (by omega); rw [hrp]) fun _ =>
    ite_congr rfl (fun _ => by obtain ⟨-, -, -, hlast⟩ := streams (by omega); rw [hlast]) fun _ =>
    ite_congr rfl (fun _ => by obtain ⟨hidx0, -⟩ := peaks (by omega); rw [hidx0]) fun _ =>
    ite_congr rfl (fun _ => by obtain ⟨-, hidx1⟩ := peaks (by omega); rw [hidx1]) fun _ =>
    ite_congr rfl (fun _ => by obtain ⟨-, hin, -⟩ := streams (by omega); rw [live, hin, live]) fun _ =>
    ite_congr rfl (fun _ => by obtain ⟨-, -, hout, -⟩ := streams (by omega); rw [hout]) fun _ =>
    ite_congr rfl (fun _ => rfl) fun _ =>
    ite_congr rfl (fun _ => rfl) fun _ =>
    ite_congr rfl (fun _ => rfl) fun _ =>
    ite_congr rfl (fun _ => by rw [code0 (by omega)]) fun _ =>
    ite_congr rfl (fun _ => by rw [code1 (by omega)]) fun _ =>
    ite_congr rfl (fun _ => rfl) fun _ =>
    ite_congr rfl (fun _ => rfl) fun _ =>
    ite_congr rfl (fun _ => rfl) fun _ =>
    ite_congr rfl (fun _ => by rw [t0 (by omega)]) fun _ =>
    ite_congr rfl (fun _ => by rw [t1 (by omega)]) fun _ => rfl

/-- Two states that differ in nothing but STATUS read the same elsewhere. -/
theorem memRead_eq_of_status {s : State} (pending : Option Word) (err : BitVec 5) (firstErr : BitVec 4)
    {addr : BitVec 12} (h : addr.toNat ≠ 0) :
    memRead { s with pending := pending, err := err, firstErr := firstErr } addr = memRead s addr :=
  memRead_congr (params := rfl) (status := fun h0 => absurd h0 h) (sel0 := fun _ => rfl) (sel1 := fun _ => rfl)
    (streams := fun _ => ⟨rfl, rfl, rfl, rfl⟩) (peaks := fun _ => ⟨rfl, rfl⟩) (code0 := fun _ => rfl)
    (code1 := fun _ => rfl) (t0 := fun _ => rfl) (t1 := fun _ => rfl)

/-- A recorded error shows in STATUS only (R201). -/
theorem memRead_raise (e : ErrorCode) (s : State) {addr : BitVec 12} (h : addr.toNat ≠ 0) :
    memRead (raise e s) addr = memRead s addr := memRead_eq_of_status _ _ _ h

/-- The end of a command shows in STATUS only (R27, R39). -/
theorem memRead_complete (s : State) {addr : BitVec 12} (h : addr.toNat ≠ 0) :
    memRead (complete s) addr = memRead s addr := memRead_eq_of_status _ _ _ h

/-- CFG.SINGLE writes slot 0 (R141). -/
theorem memRead_configureSingle (sel : Int) (s : State) {addr : BitVec 12}
    (h : ¬mayChange addr.toNat (.cfgSingle sel)) : memRead (configureSingle sel s) addr = memRead s addr := by
  simp only [mayChange] at h
  exact memRead_congr (params := rfl) (status := by omega) (sel0 := by omega) (sel1 := fun _ => rfl)
    (streams := fun _ => ⟨rfl, rfl, rfl, rfl⟩) (peaks := fun _ => ⟨rfl, rfl⟩) (code0 := by omega)
    (code1 := fun _ => rfl) (t0 := by omega) (t1 := fun _ => rfl)

/-- CFG.DUAL writes both slots (R142). -/
theorem memRead_configureDual (sel0 sel1 : Int) (s : State) {addr : BitVec 12}
    (h : ¬mayChange addr.toNat (.cfgDual sel0 sel1)) : memRead (configureDual sel0 sel1 s) addr = memRead s addr := by
  simp only [mayChange] at h
  exact memRead_congr (params := rfl) (status := by omega) (sel0 := by omega) (sel1 := by omega)
    (streams := fun _ => ⟨rfl, rfl, rfl, rfl⟩) (peaks := fun _ => ⟨rfl, rfl⟩) (code0 := by omega)
    (code1 := by omega) (t0 := by omega) (t1 := by omega)

/-- RUN writes the streams, LAST_OUT and the peak bins (R171). -/
theorem memRead_run (n : Nat) (s : State) {addr : BitVec 12} (h : ¬mayChange addr.toNat (.run n)) :
    memRead (consume n (runWindows n s.rp s)) addr = memRead s addr := by
  simp only [mayChange] at h
  obtain ⟨-, -, hsel0, hsel1, hcode0, hcode1, ht0, ht1, -, -, -, -, -, hparams, -⟩ := runWindows_frame n s.rp s
  exact memRead_congr (params := hparams) (status := by omega) (sel0 := fun _ => hsel0) (sel1 := fun _ => hsel1)
    (streams := by omega) (peaks := by omega) (code0 := fun _ => hcode0) (code1 := fun _ => hcode1)
    (t0 := fun _ => ht0) (t1 := fun _ => ht1)

/-- SRESET writes all that the readback space shows but the parameters (R220). -/
theorem memRead_resetBlock (s : State) {addr : BitVec 12} (h : ¬mayChange addr.toNat .sreset) :
    memRead (resetBlock s) addr = memRead s addr := by
  simp only [mayChange] at h
  exact memRead_congr (params := rfl) (status := by omega) (sel0 := by omega) (sel1 := by omega)
    (streams := by omega) (peaks := by omega) (code0 := by omega) (code1 := by omega) (t0 := by omega)
    (t1 := by omega)

/-- A command leaves every readback word as it was but for those it may change. -/
theorem exec_memRead {i : Instr} {s t : State} {addr : BitVec 12} (hexec : exec i s = .next t)
    (h : ¬mayChange addr.toNat i) : memRead t addr = memRead s addr := by
  have h0 : addr.toNat ≠ 0 := fun h0 => h (h0 ▸ mayChange_zero i)
  have next {u : State} (hu : exec i s = .next u) (hread : memRead u addr = memRead s addr) :
      memRead t addr = memRead s addr := Host.Outcome.next.inj (hu.symm.trans hexec) ▸ hread
  rcases exec_cases i s with hu | ⟨e, hu⟩ | hu | ⟨sel, rfl, -, -, hu⟩ | ⟨sel0, sel1, rfl, -, -, -, hu⟩ |
    ⟨n, rfl, -, -, hu⟩ | ⟨rfl, hu⟩
  · exact next hu rfl
  · exact next hu (memRead_raise e s h0)
  · exact next hu (memRead_complete s h0)
  · exact next hu ((memRead_complete _ h0).trans (memRead_configureSingle sel s h))
  · exact next hu ((memRead_complete _ h0).trans (memRead_configureDual sel0 sel1 s h))
  · exact next hu ((memRead_complete _ h0).trans (memRead_run n s h))
  · exact next hu (memRead_resetBlock s h)

/-- Settles O54: what a recorded error shows in, and the frame of each command in the readback space. -/
theorem readbackFrame : Obligations.ReadbackFrame := by
  intro s t addr
  have toNat_ne_zero (hne : addr ≠ 0) : addr.toNat ≠ 0 := fun h => hne (BitVec.eq_of_toNat_eq h)
  refine ⟨fun e herr hne => ?_, fun n hexec hne hrun => exec_memRead hexec ?_,
    fun sel hexec hsel hcode ht => exec_memRead hexec ?_,
    fun sel0 sel1 hexec hsel hcode ht => exec_memRead hexec ?_⟩
  · exact (congrArg (memRead · addr) herr).trans (memRead_raise e s (toNat_ne_zero hne))
  · exact not_or.mpr ⟨toNat_ne_zero hne, hrun⟩
  · exact not_or.mpr ⟨by omega, not_or.mpr ⟨hcode, ht⟩⟩
  · exact not_or.mpr ⟨by omega, not_or.mpr ⟨hcode, ht⟩⟩

end Sys2Proof.Proofs

/-! # The encoding

Every row of the opcode map at once (R76, R77): which row a word selects, what the decoder reads from a selected row,
and how the row's fields give the word back. -/

namespace Sys2Proof.Proofs

open Sys2Proof.Machine Sys2Proof.Laws

/-! ## The rows of the opcode map -/

/-- The word selects the command's row of R76. -/
def SelectsRow (w : Word) (i : Instr) : Prop := w &&& opcodeMask i = opcodeMatch i

/-- The command of i's row with the operands that the word's fields hold (R71, R72). -/
def withFieldsOf (w : Word) : Instr → Instr
  | .cfgSingle _ => .cfgSingle (selAOf w)
  | .cfgDual _ _ => .cfgDual (selAOf w) (selBOf w)
  | .run _ => .run (countOf w)
  | .sreset => .sreset

/-- The SRESET row fixes every bit. -/
theorem selectsRow_sreset_iff (w : Word) : SelectsRow w .sreset ↔ w = 0xF0000000#32 := by
  rw [SelectsRow, opcodeMask, show 0xFFFFFFFF#32 = BitVec.allOnes 32 from rfl, BitVec.and_allOnes, opcodeMatch]

/-- A row fixes the opcode in bits 31 to 28 and its match has no other bit, so a word selects rows of one match only. -/
theorem opcodeMatch_of_selectsRow {w : Word} {i : Instr} (h : SelectsRow w i) :
    opcodeMatch i = w &&& 0xF0000000#32 := by
  have hmatch : opcodeMatch i = opcodeMatch i &&& 0xF0000000#32 := by
    cases i <;> simp only [opcodeMatch] <;> decide
  have hmask : opcodeMask i &&& 0xF0000000#32 = 0xF0000000#32 := by
    cases i <;> simp only [opcodeMask] <;> decide
  rw [hmatch, ← h, BitVec.and_assoc, hmask]

/-- A word decodes to a command whose row it selects, with the operands of its fields, or selects no row and is refused
(R77). -/
theorem decodeWord_cases (w : Word) :
    (∃ i, SelectsRow w i ∧ decodeWord w = .ok (withFieldsOf w i)) ∨
      ((∀ i, ¬SelectsRow w i) ∧ ∃ e, decodeWord w = .error e) := by
  by_cases hsingle : w &&& 0xFFFFFC00#32 = 0x10000000#32
  · exact .inl ⟨.cfgSingle 0, hsingle, by rw [decodeWord, if_pos hsingle, withFieldsOf]⟩
  by_cases hdual : w &&& 0xFC00FC00#32 = 0x20000000#32
  · exact .inl ⟨.cfgDual 0 0, hdual, by rw [decodeWord, if_neg hsingle, if_pos hdual, withFieldsOf]⟩
  by_cases hrun : w &&& 0xFFFF0000#32 = 0x30000000#32
  · exact .inl ⟨.run 0, hrun, by rw [decodeWord, if_neg hsingle, if_neg hdual, if_pos hrun, withFieldsOf]⟩
  by_cases hsreset : w = 0xF0000000#32
  · exact .inl ⟨.sreset, (selectsRow_sreset_iff w).mpr hsreset, by rw [hsreset]; rfl⟩
  refine .inr ⟨fun i => ?_, ?_⟩
  · cases i with
    | cfgSingle _ => exact hsingle
    | cfgDual _ _ => exact hdual
    | run _ => exact hrun
    | sreset => exact (selectsRow_sreset_iff w).not.mpr hsreset
  · rw [decodeWord, if_neg hsingle, if_neg hdual, if_neg hrun, if_neg hsreset]
    split
    · exact ⟨_, rfl⟩
    · exact ⟨_, rfl⟩

/-- The command's row has the mask and the match whatever its operands. -/
theorem selectsRow_withFieldsOf {w : Word} {i : Instr} (h : SelectsRow w i) : SelectsRow w (withFieldsOf w i) := by
  cases i <;> exact h

theorem withFieldsOf_idem (w : Word) (i : Instr) : withFieldsOf w (withFieldsOf w i) = withFieldsOf w i := by
  cases i <;> rfl

/-- What a word decodes to is the command of a row it selects, read from the word's fields (R71 to R77). -/
theorem selectsRow_of_decodeWord {w : Word} {i : Instr} (h : decodeWord w = .ok i) :
    SelectsRow w i ∧ i = withFieldsOf w i := by
  rcases decodeWord_cases w with ⟨j, hrow, hok⟩ | ⟨-, e, herror⟩
  · cases hok.symm.trans h
    exact ⟨selectsRow_withFieldsOf hrow, (withFieldsOf_idem w j).symm⟩
  · cases herror.symm.trans h

/-- A word decodes exactly when it selects a row (R76, R77). -/
theorem decodeWord_ok_iff (w : Word) : (∃ i, decodeWord w = .ok i) ↔ ∃ i, SelectsRow w i := by
  constructor
  · rintro ⟨i, hi⟩
    obtain ⟨hrow, -⟩ := selectsRow_of_decodeWord hi
    exact ⟨i, hrow⟩
  · rintro ⟨i, hi⟩
    rcases decodeWord_cases w with ⟨j, -, hok⟩ | ⟨hnone, -⟩
    · exact ⟨_, hok⟩
    · exact absurd hi (hnone i)

/-- A word is refused exactly when it decodes to no command. -/
theorem decodeWord_error_iff (w : Word) : (∃ e, decodeWord w = .error e) ↔ ¬∃ i, decodeWord w = .ok i := by
  cases decodeWord w <;> simp

/-! ## A selected row's fields give the word back -/

/-- The word of a row's fields has the row's fixed bits and the word's own bits elsewhere (R76). -/
theorem encode_withFieldsOf (w : Word) (i : Instr) :
    encode (withFieldsOf w i) = opcodeMatch i ||| w &&& ~~~opcodeMask i := by
  apply BitVec.eq_of_getLsbD_eq
  intro k hk
  cases i with
  | cfgSingle _ =>
    simp only [withFieldsOf, encode, selectorField, selAOf, BitVec.ofInt_toInt, opcodeMatch, opcodeMask,
      BitVec.getLsbD_append]
    interval_cases k <;> simp
  | cfgDual _ _ =>
    simp only [withFieldsOf, encode, selectorField, selAOf, selBOf, BitVec.ofInt_toInt, opcodeMatch, opcodeMask,
      BitVec.getLsbD_append]
    interval_cases k <;> simp
  | run _ =>
    simp only [withFieldsOf, encode, countOf, BitVec.ofNat_toNat, BitVec.setWidth_eq, opcodeMatch, opcodeMask,
      BitVec.getLsbD_append]
    interval_cases k <;> simp
  | sreset =>
    simp only [withFieldsOf, encode, opcodeMatch, opcodeMask]
    interval_cases k <;> simp

/-- So a word that selects the row is the word of its fields. -/
theorem encode_withFieldsOf_of_selectsRow {w : Word} {i : Instr} (h : SelectsRow w i) :
    encode (withFieldsOf w i) = w := by
  have hbits : opcodeMask i ||| ~~~opcodeMask i = BitVec.allOnes 32 := by ext k; simp
  rw [encode_withFieldsOf, ← h, ← BitVec.and_or_distrib_left, hbits, BitVec.and_allOnes]

theorem selectorFits_toInt (x : BitVec 10) : selectorFits x.toInt = true := by
  have hlow := BitVec.le_toInt x
  have hhigh := BitVec.toInt_lt (x := x)
  simp only [selectorFits, Bool.and_eq_true, decide_eq_true_eq]
  omega

/-- Operands read from a word's fields fit them (R74, R75). -/
theorem wellFormed_withFieldsOf (w : Word) (i : Instr) : (withFieldsOf w i).wellFormed = true := by
  cases i with
  | cfgSingle _ => exact selectorFits_toInt _
  | cfgDual _ _ => exact Bool.and_eq_true_iff.mpr ⟨selectorFits_toInt _, selectorFits_toInt _⟩
  | run _ => exact decide_eq_true (Nat.le_of_lt_succ (w.extractLsb' 0 16).isLt)
  | sreset => rfl

/-! ## The rows and the operands as numbers -/

/-- The rows as facts about the word's number: the opcode, and reserved bits that are 0 (R76). -/
theorem exists_selectsRow_iff (w : Word) :
    (∃ i, SelectsRow w i) ↔
      w.toNat / 2 ^ 10 = 2 ^ 18 ∨ (w.toNat / 2 ^ 26 = 8 ∧ w.toNat / 2 ^ 10 % 2 ^ 6 = 0) ∨
        w.toNat / 2 ^ 16 = 3 * 2 ^ 12 ∨ w.toNat = 15 * 2 ^ 28 := by
  have hsreset : SelectsRow w .sreset ↔ w.toNat = 15 * 2 ^ 28 :=
    (selectsRow_sreset_iff w).trans BitVec.toNat_inj.symm
  rw [← singleMask_iff, ← dualMask_iff, ← runMask_iff, ← hsreset]
  constructor
  · rintro ⟨_ | _ | _ | _, h⟩
    · exact .inl h
    · exact .inr (.inl h)
    · exact .inr (.inr (.inl h))
    · exact .inr (.inr (.inr h))
  · rintro (h | h | h | h)
    · exact ⟨.cfgSingle 0, h⟩
    · exact ⟨.cfgDual 0 0, h⟩
    · exact ⟨.run 0, h⟩
    · exact ⟨.sreset, h⟩

/-- A field of the word as a number. -/
theorem field_toNat (w : Word) (start len : Nat) :
    (w.extractLsb' start len).toNat = w.toNat / 2 ^ start % 2 ^ len := by
  rw [BitVec.extractLsb'_toNat, Nat.shiftRight_eq_div_pow]

/-- Two's complement of ten bits: a field from 0x200 on stands for 1024 less (R74). -/
theorem toInt_eq_of_tenBits (x : BitVec 10) :
    x.toInt = if x.toNat < 0x200 then (x.toNat : Int) else (x.toNat : Int) - 1024 := by
  rw [BitVec.toInt_eq_toNat_cond]
  split <;> split <;> omega

theorem selAOf_eq (w : Word) :
    selAOf w = if w.toNat % 2 ^ 10 < 0x200 then ((w.toNat % 2 ^ 10 : Nat) : Int)
      else ((w.toNat % 2 ^ 10 : Nat) : Int) - 1024 := by
  rw [selAOf, toInt_eq_of_tenBits, field_toNat, Nat.pow_zero, Nat.div_one]

theorem selBOf_eq (w : Word) :
    selBOf w = if w.toNat / 2 ^ 16 % 2 ^ 10 < 0x200 then ((w.toNat / 2 ^ 16 % 2 ^ 10 : Nat) : Int)
      else ((w.toNat / 2 ^ 16 % 2 ^ 10 : Nat) : Int) - 1024 := by
  rw [selBOf, toInt_eq_of_tenBits, field_toNat]

theorem countOf_eq (w : Word) : countOf w = w.toNat % 2 ^ 16 := by
  rw [countOf, field_toNat, Nat.pow_zero, Nat.div_one]

/-! ## The obligations -/

/-- Settles O1: each field gives its operand back, and each row's word decodes field by field. -/
theorem decodeOfEncode : Obligations.DecodeOfEncode := fun _ => decodeWord_encode

/-- Settles O3: the command is read from the fields of a row the word selects, and they give the word back. -/
theorem encodeOfDecode : Obligations.EncodeOfDecode := by
  intro w i h
  obtain ⟨hrow, hi⟩ := selectsRow_of_decodeWord h
  rw [hi]
  exact ⟨encode_withFieldsOf_of_selectsRow hrow, wellFormed_withFieldsOf w i⟩

/-- Settles O4: the decoder's cases, and the match of a selected row is the word's opcode. -/
theorem opcodeRows : Obligations.OpcodeRows := fun w =>
  ⟨decodeWord_ok_iff w, fun _ _ hi hj =>
    (opcodeMatch_of_selectsRow hi).trans (opcodeMatch_of_selectsRow hj).symm⟩

/-- Settles O5: a refused word selects no row, and the rows are facts about the word's number. -/
theorem illegalWords : Obligations.IllegalWords := by
  intro w
  have hw : w.toNat < 2 ^ 32 := w.isLt
  dsimp only
  rw [decodeWord_error_iff, decodeWord_ok_iff, exists_selectsRow_iff]
  omega

/-- Settles O6: the operands are the fields of a selected row, as numbers. -/
theorem operandFields : Obligations.OperandFields := by
  intro w
  refine ⟨fun sel h => ?_, fun sel0 sel1 h => ?_, fun n h => ?_, ?_⟩
  · obtain ⟨-, hi⟩ := selectsRow_of_decodeWord h
    exact (Instr.cfgSingle.inj hi).trans (selAOf_eq w)
  · obtain ⟨-, hi⟩ := selectsRow_of_decodeWord h
    obtain ⟨h0, h1⟩ := Instr.cfgDual.inj hi
    exact ⟨h0.trans (selAOf_eq w), h1.trans (selBOf_eq w)⟩
  · obtain ⟨-, hi⟩ := selectsRow_of_decodeWord h
    exact (Instr.run.inj hi).trans (countOf_eq w)
  · rw [selAOf_eq]
    simp only [validSelector, Bool.and_eq_true, decide_eq_true_eq]
    split <;> omega

/-- Settles O7: eight closed words (R83). -/
theorem decodedWords : Obligations.DecodedWords := by
  unfold Obligations.DecodedWords
  decide

end Sys2Proof.Proofs

/-! # The PRN code generator

What one chip of a generated code is, by the kind of selector, and the Gold code's chips by the source's two loops
(R102 to R109). -/

namespace Sys2Proof.Proofs

open Sys2Proof.Machine

/-- A code holds the 511 generated chips and 0 from chip 511 on (R105). -/
theorem generate_getLsbD (p : Params) (sel : Int) (k : Nat) :
    (generate p sel).getLsbD k = (decide (k < 511) && generatedChip p sel k) := by
  rw [generate, BitVec.getLsbD_ofFnLE]
  rcases Nat.lt_trichotomy k 511 with hk | rfl | hk
  · simp only [hk, hk.ne, hk.trans (by decide : 511 < 512), dite_true, if_false, decide_true, Bool.true_and]
  · rfl
  · simp only [Nat.not_lt.2 hk.le, show ¬k < 512 by omega, dite_false, decide_false, Bool.false_and]

theorem generate_chip (p : Params) (sel : Int) {k : Nat} (hk : k ≤ 510) :
    (generate p sel).getLsbD k = generatedChip p sel k := by
  rw [generate_getLsbD, decide_eq_true (Nat.lt_succ_of_le hk), Bool.true_and]

theorem generate_lastChip (p : Params) (sel : Int) : (generate p sel).getLsbD 511 = false :=
  generate_getLsbD p sel 511

/-- The selector of the first table (R102). -/
theorem generatedChip_negTwo (p : Params) (k : Nat) : generatedChip p (-2) k = p.mseq1.getLsbD k := rfl

/-- The selector of the second table (R103). -/
theorem generatedChip_negOne (p : Params) (k : Nat) : generatedChip p (-1) k = p.mseq2.getLsbD k := rfl

/-- A Gold code's chip: the second table is read s chips on, around its end (R104). -/
theorem generatedChip_gold (p : Params) (s k : Nat) :
    generatedChip p s k = (p.mseq1.getLsbD k).xor (p.mseq2.getLsbD ((k + s) % 511)) := by
  have hrot : (((k : Int) + s) % 511).toNat = (k + s) % 511 := by omega
  rw [generatedChip, if_neg (by omega), if_neg (by omega), hrot]

/-- A Gold code's chip up to 510 - s: the rotation does not reach the table's end. -/
theorem generatedChip_gold_low (p : Params) {s k : Nat} (h : k + s ≤ 510) :
    generatedChip p s k = (p.mseq1.getLsbD k).xor (p.mseq2.getLsbD (k + s)) := by
  rw [generatedChip_gold, Nat.mod_eq_of_lt (Nat.lt_succ_of_le h)]

/-- A Gold code's chip above 510 - s: the rotation has gone around the table's end once. -/
theorem generatedChip_gold_high (p : Params) {s k : Nat} (h : 511 ≤ k + s) (hlt : k + s < 2 * 511) :
    generatedChip p s k = (p.mseq1.getLsbD k).xor (p.mseq2.getLsbD (k + s - 511)) := by
  rw [generatedChip_gold, Nat.mod_eq_sub_mod h, Nat.mod_eq_of_lt (by omega)]

/-- The first 511 chips of a code are a table when each of them is the table's. -/
theorem generate_setWidth_eq {p : Params} {sel : Int} {table : CodeTable}
    (h : ∀ k, generatedChip p sel k = table.getLsbD k) : (generate p sel).setWidth 511 = table := by
  refine BitVec.eq_of_getLsbD_eq fun k hk => ?_
  rw [BitVec.getLsbD_setWidth, decide_eq_true hk, Bool.true_and, generate_chip p sel (Nat.le_of_lt_succ hk), h]

/-- Settles O20: a selector from -2 on is -2, -1 or a rotation. -/
theorem generateChips : Obligations.GenerateChips := by
  intro p sel hlo _
  refine ⟨fun k hk => ?_, generate_lastChip p sel⟩
  rw [generate_chip p sel hk]
  split
  case isTrue h => rw [h, generatedChip_negTwo]
  case isFalse h2 =>
    split
    case isTrue h => rw [h, generatedChip_negOne]
    case isFalse h1 =>
      obtain ⟨s, rfl⟩ := Int.eq_ofNat_of_zero_le (show 0 ≤ sel by omega)
      exact generatedChip_gold p s k

/-- Settles O21: chip 510 - s is the last one that reads the second table without going around its end. -/
theorem goldTwoLoops : Obligations.GoldTwoLoops := by
  intro p s hs
  refine ⟨fun k hk => ?_, ?_, fun k hk hk' => ?_⟩
  · rw [generate_chip p s (by omega), generatedChip_gold_low p (by omega)]
  · rw [generate_chip p s (by omega), generatedChip_gold_low p (by omega), Nat.sub_add_cancel hs]
  · rw [generate_chip p s hk', generatedChip_gold_high p (by omega) (by omega)]

/-- Settles O22: the chips of the two table selectors are the tables', and XOR with the first table undoes itself in a
Gold code. -/
theorem tablesReadBack : Obligations.TablesReadBack := by
  intro p
  refine ⟨generate_setWidth_eq (generatedChip_negTwo p), generate_setWidth_eq (generatedChip_negOne p),
    fun s k _ hk => ?_, generate_lastChip p⟩
  rw [generate_chip p s hk, generatedChip_gold, Bool.xor_comm, ← Bool.xor_assoc, Bool.xor_self,
    Bool.false_xor]

end Sys2Proof.Proofs

/-! # The modulator

The two rails one chip pair at a time (R121 to R123) and as products (R126), the waveform's even and odd entries
(R124, R125), and what these leave of the code (R127 to R129). -/

namespace Sys2Proof.Proofs

open Sys2Proof.Machine Sys2Proof.Safety

/-! ## The rails -/

theorem iRail_odd (code : Code) (m : Nat) :
    iRail code (2 * m + 1) = diffChip code (2 * m + 1) * iRail code (2 * m) := by
  rw [iRail, if_pos (by omega)]

theorem iRail_even (code : Code) (m : Nat) : iRail code (2 * (m + 1)) = iRail code (2 * m + 1) :=
  if_neg (show ¬(2 * m + 1 + 1) % 2 = 1 by omega)

theorem qRail_odd (code : Code) (m : Nat) : qRail code (2 * m + 1) = qRail code (2 * m) := by
  rw [qRail, if_neg (by omega)]

theorem qRail_even (code : Code) (m : Nat) :
    qRail code (2 * (m + 1)) = diffChip code (2 * (m + 1)) * qRail code (2 * m + 1) :=
  if_pos (show (2 * m + 1 + 1) % 2 = 0 by omega)

/-- The in-phase rail is the product of the odd differences so far (R126). -/
theorem iRail_even_eq_prod (code : Code) (m : Nat) :
    iRail code (2 * m) = ∏ l ∈ Finset.Icc 1 m, diffChip code (2 * l - 1) := by
  induction m with
  | zero => rfl
  | succ m ih =>
    rw [iRail_even, iRail_odd, ih, Finset.prod_Icc_succ_top (Nat.le_add_left 1 m), mul_comm]
    rfl

/-- The quadrature rail is the product of the even differences so far (R126). -/
theorem qRail_odd_eq_prod (code : Code) (m : Nat) :
    qRail code (2 * m + 1) = ∏ l ∈ Finset.Icc 0 m, diffChip code (2 * l) := by
  induction m with
  | zero => rw [qRail_odd, Finset.Icc_self, Finset.prod_singleton]; rfl
  | succ m ih =>
    rw [qRail_odd, qRail_even, ih, Finset.prod_Icc_succ_top (Nat.zero_le (m + 1)), mul_comm]

/-- A difference compares its own chip and the one before it, and no later one. -/
theorem diffChip_congr {code code' : Code} {n k : Nat} (h : ∀ j < n, code.getLsbD j = code'.getLsbD j)
    (hk : k < n) : diffChip code k = diffChip code' k := by
  cases k with
  | zero => rw [diffChip, diffChip, h 0 hk]
  | succ k => rw [diffChip, diffChip, h (k + 1) hk, h k (Nat.lt_of_succ_lt hk)]

/-- The rails at k are made of the chips up to k. -/
theorem rails_congr {code code' : Code} {n k : Nat} (h : ∀ j < n, code.getLsbD j = code'.getLsbD j)
    (hk : k < n) : iRail code k = iRail code' k ∧ qRail code k = qRail code' k := by
  induction k with
  | zero => exact ⟨rfl, diffChip_congr h hk⟩
  | succ k ih =>
    obtain ⟨hi, hq⟩ := ih (Nat.lt_of_succ_lt hk)
    have hd := diffChip_congr h hk
    constructor
    · rw [iRail, iRail, hd, hi]
    · rw [qRail, qRail, hd, hq]

/-! ## The waveform -/

@[simp] theorem modulate_getElem (code : Code) {k : Nat} (hk : k < 512) :
    (modulate code)[k] = modulatedSample code k := by
  rw [modulate, Vector.getElem_ofFn]

@[simp] theorem loadTemplate_getElem (code : Code) {k : Nat} (hk : k < 512) :
    (loadTemplate code)[k] = cxConj (modulatedSample code k) := by
  rw [loadTemplate, Vector.getElem_ofFn, Fin.getElem_fin, modulate_getElem]

/-- An even entry is the in-phase rail, its sign changing from each even entry to the next (R125). -/
theorem modulatedSample_even (code : Code) (m : Nat) :
    modulatedSample code (2 * m) = ⟨(-1) ^ m * iRail code (2 * m), 0⟩ := by
  obtain ⟨j, rfl | rfl⟩ := Nat.even_or_odd' m
  · have hk : 2 * (2 * j) % 4 = 0 := by omega
    simp only [modulatedSample, hk, (even_two_mul j).neg_one_pow, one_mul]
  · have hk : 2 * (2 * j + 1) % 4 = 2 := by omega
    simp only [modulatedSample, hk, (odd_two_mul_add_one j).neg_one_pow, neg_one_mul]

/-- An odd entry is i times the quadrature rail, its sign changing from each odd entry to the next (R125). -/
theorem modulatedSample_odd (code : Code) (m : Nat) :
    modulatedSample code (2 * m + 1) = ⟨0, (-1) ^ m * qRail code (2 * m + 1)⟩ := by
  obtain ⟨j, rfl | rfl⟩ := Nat.even_or_odd' m
  · have hk : (2 * (2 * j) + 1) % 4 = 1 := by omega
    simp only [modulatedSample, hk, (even_two_mul j).neg_one_pow, one_mul]
  · have hk : (2 * (2 * j + 1) + 1) % 4 = 3 := by omega
    simp only [modulatedSample, hk, (odd_two_mul_add_one j).neg_one_pow, neg_one_mul]

theorem isUnit_negOnePow_mul (m : Nat) {z : Int} (h : IsUnit z) : IsUnit ((-1) ^ m * z) :=
  (isUnit_one.neg.pow m).mul h

/-- An even entry is real, +1 or -1 (R127). -/
theorem modulatedSample_real {k : Nat} (hk : k % 2 = 0) (code : Code) :
    ∃ u : Int, IsUnit u ∧ modulatedSample code k = ⟨u, 0⟩ := by
  obtain ⟨m, rfl⟩ := Nat.dvd_of_mod_eq_zero hk
  exact ⟨_, isUnit_negOnePow_mul m (iRail_isUnit code _), modulatedSample_even code m⟩

/-- An odd entry is imaginary, +i or -i (R127). -/
theorem modulatedSample_imaginary {k : Nat} (hk : k % 2 = 1) (code : Code) :
    ∃ u : Int, IsUnit u ∧ modulatedSample code k = ⟨0, u⟩ := by
  obtain ⟨m, rfl⟩ := Nat.odd_iff.mpr hk
  exact ⟨_, isUnit_negOnePow_mul m (qRail_isUnit code _), modulatedSample_odd code m⟩

theorem intComplex_eq (z : Cx Int) : intComplex z = (z.re : ℂ) + z.im * Complex.I := by
  rw [intComplex, Complex.mk_eq_add_mul_I, Complex.ofReal_intCast, Complex.ofReal_intCast]

/-- The quarter-cycle subcarrier at an even index (R124). -/
theorem subcarrier_even (m : Nat) :
    Real.cos (Real.pi / 2 * (2 * m : ℕ)) = (-1) ^ m ∧ Real.sin (Real.pi / 2 * (2 * m : ℕ)) = 0 := by
  have e : Real.pi / 2 * (2 * m : ℕ) = m * Real.pi := by push_cast; ring
  rw [e]
  exact ⟨Real.cos_nat_mul_pi m, Real.sin_nat_mul_pi m⟩

/-- The quarter-cycle subcarrier at an odd index (R124). -/
theorem subcarrier_odd (m : Nat) :
    Real.cos (Real.pi / 2 * (2 * m + 1 : ℕ)) = 0 ∧ Real.sin (Real.pi / 2 * (2 * m + 1 : ℕ)) = (-1) ^ m := by
  have e : Real.pi / 2 * (2 * m + 1 : ℕ) = m * Real.pi + Real.pi / 2 := by push_cast; ring
  rw [e, Real.cos_add_pi_div_two, Real.sin_add_pi_div_two, Real.sin_nat_mul_pi, neg_zero]
  exact ⟨rfl, Real.cos_nat_mul_pi m⟩

/-! ## The obligations -/

/-- Settles O24: of the subcarrier's two parts an even index keeps the cosine and an odd one the sine. -/
theorem subcarrier : Obligations.Subcarrier := by
  intro code ⟨k, hk⟩
  rw [Fin.getElem_fin, modulate_getElem]
  obtain ⟨m, rfl | rfl⟩ := Nat.even_or_odd' k
  · obtain ⟨hcos, hsin⟩ := subcarrier_even m
    rw [modulatedSample_even, intComplex_eq, hcos, hsin]
    push_cast
    ring
  · obtain ⟨hcos, hsin⟩ := subcarrier_odd m
    rw [modulatedSample_odd, intComplex_eq, hcos, hsin]
    push_cast
    ring

/-- Settles O25: each entry is a rail with its sign, and each rail a product. -/
theorem closedForm : Obligations.ClosedForm := by
  intro code m hm
  have hi := iRail_even_eq_prod code m
  have hq := qRail_odd_eq_prod code m
  refine ⟨?_, ?_, hi, hq⟩
  · rw [modulate_getElem, modulatedSample_even, hi]
  · rw [modulate_getElem, modulatedSample_odd, hq]

/-- Settles O26: an even entry is real and an odd one imaginary, each with a unit for its part. -/
theorem unitValues : Obligations.UnitValues := by
  intro code k hk
  have hT0 : cxConj (modulatedSample code 0) = ⟨1, 0⟩ := rfl
  refine ⟨Int.isUnit_iff.mp (iRail_isUnit code k), Int.isUnit_iff.mp (qRail_isUnit code k), ?_⟩
  rw [modulate_getElem, loadTemplate_getElem, loadTemplate_getElem, hT0]
  obtain hpar | hpar := Nat.mod_two_eq_zero_or_one k
  · obtain ⟨u, hu, hval⟩ := modulatedSample_real hpar code
    rw [hval]
    obtain rfl | rfl := Int.isUnit_iff.mp hu <;> simp [hpar, intComplex, cxConj, Complex.normSq_apply]
  · obtain ⟨u, hu, hval⟩ := modulatedSample_imaginary hpar code
    rw [hval]
    obtain rfl | rfl := Int.isUnit_iff.mp hu <;>
      simp [hpar, intComplex, cxConj, Complex.normSq_apply, Complex.ext_iff]

/-- Settles O27: entry 511 is the quadrature rail's, which holds its value at 510. -/
theorem lastChipUnused : Obligations.LastChipUnused := by
  intro code code' h
  have hmod : modulate code = modulate code' := by
    refine Vector.ext fun k hk => ?_
    rw [modulate_getElem, modulate_getElem]
    obtain ⟨m, rfl | rfl⟩ := Nat.even_or_odd' k
    · rw [modulatedSample_even, modulatedSample_even, (rails_congr h (show 2 * m < 511 by omega)).1]
    · rw [modulatedSample_odd, modulatedSample_odd, qRail_odd, qRail_odd,
        (rails_congr h (show 2 * m < 511 by omega)).2]
  exact ⟨hmod, by rw [loadTemplate, loadTemplate, hmod]⟩

/-- Settles O28: the rails hold as the steps say; the code whose only set chip is chip 1 changes iBB at 1 and qBB at
2. -/
theorem staggeringLaw : Obligations.StaggeringLaw := by
  refine ⟨fun code => ⟨fun m hm _ => ?_, fun m _ => qRail_odd code m⟩, ⟨2, ?_⟩, ⟨2, ?_⟩⟩
  · obtain ⟨m, rfl⟩ := Nat.exists_eq_add_of_le' hm
    exact iRail_even code m
  · decide +kernel
  · decide +kernel

/-- Settles O23: the steps of the differential code and of the rails at the parity each is written for. -/
theorem railSteps : Obligations.RailSteps := by
  intro code
  refine ⟨?_, fun k hk _ => ?_, rfl, fun k hk _ => ?_, iRail_odd code 255, rfl, qRail_odd code 0,
    fun k hk h2 _ => ?_⟩
  · rw [diffChip]
    cases code.getLsbD 0 <;> rfl
  · obtain ⟨k, rfl⟩ := Nat.exists_eq_add_of_le' hk
    rfl
  · obtain ⟨m, rfl⟩ := Nat.odd_iff.mpr hk
    exact ⟨iRail_odd code m, iRail_even code m⟩
  · obtain ⟨m, rfl⟩ : ∃ m, k = 2 * (m + 1) := ⟨k / 2 - 1, by omega⟩
    exact ⟨qRail_even code m, qRail_odd code (m + 1)⟩

end Sys2Proof.Proofs

/-! # The configure commands

A configure command that passes its checks completes with its slots loaded (R140 to R143), and what a loaded slot
holds. -/

namespace Sys2Proof.Proofs

open Sys2Proof.Machine Sys2Proof.Safety Sys2Proof.Laws

/-! ## The checks passed -/

/-- The range of the valid selectors (R101). -/
theorem validSelector_of_le {sel : Int} (hlo : -2 ≤ sel) (hhi : sel ≤ 510) : validSelector sel = true := by
  rw [validSelector, decide_eq_true hlo, decide_eq_true hhi, Bool.and_self]

/-- CFG.SINGLE past its checks (R141). -/
theorem exec_cfgSingle_of_valid {sel : Int} {s : State} (hphase : s.phase = .unconfigured)
    (hsel : validSelector sel = true) :
    exec (.cfgSingle sel) s = .next (complete (configureSingle sel s)) := by
  simp [exec, execCfgSingle, hphase, hsel]

/-- CFG.DUAL past its checks (R142). -/
theorem exec_cfgDual_of_valid {sel0 sel1 : Int} {s : State} (hphase : s.phase = .unconfigured)
    (hsel0 : validSelector sel0 = true) (hsel1 : validSelector sel1 = true) :
    exec (.cfgDual sel0 sel1) s = .next (complete (configureDual sel0 sel1 s)) := by
  simp [exec, execCfgDual, hphase, hsel0, hsel1]

/-! ## A loaded slot -/

/-- The chips of a slot's code, chip 511 at 0 (R105). -/
theorem chips_of_eq_generate {p : Params} {sel : Int} {code : Code} (h : code = generate p sel) :
    ∀ k < 512, code.getLsbD k = (decide (k < 511) && generatedChip p sel k) :=
  fun k _ => h ▸ generate_getLsbD p sel k

/-- A slot's template is the conjugate of its code's waveform, entry by entry (R140). -/
theorem conj_of_eq_loadTemplate {code : Code} {t : Template} (h : t = loadTemplate code) :
    ∀ k : Fin 512, intComplex t[k] = (starRingEnd ℂ) (intComplex (modulate code)[k]) := by
  intro k
  rw [h, Fin.getElem_fin, Fin.getElem_fin, loadTemplate_getElem, modulate_getElem, intComplex_conj]

/-! ## The obligations -/

/-- Settles O18: CFG.SINGLE completes with `configureSingle`, which loads slot 0. -/
theorem cfgSingleConfigures : Obligations.CfgSingleConfigures := by
  intro s sel hphase hlo hhi
  have hsel := validSelector_of_le hlo hhi
  refine ⟨_, exec_cfgSingle_of_valid hphase hsel, rfl, rfl, selectorWord_toInt hsel, rfl,
    chips_of_eq_generate ?code0, conj_of_eq_loadTemplate ?t0, ?frame⟩
  case frame => simp only [complete, configureSingle]
  all_goals simp

/-- Settles O19: CFG.DUAL completes with `configureDual`, which loads each slot from its own selector alone, so equal
selectors load equal templates (D52). -/
theorem cfgDualConfigures : Obligations.CfgDualConfigures := by
  intro s sel0 sel1 hphase hlo0 hhi0 hlo1 hhi1
  have hsel0 := validSelector_of_le hlo0 hhi0
  have hsel1 := validSelector_of_le hlo1 hhi1
  have hequal : sel0 = sel1 → loadTemplate (generate s.params sel0) = loadTemplate (generate s.params sel1) :=
    fun h => by rw [h]
  refine ⟨_, exec_cfgDual_of_valid hphase hsel0 hsel1, rfl, rfl, selectorWord_toInt hsel0, selectorWord_toInt hsel1,
    rfl, chips_of_eq_generate ?code0, chips_of_eq_generate ?code1, conj_of_eq_loadTemplate ?t0,
    conj_of_eq_loadTemplate ?t1, hequal, ?frame⟩
  case frame => simp only [complete, configureDual]
  all_goals simp

end Sys2Proof.Proofs

/-! # RUN and the live windows

What RUN N does when its checks pass: it holds, ends at once, or runs its loop (R170, R171); and which samples its
windows are made of (R160). -/

namespace Sys2Proof.Proofs

open Sys2Proof.Machine Sys2Proof.Safety Sys2Proof.Laws

/-! ## A RUN that no check fails -/

/-- Capacities large enough for RUN N (R207). -/
theorem runTooLong_eq_false {n : Nat} {s : State} (hin : ∀ c, s.params.inCapacity = some c → n + 511 ≤ c)
    (hout : ∀ c, s.params.outCapacity = some c → n ≤ c) : runTooLong n s = false := by
  rw [runTooLong, (capacityAtLeast_iff _ _).2 hin, (capacityAtLeast_iff _ _).2 hout]
  rfl

/-- The enabling condition by its two parts (R170). -/
theorem runEnabled_iff (n : Nat) (s : State) :
    runEnabled n s = true ↔
      n + 511 ≤ s.inStream.length ∧ ∀ c, s.params.outCapacity = some c → s.outFifo.length + n ≤ c := by
  rw [runEnabled, Bool.and_eq_true, decide_eq_true_iff, capacityAtLeast_iff, live]

/-- RUN 0 past its checks ends at once (R171). -/
theorem exec_run_zero {s : State} (hready : s.phase = .ready) (hlong : runTooLong 0 s = false) :
    exec (.run 0) s = .next (complete s) := by
  simp [exec, execRun, hready, hlong]

/-- RUN N with its samples and places runs its loop; for N = 0 the loop and its end change nothing (R171). -/
theorem exec_run_of_enabled {n : Nat} {s : State} (hready : s.phase = .ready)
    (hin : ∀ c, s.params.inCapacity = some c → n + 511 ≤ c) (henabled : runEnabled n s = true) :
    exec (.run n) s = .next (complete (consume n (runWindows n s.rp s))) := by
  obtain ⟨-, hplaces⟩ := (runEnabled_iff n s).1 henabled
  have hlong := runTooLong_eq_false hin fun c hc => (Nat.le_add_left _ _).trans (hplaces c hc)
  cases n with
  | zero =>
    have hconsume : consume 0 s = s := by simp [consume]
    rw [exec_run_zero hready hlong, runWindows, hconsume]
  | succ n => simp [exec, execRun, hready, hlong, henabled]

/-- Settles O29: past its checks a RUN that is not enabled has no step. That a hold is a step to the same state is the
model's choice (notes/assumptions/8.md). -/
theorem runHolds : Obligations.RunHolds := by
  intro s n hready hn hin hout hlack
  have hnot : ¬ runEnabled n s = true := by
    rw [runEnabled_iff]
    rintro ⟨hlive, hplaces⟩
    obtain hshort | ⟨c, hc, hfull⟩ := hlack
    · omega
    · exact absurd (hplaces c hc) (by omega)
  apply exec_holds
  simp [commandHasStep, hready, runTooLong_eq_false hin hout, hnot, Nat.ne_of_gt hn]

/-- Settles O30: legal capacities pass the check of RUN 0. -/
theorem runZeroCompletes : Obligations.RunZeroCompletes := by
  rintro s hready ⟨hin, -⟩
  refine exec_run_zero hready (runTooLong_eq_false (fun c hc => ?_) fun c _ => Nat.zero_le c)
  have := (capacityAtLeast_iff _ _).1 hin c hc
  omega

/-- All that RUN's loop may change, as one equation of records (R171). -/
theorem runWindows_eq (n : Nat) (p : BitVec 64) (s : State) :
    runWindows n p s =
      { s with outFifo := (runWindows n p s).outFifo, lastOut := (runWindows n p s).lastOut,
               idx0 := (runWindows n p s).idx0, idx1 := (runWindows n p s).idx1,
               fft0 := (runWindows n p s).fft0, fft1 := (runWindows n p s).fft1,
               draws := (runWindows n p s).draws } := by
  induction n generalizing p s with
  | zero => rfl
  | succ n ih =>
    rw [runWindows]
    generalize windowStep s p = r
    exact ih (p + 1) (writeWindow r s)

@[simp] theorem runWindows_phase (n : Nat) (p : BitVec 64) (s : State) : (runWindows n p s).phase = s.phase := by
  rw [runWindows_eq]

@[simp] theorem runWindows_mode (n : Nat) (p : BitVec 64) (s : State) : (runWindows n p s).mode = s.mode := by
  rw [runWindows_eq]

@[simp] theorem runWindows_t0 (n : Nat) (p : BitVec 64) (s : State) : (runWindows n p s).t0 = s.t0 := by
  rw [runWindows_eq]

@[simp] theorem runWindows_t1 (n : Nat) (p : BitVec 64) (s : State) : (runWindows n p s).t1 = s.t1 := by
  rw [runWindows_eq]

@[simp] theorem runWindows_rp (n : Nat) (p : BitVec 64) (s : State) : (runWindows n p s).rp = s.rp := by
  rw [runWindows_eq]

@[simp] theorem runWindows_inStream (n : Nat) (p : BitVec 64) (s : State) :
    (runWindows n p s).inStream = s.inStream := by
  rw [runWindows_eq]

@[simp] theorem runWindows_params (n : Nat) (p : BitVec 64) (s : State) : (runWindows n p s).params = s.params := by
  rw [runWindows_eq]

/-- Settles O31: by the words of RUN's loop, its frame, and the samples that its end discards. That SINGLE mode keeps
the peak bins for every window is the model's reading (notes/assumptions/5.md). -/
theorem runCompletes : Obligations.RunCompletes := by
  intro s n hready hn hin hlive hout
  obtain ⟨ys, hlen, hys, hlast⟩ := runWindows_out n s.rp s
  have hsome : ys.getLast? = some (runWindows n s.rp s).lastOut := by
    have hne : ys ≠ [] := List.ne_nil_of_length_pos (by omega)
    rw [hlast, List.getLast?_eq_some_getLast hne, Option.getD_some]
  refine ⟨_, ys, exec_run_of_enabled hready hin ((runEnabled_iff n s).2 ⟨hlive, hout⟩), hlen, hys, hsome, ?_, ?_, rfl,
    fun hmode => ?_, ?_⟩
  · rw [complete_rp, consume_rp, runWindows_rp]
  · rw [complete_inStream, consume_inStream, runWindows_inStream]
  · obtain ⟨h0, h1, -⟩ := runWindows_single n s.rp s hmode
    exact ⟨h0, h1⟩
  · have hframe := runWindows_eq n s.rp s
    generalize runWindows n s.rp s = u at hframe
    rw [hframe]
    rfl

/-! ## The windows of RUN -/

/-- A position of the live range is read at its distance from RP (R52). -/
theorem inRead_live (s : State) {k j : Nat} (h : k + j < 2 ^ 64) :
    inRead s (s.rp + BitVec.ofNat 64 k + BitVec.ofNat 64 j) = s.inStream[k + j]? := by
  have hdist : (s.rp + BitVec.ofNat 64 k + BitVec.ofNat 64 j - s.rp).toNat = k + j := by
    rw [BitVec.add_assoc, BitVec.add_comm s.rp, BitVec.add_sub_cancel, ← BitVec.ofNat_add, BitVec.toNat_ofNat,
      Nat.mod_eq_of_lt h]
  rw [inRead, hdist]

/-- The window k positions past RP (R160). -/
theorem window_eq_liveWindow (s : State) {k : Nat} (h : k + 512 ≤ 2 ^ 64) :
    window s (s.rp + BitVec.ofNat 64 k) = liveWindow s k := by
  unfold window liveWindow
  congr 1
  funext j
  rw [inRead_live s (by omega), List.getD_eq_getElem?_getD]

/-- Settles O32: every position of the window is read at its distance from RP. -/
theorem windowSamples : Obligations.WindowSamples := fun s _ _ hk =>
  ⟨window_eq_liveWindow s hk, fun _ hj => inRead_live s (by omega)⟩

end Sys2Proof.Proofs

/-! # The exact window step

The exact number that each mode decides on is the exact result of the window, so within the finite range the word is
that result rounded and the DUAL bins are the least bins of the largest magnitudes (R165 to R168). -/

namespace Sys2Proof.Proofs

open Sys2Proof.Machine Sys2Proof.Safety Sys2Proof.Laws

/-! ## Rounding and the sign bit -/

/-- Rounding a non-negative real within the range answers a word with the sign bit clear. -/
theorem roundWord_signBit {cmp : Comparison} {r : ℝ} {w : Word} (h : Compares cmp r) (h0 : 0 ≤ r)
    (hmax : r ≤ largestFinite) (hw : roundWord cmp = some w) : w.getLsbD 31 = false := by
  obtain ⟨below, b, hround, hle, -, -, -, hcase⟩ := roundBits_cases h h0 hmax
  have hb : b ≤ largestFiniteBits + 1 := by omega
  rw [roundWord, hround] at hw
  obtain rfl := Option.some.inj hw
  exact signBit_ofNat b (hb.trans_lt (by decide))

/-- The finite words are closed under negation of the value. -/
theorem exists_wordReal_neg {v : Word} (hv : isFinite v = true) :
    ∃ v', isFinite v' = true ∧ wordReal v' = -wordReal v := by
  obtain ⟨b, hb, hval⟩ := wordReal_cases v hv
  have hlt : b < 2 ^ 31 := hb.trans_lt (by decide)
  obtain hpos | hneg := hval
  · refine ⟨negWord (BitVec.ofNat 32 b), by rw [isFinite_negWord, isFinite_ofNat hb], ?_⟩
    rw [wordReal_negWord _ (signBit_ofNat b hlt), wordReal_ofNat b hlt, hpos]
  · exact ⟨BitVec.ofNat 32 b, isFinite_ofNat hb, by rw [wordReal_ofNat b hlt, hneg, neg_neg]⟩

/-- Rounding commutes with the sign. -/
theorem isNearestEven_negWord {r : ℝ} {w : Word} (h : IsNearestEven r w) (hsign : w.getLsbD 31 = false) (hr : r ≠ 0) :
    IsNearestEven (-r) (negWord w) := by
  obtain ⟨hfin, hnear, heven, -⟩ := h
  have hdist (x : ℝ) : |(-x) - -r| = |x - r| := by rw [← abs_neg]; congr 1; ring
  have key {v v' : Word} (hval : wordReal v' = -wordReal v) : |wordReal v - -r| = |wordReal v' - r| := by
    rw [hval, ← hdist, neg_neg]
  rw [IsNearestEven, wordReal_negWord w hsign, hdist]
  refine ⟨by rw [isFinite_negWord, hfin], fun v hv => ?_, fun v hv heq hne => ?_,
    fun h0 => absurd (neg_eq_zero.1 h0) hr⟩
  · obtain ⟨v', hv', hval⟩ := exists_wordReal_neg hv
    exact key hval ▸ hnear v' hv'
  · obtain ⟨v', hv', hval⟩ := exists_wordReal_neg hv
    rw [evenBit_negWord]
    exact heven v' hv' (heq.trans (key hval)) fun h => hne (by rw [← h, hval, neg_neg])

/-! ## The two decisions -/

/-- The least bin of the largest magnitude is one bin. -/
theorem isPeak_unique {mag : Fin 512 → ℝ} {i j : Fin 512} (hi : IsPeak mag i) (hj : IsPeak mag j) : i = j := by
  obtain hlt | heq | hgt := lt_trichotomy i j
  · exact absurd (hj.2 i hlt) (hi.1 j).not_gt
  · exact heq
  · exact absurd (hi.2 j hgt) (hj.1 i).not_gt

/-- The exact result in DUAL mode, by the two peaks (R166). -/
theorem exactResult_dual {s : State} {w : Window} {i0 i1 : Fin 512} (hmode : s.mode = .dual)
    (h0 : IsPeak (realMags s.t0 w) i0) (h1 : IsPeak (realMags s.t1 w) i1) :
    exactResult s w =
      if realMags s.t0 w i0 ≤ realMags s.t1 w i1 then √(realMags s.t1 w i1) else -√(realMags s.t0 w i0) := by
  simp only [exactResult, hmode, isPeak_sup h0, isPeak_sup h1]

/-- The exact result in SINGLE mode (R167). -/
theorem exactResult_single {s : State} {w : Window} (hmode : s.mode = .single) :
    exactResult s w = ∑ m, realMags s.t0 w m := by
  simp only [exactResult, hmode]

/-- The dual-code decision on two exact numbers is the rounding of the real one (R166, R168). -/
theorem dualDecision_isNearestEven {x0 x1 : Exact} {r0 r1 : ℝ} (hr0 : 0 ≤ r0) (hr1 : 0 ≤ r1)
    (hx0 : surdReal 7 x0 = 2 ^ 300 * r0) (hx1 : surdReal 7 x1 = 2 ^ 300 * r1)
    (hrange : |if r0 ≤ r1 then √r1 else -√r0| ≤ largestFinite) :
    ∃ y, dualDecision x0 x1 = some y ∧ IsNearestEven (if r0 ≤ r1 then √r1 else -√r0) y := by
  have hlt : surdCompare 7 x1 x0 = .lt ↔ r1 < r0 := by
    rw [surdCompare_lt_iff, hx0, hx1, mul_lt_mul_iff_right₀ (by positivity)]
  rw [dualDecision]
  by_cases hle : r0 ≤ r1
  · rw [if_pos hle, abs_of_nonneg (Real.sqrt_nonneg _)] at hrange
    rw [if_pos (mt hlt.1 hle.not_gt), if_pos hle]
    exact roundWord_isNearestEven (compareSqrt_compares x1 r1 hr1 hx1) (Real.sqrt_nonneg _) hrange
  · have hcmp := compareSqrt_compares x0 r0 hr0 hx0
    have hpos : 0 < √r0 := Real.sqrt_pos.2 (hr1.trans_lt (not_le.1 hle))
    rw [if_neg hle, abs_neg, abs_of_pos hpos] at hrange
    rw [if_neg (not_not.2 (hlt.2 (not_le.1 hle))), if_neg hle]
    obtain ⟨w, hw, hnear⟩ := roundWord_isNearestEven hcmp hpos.le hrange
    exact ⟨negWord w, by rw [hw]; rfl, isNearestEven_negWord hnear (roundWord_signBit hcmp hpos.le hrange hw) hpos.ne'⟩

/-- Within the range the dual-code decision of a window is its exact result rounded (R166, R168). -/
theorem dualDecision_of_inRange {s : State} {w : Window} (hmode : s.mode = .dual)
    (hrange : |exactResult s w| ≤ largestFinite) :
    ∃ y, dualDecision (peak (magnitudes (transformStep s.t0 w).output)).1
        (peak (magnitudes (transformStep s.t1 w).output)).1 = some y ∧ IsNearestEven (exactResult s w) y := by
  obtain ⟨i0, -, hpeak0, hx0⟩ := peak_real s.t0 w
  obtain ⟨i1, -, hpeak1, hx1⟩ := peak_real s.t1 w
  rw [exactResult_dual hmode hpeak0 hpeak1] at hrange ⊢
  exact dualDecision_isNearestEven (realMags_nonneg _ _ _) (realMags_nonneg _ _ _) hx0 hx1 hrange

/-- The single-code decision on an exact number is the rounding of the real one, with the sign bit clear (R167,
R168). -/
theorem singleDecision_isNearestEven {x : Exact} {r : ℝ} (hr : 0 ≤ r) (hx : surdReal 7 x = 2 ^ 300 * r)
    (hrange : r ≤ largestFinite) :
    ∃ y, singleDecision x = some y ∧ IsNearestEven r y ∧ y.getLsbD 31 = false := by
  have hcmp := compareEnergy_compares x r hx
  obtain ⟨y, hy, hnear⟩ := roundWord_isNearestEven hcmp hr hrange
  exact ⟨y, hy, hnear, roundWord_signBit hcmp hr hrange hy⟩

/-- Within the range the single-code decision of a window is its exact result rounded (R167, R168). -/
theorem singleDecision_of_inRange {s : State} {w : Window} (hmode : s.mode = .single)
    (hrange : |exactResult s w| ≤ largestFinite) :
    ∃ y, singleDecision (energy (magnitudes (transformStep s.t0 w).output)) = some y ∧
      IsNearestEven (exactResult s w) y ∧ y.getLsbD 31 = false := by
  have hpos : 0 ≤ ∑ m, realMags s.t0 w m := Finset.sum_nonneg fun m _ => realMags_nonneg _ _ m
  rw [exactResult_single hmode] at hrange ⊢
  exact singleDecision_isNearestEven hpos (energy_sum s.t0 w) (le_of_abs_le hrange)

/-! ## The window step within the range -/

/-- A DUAL window whose decision answers a word has that word and the computed bins, whatever the draw is (R168). -/
theorem dualWindow_of_decision (free : WindowResult) {b0 b1 : FftBuf} {y : Word}
    (h : dualDecision (peak (magnitudes b0.output)).1 (peak (magnitudes b1.output)).1 = some y) :
    (dualWindow free b0 b1).out = y ∧
      (dualWindow free b0 b1).idx0 = BitVec.ofNat 9 (peak (magnitudes b0.output)).2 ∧
      (dualWindow free b0 b1).idx1 = BitVec.ofNat 9 (peak (magnitudes b1.output)).2 := by
  obtain ⟨-, -, ⟨y', hy', hout, hidx0, hidx1⟩ | ⟨hnone, -⟩⟩ := dualWindow_cases free b0 b1
  · exact ⟨hout.trans (Option.some.inj (hy'.symm.trans h)), hidx0, hidx1⟩
  · cases hnone.symm.trans h

/-- The window step in DUAL mode on a finite window within the range (R166, R168). -/
theorem windowStep_dual {s : State} {p : BitVec 64} (hexact : s.params.numerics = .exact)
    (hfinite : finiteWindow (window s p) = true) (hmode : s.mode = .dual)
    (hrange : |exactResult s (window s p)| ≤ largestFinite) :
    IsNearestEven (exactResult s (window s p)) (windowStep s p).out ∧
      ∃ i0 i1 : Fin 512, IsPeak (realMags s.t0 (window s p)) i0 ∧ IsPeak (realMags s.t1 (window s p)) i1 ∧
        (windowStep s p).idx0 = BitVec.ofNat 9 i0 ∧ (windowStep s p).idx1 = BitVec.ofNat 9 i1 := by
  obtain ⟨y, hy, hnear⟩ := dualDecision_of_inRange hmode hrange
  obtain ⟨i0, hi0, hpeak0, -⟩ := peak_real s.t0 (window s p)
  obtain ⟨i1, hi1, hpeak1, -⟩ := peak_real s.t1 (window s p)
  obtain ⟨hout, hidx0, hidx1⟩ := dualWindow_of_decision (Config.freeWindow s.draws) hy
  rw [windowStep_exact hexact hfinite, exactWindow_dual s _ hmode, hout, hidx0, hidx1, hi0, hi1]
  exact ⟨hnear, i0, i1, hpeak0, hpeak1, rfl, rfl⟩

/-- The word of the window step in SINGLE mode on a finite window within the range (R167, R168). -/
theorem windowStep_single_out {s : State} {p : BitVec 64} (hexact : s.params.numerics = .exact)
    (hfinite : finiteWindow (window s p) = true) (hmode : s.mode = .single)
    (hrange : |exactResult s (window s p)| ≤ largestFinite) :
    IsNearestEven (exactResult s (window s p)) (windowStep s p).out ∧ (windowStep s p).out.getLsbD 31 = false := by
  obtain ⟨y, hy, hnear, hsign⟩ := singleDecision_of_inRange hmode hrange
  rw [windowStep_exact hexact hfinite, exactWindow_single s _ hmode]
  simp only [hy, Option.getD_some]
  exact ⟨hnear, hsign⟩

/-- The word of the window step on a finite window within the range, in either mode. -/
theorem windowStep_out {s : State} {p : BitVec 64} (hexact : s.params.numerics = .exact)
    (hfinite : finiteWindow (window s p) = true) (hrange : |exactResult s (window s p)| ≤ largestFinite) :
    IsNearestEven (exactResult s (window s p)) (windowStep s p).out := by
  cases hmode : s.mode with
  | single => exact (windowStep_single_out hexact hfinite hmode hrange).1
  | dual => exact (windowStep_dual hexact hfinite hmode hrange).1

/-- Settles O34: by the mode's decision, which within the range answers a word. Beyond the range the model leaves the
word and the DUAL bins free (notes/assumptions/6.md). -/
theorem windowStepResult : Obligations.WindowStepResult := by
  intro s p hexact hfinite
  refine ⟨fun hrange => ⟨windowStep_out hexact hfinite hrange, fun hmode => ?_⟩, fun hmode => ?_⟩
  · exact (windowStep_dual hexact hfinite hmode hrange).2
  · obtain ⟨h0, h1, -⟩ := windowStep_single p hmode
    exact ⟨h0, h1⟩

/-- Settles O37: with the implementation's numerics the result is a function of what the two states share; at EXACT
numerics the decision answers a word, so the draw is not used. -/
theorem windowDependsOnItsSamples : Obligations.WindowDependsOnItsSamples := by
  intro s t p q hw ht0 ht1 hmode hnum hfinite hrange
  have hfinite' : finiteWindow (window t q) = true := hw ▸ hfinite
  cases hnumerics : s.params.numerics with
  | implementation =>
    simp only [windowStep, hfinite, if_true, ← hnum, hnumerics, keepUnused, ← hmode, ← hw, ← ht0, ← ht1]
    cases s.mode <;> simp
  | exact =>
    have hrange := hrange hnumerics
    rw [windowStep_exact hnumerics hfinite, windowStep_exact (hnum ▸ hnumerics) hfinite', ← hw]
    cases hm : s.mode with
    | single =>
      obtain ⟨y, hy, -⟩ := singleDecision_of_inRange hm hrange
      rw [exactWindow_single s _ hm, exactWindow_single t _ (hmode ▸ hm)]
      refine ⟨?_, fun hd => nomatch hd⟩
      simp only [← ht0, hy, Option.getD_some]
    | dual =>
      obtain ⟨y, hy, -⟩ := dualDecision_of_inRange hm hrange
      obtain ⟨hout, hidx0, hidx1⟩ := dualWindow_of_decision (Config.freeWindow s.draws) hy
      obtain ⟨hout', hidx0', hidx1'⟩ := dualWindow_of_decision (Config.freeWindow t.draws) hy
      rw [exactWindow_dual s _ hm, exactWindow_dual t _ (hmode ▸ hm), ← ht0, ← ht1]
      exact ⟨hout.trans hout'.symm, fun _ => ⟨hidx0.trans hidx0'.symm, hidx1.trans hidx1'.symm⟩⟩

end Sys2Proof.Proofs

/-! # The words of RUN

Word k of a RUN is the window step's on the live window k (R171), whatever the windows before it answered, so a RUN may
be split in two (R176). -/

namespace Sys2Proof.Proofs

open Sys2Proof.Machine Sys2Proof.Safety Sys2Proof.Laws

/-- The window of the k-th turn of RUN's loop is the live window k. -/
theorem window_runWindows (s : State) {k : Nat} (h : k + 512 ≤ 2 ^ 64) :
    window (runWindows k s.rp s) (s.rp + BitVec.ofNat 64 k) = liveWindow s k := by
  rw [window_run, window_eq_liveWindow s h]

/-- What the k-th turn of RUN's loop answers on a finite live window within the range (R168). -/
theorem windowStep_runWindows {s : State} {k : Nat} (hk : k + 512 ≤ 2 ^ 64) (hexact : s.params.numerics = .exact)
    (hfinite : finiteWindow (liveWindow s k) = true) (hrange : |exactResult s (liveWindow s k)| ≤ largestFinite) :
    let r := windowStep (runWindows k s.rp s) (s.rp + BitVec.ofNat 64 k)
    IsNearestEven (exactResult s (liveWindow s k)) r.out ∧
      (s.mode = .dual → ∃ i0 i1 : Fin 512, IsPeak (realMags s.t0 (liveWindow s k)) i0 ∧
        IsPeak (realMags s.t1 (liveWindow s k)) i1 ∧ r.idx0 = BitVec.ofNat 9 i0 ∧ r.idx1 = BitVec.ofNat 9 i1) := by
  obtain ⟨h, -⟩ := windowStepResult (runWindows k s.rp s) (s.rp + BitVec.ofNat 64 k)
    (by rw [runWindows_params, hexact]) (by rw [window_runWindows s hk, hfinite])
  simp only [window_runWindows s hk, exactResult_run, runWindows_mode, runWindows_t0, runWindows_t1] at h
  exact h hrange

/-- Settles O35: word k is that of the loop's k-th turn, and the peak bins are those of the last turn. Beyond the range
the model leaves the word and the DUAL bins free (notes/assumptions/6.md). -/
theorem runOutputs : Obligations.RunOutputs := by
  intro s n hready hn hcount hexact hin hlive hout
  have hn16 : n ≤ 65535 := by simpa [countFits] using hcount
  refine ⟨_, _, exec_run_of_enabled hready hin ((runEnabled_iff n s).2 ⟨hlive, hout⟩), runWindows_outputs n s.rp s,
    by simp, fun k y hy hfinite hrange => ?_, fun hmode hfinite hrange => ?_⟩
  · rw [List.getElem?_map, Option.map_eq_some_iff] at hy
    obtain ⟨j, hj, rfl⟩ := hy
    obtain ⟨hkn, rfl⟩ := List.getElem?_eq_some_iff.1 hj
    rw [List.length_range] at hkn
    rw [List.getElem_range]
    exact (windowStep_runWindows (by omega) hexact hfinite hrange).1
  · obtain ⟨m, rfl⟩ := Nat.exists_eq_add_of_le' hn
    rw [Nat.add_sub_cancel] at hfinite hrange ⊢
    rw [complete_idx0, complete_idx1, consume_idx0, consume_idx1, runWindows_succ, writeWindow_idx0, writeWindow_idx1]
    exact (windowStep_runWindows (by omega) hexact hfinite hrange).2 hmode

/-! ## Two blocks on the same windows -/

/-- The templates, the mode and the arithmetic agree: what a window step reads beside its window (R177). -/
def SameSetting (s t : State) : Prop :=
  t.mode = s.mode ∧ t.t0 = s.t0 ∧ t.t1 = s.t1 ∧ t.params = s.params

/-- OUT, LAST_OUT and the peak bins agree: what a window step writes beside the buffers. -/
def SameOutputs (s t : State) : Prop :=
  t.outFifo = s.outFifo ∧ t.lastOut = s.lastOut ∧ t.idx0 = s.idx0 ∧ t.idx1 = s.idx1

theorem runWindows_sameSetting {s t : State} (h : SameSetting s t) (n : Nat) (p : BitVec 64) :
    SameSetting (runWindows n p s) (runWindows n p t) := by
  simpa only [SameSetting, runWindows_mode, runWindows_t0, runWindows_t1, runWindows_params] using h

/-- The window fixes its result: it is finite and, at EXACT numerics, its result is within the range (R168). -/
def FixedResult (s : State) (w : Window) : Prop :=
  finiteWindow w = true ∧ (s.params.numerics = .exact → |exactResult s w| ≤ largestFinite)

/-- One turn of the loop on the same window (R176). -/
theorem writeWindow_sameOutputs {s t : State} {p : BitVec 64} (hset : SameSetting s t) (hout : SameOutputs s t)
    (hw : window t p = window s p) (hfixed : FixedResult s (window s p)) :
    SameOutputs (writeWindow (windowStep s p) s) (writeWindow (windowStep t p) t) := by
  obtain ⟨hmode, ht0, ht1, hparams⟩ := hset
  obtain ⟨hfifo, -, hidx0, hidx1⟩ := hout
  obtain ⟨hy, hdual⟩ := windowDependsOnItsSamples s t p p hw.symm ht0.symm ht1.symm hmode.symm (by rw [hparams])
    hfixed.1 hfixed.2
  have hbins : (windowStep t p).idx0 = (windowStep s p).idx0 ∧ (windowStep t p).idx1 = (windowStep s p).idx1 := by
    cases hm : s.mode with
    | dual =>
      obtain ⟨h0, h1⟩ := hdual hm
      exact ⟨h0.symm, h1.symm⟩
    | single =>
      obtain ⟨h0, h1, -⟩ := windowStep_single p hm
      obtain ⟨h0', h1', -⟩ := windowStep_single p (hmode.trans hm)
      exact ⟨by rw [h0, h0', hidx0], by rw [h1, h1', hidx1]⟩
  simp only [SameOutputs, writeWindow_outFifo, writeWindow_lastOut, writeWindow_idx0, writeWindow_idx1, hfifo, hy,
    true_and]
  exact hbins

/-- The loop on the same windows (R176). -/
theorem runWindows_sameOutputs {s t : State} (hset : SameSetting s t) (hout : SameOutputs s t) {n : Nat} {p : BitVec 64}
    (hw : ∀ k < n, window t (p + BitVec.ofNat 64 k) = window s (p + BitVec.ofNat 64 k) ∧
      FixedResult s (window s (p + BitVec.ofNat 64 k))) :
    SameOutputs (runWindows n p s) (runWindows n p t) := by
  induction n with
  | zero => exact hout
  | succ n ih =>
    obtain ⟨hsame, hfinite, hrange⟩ := hw n (Nat.lt_succ_self n)
    have hbefore : SameOutputs (runWindows n p s) (runWindows n p t) := ih fun k hk => hw k (Nat.lt_succ_of_lt hk)
    rw [runWindows_succ, runWindows_succ]
    apply writeWindow_sameOutputs (runWindows_sameSetting hset n p) hbefore
    · rw [window_run, window_run, hsame]
    · rw [window_run, FixedResult, exactResult_run, runWindows_params]
      exact ⟨hfinite, hrange⟩

/-! ## A RUN after a RUN -/

/-- The state after RUN a, with any count of draws. -/
def afterRun (a d : Nat) (s : State) : State := { complete (consume a (runWindows a s.rp s)) with draws := d }

theorem afterRun_sameSetting (a d : Nat) (s : State) : SameSetting (runWindows a s.rp s) (afterRun a d s) :=
  ⟨rfl, rfl, rfl, rfl⟩

theorem afterRun_sameOutputs (a d : Nat) (s : State) : SameOutputs (runWindows a s.rp s) (afterRun a d s) :=
  ⟨rfl, rfl, rfl, rfl⟩

/-- The streams after RUN a (R171). -/
theorem afterRun_streamsMovedBy (a d : Nat) (s : State) : StreamsMovedBy a s (afterRun a d s) :=
  run_streamsMovedBy a s

/-- After RUN a the window k positions past RP is the live window a + k of before (R171). -/
theorem window_afterRun (a d : Nat) (s : State) {k : Nat} (h : k + 512 ≤ 2 ^ 64) :
    window (afterRun a d s) (s.rp + BitVec.ofNat 64 a + BitVec.ofNat 64 k) = liveWindow s (a + k) := by
  obtain ⟨hrp, hin, -⟩ := afterRun_streamsMovedBy a d s
  rw [← hrp, window_eq_liveWindow _ h, liveWindow, liveWindow, hin]
  simp only [List.getD_eq_getElem?_getD, List.getElem?_drop, Nat.add_assoc]

/-- The loop of RUN b after RUN a ends as the loop of RUN (a + b) does (R176). -/
theorem runWindows_afterRun {s : State} {a b : Nat} (h : a + b + 512 ≤ 2 ^ 64) (d : Nat)
    (hwindows : ∀ k < a + b, FixedResult s (liveWindow s k)) :
    SameOutputs (runWindows (a + b) s.rp s) (runWindows b (afterRun a d s).rp (afterRun a d s)) := by
  obtain ⟨hrp, -⟩ := afterRun_streamsMovedBy a d s
  rw [runWindows_add, hrp]
  refine runWindows_sameOutputs (afterRun_sameSetting a d s) (afterRun_sameOutputs a d s) fun k hk => ?_
  have hwin : window (runWindows a s.rp s) (s.rp + BitVec.ofNat 64 a + BitVec.ofNat 64 k) = liveWindow s (a + k) := by
    rw [window_run, BitVec.add_assoc, ← BitVec.ofNat_add, window_eq_liveWindow s (by omega)]
  rw [hwin, window_afterRun a d s (by omega), FixedResult, exactResult_run, runWindows_params]
  exact ⟨rfl, hwindows (a + k) (by omega)⟩

/-- Settles O38: the second loop goes on where the first ended, on the windows that the single loop has there. -/
theorem splitRun : Obligations.SplitRun := by
  intro s a b d hready hcount hin hlive hout hwindows
  have hn16 : a + b ≤ 65535 := by simpa [countFits] using hcount
  obtain ⟨hrp, hstream, -, hlen⟩ := afterRun_streamsMovedBy a d s
  have hcap : (afterRun a d s).params = s.params := runWindows_params a s.rp s
  have hready' : (afterRun a d s).phase = .ready := (runWindows_phase a s.rp s).trans hready
  have hta := exec_run_of_enabled (n := a) hready (fun c hc => by have := hin c hc; omega)
    ((runEnabled_iff a s).2 ⟨by omega, fun c hc => by have := hout c hc; omega⟩)
  have hub := exec_run_of_enabled (n := b) hready' (fun c hc => by have := hin c (hcap ▸ hc); omega)
    ((runEnabled_iff b _).2 ⟨by rw [hstream, List.length_drop]; omega,
      fun c hc => by have := hout c (hcap ▸ hc); omega⟩)
  have hv := exec_run_of_enabled hready hin ((runEnabled_iff (a + b) s).2 ⟨hlive, hout⟩)
  obtain ⟨hfifo, hlast, hidx0, hidx1⟩ := runWindows_afterRun (s := s) (by omega) d hwindows
  obtain ⟨hrp2, hstream2, -⟩ := run_streamsMovedBy b (afterRun a d s)
  obtain ⟨hrp', hstream', -⟩ := run_streamsMovedBy (a + b) s
  refine ⟨_, _, _, hta, hub, hv, hfifo, ?_, ?_, hlast, hidx0, hidx1⟩
  · rw [hrp2, hrp', hrp, BitVec.add_assoc, BitVec.ofNat_add]
  · rw [hstream2, hstream', hstream, List.drop_drop]

end Sys2Proof.Proofs

/-! # The laws of the window step

What the magnitudes of a window are for a template whose entries are units: their sum and the bounds on the largest
(R172), and the magnitudes of a window that makes a single tone of the template (R173) or holds a single sample
(R174). -/

namespace Sys2Proof.Proofs

open Sys2Proof.Machine Sys2Proof.Safety Sys2Proof.Laws

/-! ## The entries of a template -/

/-- Every entry has magnitude 1 (R127). -/
def UnitTemplate (t : Template) : Prop := ∀ j : Fin 512, Complex.normSq (intComplex t[j]) = 1

theorem unitTemplate_loadTemplate (code : Code) : UnitTemplate (loadTemplate code) := by
  intro j
  obtain ⟨-, -, -, -, hnorm, -⟩ := unitValues code j j.isLt
  rw [modulate_getElem] at hnorm
  rw [Fin.getElem_fin, loadTemplate_getElem, intComplex_conj, Complex.normSq_conj, hnorm]

theorem norm_unitTemplate {t : Template} (ht : UnitTemplate t) (j : Fin 512) : ‖intComplex t[j]‖ = 1 := by
  rw [Complex.norm_def, ht j, Real.sqrt_one]

/-- The square of a template's entry: an even entry is real, an odd one imaginary (R173). -/
theorem loadTemplate_sq (code : Code) (j : Fin 512) :
    intComplex (loadTemplate code)[j] * intComplex (loadTemplate code)[j] = (-1) ^ (j : ℕ) := by
  rw [Fin.getElem_fin, loadTemplate_getElem]
  obtain hpar | hpar := Nat.mod_two_eq_zero_or_one (j : ℕ)
  · obtain ⟨u, hu, hval⟩ := modulatedSample_real hpar code
    rw [hval, (Nat.even_iff.2 hpar).neg_one_pow]
    obtain rfl | rfl := Int.isUnit_iff.mp hu <;> simp [intComplex, cxConj, Complex.ext_iff]
  · obtain ⟨u, hu, hval⟩ := modulatedSample_imaginary hpar code
    rw [hval, (Nat.odd_iff.2 hpar).neg_one_pow]
    obtain rfl | rfl := Int.isUnit_iff.mp hu <;> simp [intComplex, cxConj, Complex.ext_iff]

/-! ## The sum of the magnitudes and the bounds on the largest -/

/-- Parseval's identity for a window: the template's entries do not change the energy (R172). -/
theorem realMags_sum {t : Template} (ht : UnitTemplate t) (w : Window) :
    ∑ m, realMags t w m = 512 * windowEnergy w := by
  simp only [realMags, realBins, parseval, windowEnergy, Complex.normSq_mul, ht _, one_mul]

/-- The unit roots of the transform have magnitude 1 (R162). -/
theorem norm_exp_root (j m : Fin 512) :
    ‖Complex.exp (-2 * Real.pi * Complex.I * (j : ℂ) * (m : ℂ) / 512)‖ = 1 := by
  have h : -2 * Real.pi * Complex.I * (j : ℂ) * (m : ℂ) / 512
      = ((-2 * Real.pi * j * m / 512 : ℝ) : ℂ) * Complex.I := by
    push_cast
    ring
  rw [h, Complex.norm_exp_ofReal_mul_I]

/-- The triangle inequality on a bin (R172). -/
theorem realMags_le {t : Template} (ht : UnitTemplate t) (w : Window) (m : Fin 512) :
    realMags t w m ≤ (∑ j : Fin 512, ‖sampleComplex w[j]‖) ^ 2 := by
  have hbin : ‖realBins t w m‖ ≤ ∑ j : Fin 512, ‖sampleComplex w[j]‖ := by
    rw [realBins, realDft]
    refine (norm_sum_le _ _).trans_eq (Finset.sum_congr rfl fun j _ => ?_)
    rw [norm_mul, norm_mul, norm_exp_root, norm_unitTemplate ht, one_mul, mul_one]
  rw [realMags, Complex.normSq_eq_norm_sq]
  exact pow_le_pow_left₀ (norm_nonneg _) hbin 2

theorem exists_isPeak (t : Template) (w : Window) : ∃ i, IsPeak (realMags t w) i := by
  obtain ⟨i, -, hpeak, -⟩ := peak_real t w
  exact ⟨i, hpeak⟩

/-- The largest magnitude is at least their mean (R172). -/
theorem windowEnergy_le_peak {t : Template} (ht : UnitTemplate t) {w : Window} {i : Fin 512}
    (h : IsPeak (realMags t w) i) : windowEnergy w ≤ realMags t w i := by
  have hsum : ∑ m, realMags t w m ≤ ∑ _m : Fin 512, realMags t w i := Finset.sum_le_sum fun m _ => h.1 m
  rw [realMags_sum ht, Finset.sum_const, Finset.card_univ, Fintype.card_fin, nsmul_eq_mul] at hsum
  push_cast at hsum
  linarith

/-- Settles O39: Parseval's identity, the mean and the triangle inequality; the SINGLE word is the sum rounded. -/
theorem energyLaw : Obligations.EnergyLaw := by
  refine ⟨fun code w => ?_, fun s p code hexact hmode ht0 hfinite hrange => ?_⟩
  · have ht := unitTemplate_loadTemplate code
    obtain ⟨i, hi⟩ := exists_isPeak (loadTemplate code) w
    rw [isPeak_sup hi]
    exact ⟨realMags_sum ht w, windowEnergy_le_peak ht hi, realMags_le ht w i⟩
  · have ht : UnitTemplate s.t0 := ht0 ▸ unitTemplate_loadTemplate code
    have hresult : exactResult s (window s p) = 512 * windowEnergy (window s p) := by
      rw [exactResult_single hmode, realMags_sum ht]
    have hpos : 0 ≤ 512 * windowEnergy (window s p) :=
      mul_nonneg (by norm_num) (Finset.sum_nonneg fun _ _ => Complex.normSq_nonneg _)
    rw [← hresult] at hrange hpos ⊢
    exact windowStep_out hexact hfinite (by rwa [abs_of_nonneg hpos])

/-! ## A window that makes a single tone -/

/-- The tone of bin k (R162). -/
noncomputable def tone (k j : Fin 512) : ℂ := Complex.exp (2 * Real.pi * Complex.I * k * j / 512)

theorem tone_zero (j : Fin 512) : tone 0 j = 1 := by simp [tone]

theorem tone_half (j : Fin 512) : tone 256 j = (-1) ^ (j : ℕ) := by
  have h : 2 * Real.pi * Complex.I * ((256 : Fin 512) : ℕ) * j / 512 = (j : ℕ) * (Real.pi * Complex.I) := by
    have h256 : ((256 : Fin 512) : ℕ) = 256 := rfl
    rw [h256]
    push_cast
    ring
  rw [tone, h, Complex.exp_nat_mul, Complex.exp_pi_mul_I]

/-- The transform of a tone is 512 in its bin and 0 in every other (R162). -/
theorem realDft_tone (k m : Fin 512) : realDft (tone k) m = if m = k then 512 else 0 := by
  have hterm (j : Fin 512) : tone k j * Complex.exp (-2 * Real.pi * Complex.I * j * m / 512)
      = Complex.exp (2 * Real.pi * Complex.I * ((k : ℤ) - (m : ℤ) : ℤ) * (j : ℕ) / 512) := by
    rw [tone, ← Complex.exp_add]
    push_cast
    ring_nf
  rw [realDft, Finset.sum_congr rfl fun j _ => hterm j]
  split_ifs with h
  · simp [h]
  · apply root_sum_zero
    rintro ⟨c, hc⟩
    exact h (Fin.ext (by omega))

/-- The product of the template and the window is the tone of bin k. -/
def MakesTone (t : Template) (w : Window) (k : Fin 512) : Prop :=
  ∀ j : Fin 512, intComplex t[j] * sampleComplex w[j] = tone k j

theorem realBins_of_tone {t : Template} {w : Window} {k : Fin 512} (h : MakesTone t w k) (m : Fin 512) :
    realBins t w m = if m = k then 512 else 0 := by
  rw [realBins, funext h]
  exact realDft_tone k m

theorem realMags_of_tone {t : Template} {w : Window} {k : Fin 512} (h : MakesTone t w k) (m : Fin 512) :
    realMags t w m = if m = k then 512 ^ 2 else 0 := by
  rw [realMags, realBins_of_tone h]
  split_ifs
  · norm_num [Complex.normSq_apply]
  · exact map_zero _

theorem isPeak_of_tone {t : Template} {w : Window} {k : Fin 512} (h : MakesTone t w k) : IsPeak (realMags t w) k := by
  have hmag := realMags_of_tone h
  refine ⟨fun m => ?_, fun m hm => ?_⟩
  · rw [hmag m, hmag k, if_pos rfl]
    split_ifs <;> norm_num
  · rw [hmag m, hmag k, if_pos rfl, if_neg hm.ne]
    norm_num

/-- A window equal to the conjugate template makes the tone of bin 0 (R173). -/
theorem makesTone_conj {t : Template} (ht : UnitTemplate t) {w : Window}
    (hw : ∀ j : Fin 512, sampleComplex w[j] = (starRingEnd ℂ) (intComplex t[j])) : MakesTone t w 0 := by
  intro j
  rw [hw j, Complex.mul_conj, ht j, tone_zero, Complex.ofReal_one]

/-- A window equal to the template makes the tone of bin 256 (R173). -/
theorem makesTone_self {t : Template} {code : Code} (ht : t = loadTemplate code) {w : Window}
    (hw : ∀ j : Fin 512, sampleComplex w[j] = intComplex t[j]) : MakesTone t w 256 := by
  intro j
  rw [hw j, ht, loadTemplate_sq, tone_half]

/-! ## Windows of unit samples in DUAL mode -/

/-- Every sample of the window has magnitude 1. -/
def UnitWindow (w : Window) : Prop := ∀ j : Fin 512, ‖sampleComplex w[j]‖ = 1

theorem unitWindow_conj {t : Template} (ht : UnitTemplate t) {w : Window}
    (hw : ∀ j : Fin 512, sampleComplex w[j] = (starRingEnd ℂ) (intComplex t[j])) : UnitWindow w := by
  intro j
  rw [hw j, Complex.norm_conj, norm_unitTemplate ht]

theorem unitWindow_self {t : Template} (ht : UnitTemplate t) {w : Window}
    (hw : ∀ j : Fin 512, sampleComplex w[j] = intComplex t[j]) : UnitWindow w := by
  intro j
  rw [hw j, norm_unitTemplate ht]

/-- No magnitude of a window of unit samples exceeds 512^2 (R178). -/
theorem realMags_le_of_unitWindow {t : Template} (ht : UnitTemplate t) {w : Window} (hw : UnitWindow w) (m : Fin 512) :
    realMags t w m ≤ 512 ^ 2 := by
  refine (realMags_le ht w m).trans_eq ?_
  simp only [hw _, Finset.sum_const, Finset.card_univ, Fintype.card_fin, nsmul_eq_mul]
  norm_num

/-- The exact result of a window of unit samples is within the range. -/
theorem inRange_of_unitWindow {s : State} {w : Window} (hmode : s.mode = .dual) (h0 : UnitTemplate s.t0)
    (h1 : UnitTemplate s.t1) (hw : UnitWindow w) : |exactResult s w| ≤ largestFinite := by
  obtain ⟨i0, hpeak0⟩ := exists_isPeak s.t0 w
  obtain ⟨i1, hpeak1⟩ := exists_isPeak s.t1 w
  have hroot {r : ℝ} (hr : r ≤ 512 ^ 2) : √r ≤ largestFinite := by
    have h512 : (512 : ℝ) ≤ largestFinite := by norm_num [largestFinite]
    exact (Real.sqrt_le_iff.2 ⟨by norm_num, hr⟩).trans h512
  rw [exactResult_dual hmode hpeak0 hpeak1]
  split_ifs
  · rw [abs_of_nonneg (Real.sqrt_nonneg _)]
    exact hroot (realMags_le_of_unitWindow h1 hw i1)
  · rw [abs_neg, abs_of_nonneg (Real.sqrt_nonneg _)]
    exact hroot (realMags_le_of_unitWindow h0 hw i0)

/-- The peak bins that the window step leaves in DUAL mode are the peaks, where those are known (R165, R166). -/
theorem windowStep_bins {s : State} {p : BitVec 64} (hexact : s.params.numerics = .exact)
    (hfinite : finiteWindow (window s p) = true) (hmode : s.mode = .dual)
    (hrange : |exactResult s (window s p)| ≤ largestFinite) (k : Fin 512) :
    (IsPeak (realMags s.t0 (window s p)) k → (windowStep s p).idx0 = BitVec.ofNat 9 k) ∧
      (IsPeak (realMags s.t1 (window s p)) k → (windowStep s p).idx1 = BitVec.ofNat 9 k) := by
  obtain ⟨-, i0, i1, hpeak0, hpeak1, hidx0, hidx1⟩ := windowStep_dual hexact hfinite hmode hrange
  refine ⟨fun h => ?_, fun h => ?_⟩
  · rw [hidx0, isPeak_unique hpeak0 h]
  · rw [hidx1, isPeak_unique hpeak1 h]

/-- Settles O40: each of the two windows makes a single tone of the template, and its samples are units, so the result
is within the range. -/
theorem selfCorrelation : Obligations.SelfCorrelation := by
  refine ⟨fun code w => ⟨fun hw => ?_, fun hw => ?_⟩, ?_⟩
  · have h := makesTone_conj (unitTemplate_loadTemplate code) hw
    exact ⟨realBins_of_tone h, realMags_of_tone h, isPeak_of_tone h⟩
  · have h := makesTone_self rfl hw
    exact ⟨realMags_of_tone h, isPeak_of_tone h⟩
  · intro s p code0 code1 hexact hmode ht0 ht1 hfinite
    have h0 : UnitTemplate s.t0 := ht0 ▸ unitTemplate_loadTemplate code0
    have h1 : UnitTemplate s.t1 := ht1 ▸ unitTemplate_loadTemplate code1
    have bins {k : Fin 512} (hunit : UnitWindow (window s p)) :=
      windowStep_bins hexact hfinite hmode (inRange_of_unitWindow hmode h0 h1 hunit) k
    exact ⟨fun hw => (bins (unitWindow_conj h0 hw)).1 (isPeak_of_tone (makesTone_conj h0 hw)),
      fun hw => (bins (unitWindow_self h0 hw)).1 (isPeak_of_tone (makesTone_self ht0 hw)),
      fun hw => (bins (unitWindow_conj h1 hw)).2 (isPeak_of_tone (makesTone_conj h1 hw)),
      fun hw => (bins (unitWindow_self h1 hw)).2 (isPeak_of_tone (makesTone_self ht1 hw))⟩

/-! ## A window with a single sample -/

/-- The window is zero but for its sample j0. -/
def ZeroBut (j0 : Fin 512) (w : Window) : Prop := ∀ j : Fin 512, j ≠ j0 → sampleComplex w[j] = 0

/-- Every magnitude is that of the one sample (R174). -/
theorem realMags_of_zeroBut {t : Template} (ht : UnitTemplate t) {w : Window} {j0 : Fin 512} (hw : ZeroBut j0 w)
    (m : Fin 512) : realMags t w m = ‖sampleComplex w[j0]‖ ^ 2 := by
  have hbin : realBins t w m = intComplex t[j0] * sampleComplex w[j0] *
      Complex.exp (-2 * Real.pi * Complex.I * (j0 : ℂ) * (m : ℂ) / 512) := by
    rw [realBins, realDft, Finset.sum_eq_single j0]
    · intro j _ hj
      rw [hw j hj, mul_zero, zero_mul]
    · exact fun h => absurd (Finset.mem_univ _) h
  rw [realMags, hbin, Complex.normSq_eq_norm_sq, norm_mul, norm_mul, norm_exp_root, norm_unitTemplate ht, one_mul,
    mul_one]

/-- Of equal magnitudes the least bin is the peak (R165). -/
theorem isPeak_of_const {mag : Fin 512 → ℝ} {c : ℝ} (h : ∀ m, mag m = c) : IsPeak mag 0 :=
  ⟨fun m => by rw [h, h], fun m hm => absurd hm (Fin.not_lt_zero m)⟩

/-- Settles O41: with one sample every magnitude is the same, so both peaks are at bin 0 and slot 1 wins the tie. -/
theorem impulseWindows : Obligations.ImpulseWindows := by
  intro s p code0 j0 hexact ht0 hfinite hzero
  have hmag := realMags_of_zeroBut (t := s.t0) (ht0 ▸ unitTemplate_loadTemplate code0) hzero
  have hpeak := isPeak_of_const hmag
  have hsum : ∑ m, realMags s.t0 (window s p) m = 512 * ‖sampleComplex (window s p)[j0]‖ ^ 2 := by
    simp [hmag]
  refine ⟨hmag, hsum, hpeak, fun code1 hmode ht1 hrange => ?_, fun hmode hrange => ?_⟩
  · have hmag1 := realMags_of_zeroBut (t := s.t1) (ht1 ▸ unitTemplate_loadTemplate code1) hzero
    have hpeak1 := isPeak_of_const hmag1
    have hresult : exactResult s (window s p) = ‖sampleComplex (window s p)[j0]‖ := by
      rw [exactResult_dual hmode hpeak hpeak1, hmag, hmag1, if_pos le_rfl, Real.sqrt_sq (norm_nonneg _)]
    have hin : |exactResult s (window s p)| ≤ largestFinite := by rwa [hresult, abs_of_nonneg (norm_nonneg _)]
    obtain ⟨hidx0, hidx1⟩ := windowStep_bins hexact hfinite hmode hin 0
    exact ⟨hresult ▸ windowStep_out hexact hfinite hin, hidx0 hpeak, hidx1 hpeak1⟩
  · have hresult : exactResult s (window s p) = 512 * ‖sampleComplex (window s p)[j0]‖ ^ 2 := by
      rw [exactResult_single hmode, hsum]
    have hin : |exactResult s (window s p)| ≤ largestFinite := by
      rwa [hresult, abs_of_nonneg (mul_nonneg (by norm_num) (sq_nonneg _))]
    exact hresult ▸ windowStep_out hexact hfinite hin

end Sys2Proof.Proofs

/-! # The sign and the zeros of the output, and the end-to-end scenario

Rounding to nearest is monotone in the real, so the word of a window keeps the sign of its exact result and does not
vanish in DUAL mode (R175), and an exact result that is a word's value is answered as that word (R178). -/

namespace Sys2Proof.Proofs

open Sys2Proof.Machine Sys2Proof.Safety Sys2Proof.Laws

/-! ## Words by their values -/

/-- The magnitude of a word's value is that of its low 31 bits. -/
theorem abs_wordReal (w : Word) : |wordReal w| = (magnitudeOf (lowBits w) : ℝ) / 2 ^ 149 := by
  have hscaled : |scaledVal w| = (magnitudeOf (lowBits w) : Int) := by
    cases h : w.getLsbD 31
    · rw [scaledVal_nonneg_word w h, abs_of_nonneg (Int.natCast_nonneg _)]
    · rw [scaledVal_neg_word w h, abs_neg, abs_of_nonneg (Int.natCast_nonneg _)]
  rw [wordReal, abs_div, abs_of_pos (show (0 : ℝ) < 2 ^ 149 by positivity), ← Int.cast_abs, hscaled, Int.cast_natCast]

/-- A word with the sign bit clear is not negative. -/
theorem wordReal_nonneg {w : Word} (h : w.getLsbD 31 = false) : 0 ≤ wordReal w := by
  rw [wordReal, scaledVal_nonneg_word w h]
  positivity

/-- A word with the sign bit set is not positive. -/
theorem wordReal_nonpos {w : Word} (h : w.getLsbD 31 = true) : wordReal w ≤ 0 := by
  rw [wordReal, scaledVal_neg_word w h, Int.cast_neg, neg_div, neg_nonpos]
  positivity

theorem signBit_of_wordReal_pos {w : Word} (h : 0 < wordReal w) : w.getLsbD 31 = false := by
  cases hs : w.getLsbD 31
  · rfl
  · exact absurd h (wordReal_nonpos hs).not_gt

theorem signBit_of_wordReal_neg {w : Word} (h : wordReal w < 0) : w.getLsbD 31 = true := by
  cases hs : w.getLsbD 31
  · exact absurd h (wordReal_nonneg hs).not_gt
  · rfl

/-- A word is its sign bit and its low 31 bits. -/
theorem word_ext {v w : Word} (hsign : v.getLsbD 31 = w.getLsbD 31) (hlow : lowBits v = lowBits w) : v = w := by
  have hbits := BitVec.eq_of_toNat_eq hlow
  refine BitVec.eq_of_getLsbD_eq fun i hi => ?_
  obtain hlt | rfl : i < 31 ∨ i = 31 := by omega
  · have := congrArg (·.getLsbD i) hbits
    simpa [hlt] using this
  · exact hsign

/-- A value other than 0 is that of one word. -/
theorem eq_of_wordReal_eq {v w : Word} (hne : wordReal w ≠ 0) (h : wordReal v = wordReal w) : v = w := by
  have hlow : lowBits v = lowBits w := by
    have habs := congrArg abs h
    rw [abs_wordReal, abs_wordReal, div_left_inj' (by positivity)] at habs
    exact magnitudeOf_strictMono.injective (by exact_mod_cast habs)
  refine word_ext ?_ hlow
  obtain hneg | hpos := lt_or_gt_of_ne hne
  · rw [signBit_of_wordReal_neg hneg, signBit_of_wordReal_neg (h ▸ hneg)]
  · rw [signBit_of_wordReal_pos hpos, signBit_of_wordReal_pos (h ▸ hpos)]

/-- A word of value 0 with the sign bit clear is +0.0. -/
theorem eq_zero_of_wordReal_eq_zero {w : Word} (hsign : w.getLsbD 31 = false) (h : wordReal w = 0) : w = 0 := by
  have hmag : magnitudeOf (lowBits w) = magnitudeOf 0 := by
    have habs := abs_wordReal w
    rw [h, abs_zero, eq_comm, div_eq_zero_iff, or_iff_left (by positivity)] at habs
    rw [magnitudeOf_zero]
    exact_mod_cast habs
  exact word_ext hsign (magnitudeOf_strictMono.injective hmag)

theorem wordReal_zero : wordReal 0 = 0 := by
  rw [show (0 : Word) = BitVec.ofNat 32 0 from rfl, wordReal_ofNat 0 (by decide), magnitudeOf_zero, Nat.cast_zero,
    zero_div]

/-- The least positive word. -/
theorem wordReal_one : wordReal 1 = 1 / 2 ^ 149 := by
  rw [show (1 : Word) = BitVec.ofNat 32 1 from rfl, wordReal_ofNat 1 (by decide), show magnitudeOf 1 = 1 from rfl,
    Nat.cast_one]

/-- A word's value is a multiple of the least word's. -/
theorem least_le_abs_wordReal {w : Word} (h : wordReal w ≠ 0) : 1 / 2 ^ 149 ≤ |wordReal w| := by
  have hmag : magnitudeOf (lowBits w) ≠ 0 := by
    intro h0
    have habs := abs_wordReal w
    rw [h0, Nat.cast_zero, zero_div, abs_eq_zero] at habs
    exact h habs
  rw [abs_wordReal]
  gcongr
  exact_mod_cast Nat.one_le_iff_ne_zero.2 hmag

/-! ## Rounding is monotone -/

/-- A word's value at most the real is at most the rounded value. -/
theorem le_wordReal_of_le {r : ℝ} {v w : Word} (h : IsNearestEven r w) (hv : isFinite v = true) (hle : wordReal v ≤ r) :
    wordReal v ≤ wordReal w := by
  obtain ⟨-, hnear, -⟩ := h
  have hdist := hnear v hv
  rw [abs_of_nonpos (sub_nonpos.2 hle)] at hdist
  linarith [neg_le_of_abs_le hdist]

/-- A word's value at least the real is at least the rounded value. -/
theorem wordReal_le_of_le {r : ℝ} {v w : Word} (h : IsNearestEven r w) (hv : isFinite v = true) (hle : r ≤ wordReal v) :
    wordReal w ≤ wordReal v := by
  obtain ⟨-, hnear, -⟩ := h
  have hdist := hnear v hv
  rw [abs_of_nonneg (sub_nonneg.2 hle)] at hdist
  linarith [le_of_abs_le hdist]

/-- A word's value other than 0 rounds to that word. -/
theorem eq_of_isNearestEven {v w : Word} (hv : isFinite v = true) (hne : wordReal v ≠ 0)
    (h : IsNearestEven (wordReal v) w) : w = v :=
  eq_of_wordReal_eq hne ((wordReal_le_of_le h hv le_rfl).antisymm (le_wordReal_of_le h hv le_rfl))

/-- At half of the least word the tie goes to 0, the even significand, so only what lies above rounds to the least word
(R12). -/
theorem half_lt_of_isNearestEven_one {r : ℝ} (h0 : 0 ≤ r) (h : IsNearestEven r 1) : 1 / 2 ^ 150 < r := by
  obtain ⟨-, hnear, heven, -⟩ := h
  have hhalf : (1 : ℝ) / 2 ^ 149 = 2 * (1 / 2 ^ 150) := by norm_num
  have hzero : wordReal 0 ≠ wordReal 1 := by
    rw [wordReal_zero, wordReal_one]
    positivity
  by_contra! hle
  have hdist := hnear 0 (by decide)
  have htie : |wordReal 1 - r| = |wordReal 0 - r| := by
    rw [wordReal_one, wordReal_zero, abs_of_nonneg (by linarith), zero_sub, abs_neg, abs_of_nonneg h0] at hdist ⊢
    linarith
  exact absurd (heven 0 (by decide) htie hzero) (by decide)

/-- A non-negative real rounds to +0.0, where the sign bit is clear, exactly up to half of the least word (R175). -/
theorem eq_zero_iff_of_isNearestEven {r : ℝ} {w : Word} (h0 : 0 ≤ r) (h : IsNearestEven r w)
    (hsign : w.getLsbD 31 = false) : w = 0 ↔ r ≤ 1 / 2 ^ 150 := by
  have hhalf : (1 : ℝ) / 2 ^ 149 = 2 * (1 / 2 ^ 150) := by norm_num
  have hhalfpos : (0 : ℝ) < 1 / 2 ^ 150 := by positivity
  have hone : isFinite 1 = true := by decide
  constructor
  · rintro rfl
    by_contra! hlt
    obtain ⟨-, hnear, -⟩ := h
    have hdist := hnear 1 hone
    rw [wordReal_zero, wordReal_one, zero_sub, abs_neg, abs_of_nonneg h0, le_abs] at hdist
    obtain hle | hle := hdist <;> linarith
  · intro hr
    by_contra hne
    have hle : wordReal w ≤ wordReal 1 := wordReal_le_of_le h hone (by rw [wordReal_one]; linarith)
    have hge : wordReal 1 ≤ wordReal w := by
      rw [wordReal_one, ← abs_of_nonneg (wordReal_nonneg hsign)]
      exact least_le_abs_wordReal fun hw => hne (eq_zero_of_wordReal_eq_zero hsign hw)
    have hw : w = 1 := eq_of_wordReal_eq (by rw [wordReal_one]; positivity) (hle.antisymm hge)
    exact (half_lt_of_isNearestEven_one h0 (hw ▸ h)).not_ge hr

/-! ## A window that is not all zero -/

theorem least_sq_le_normSq {x : Sample} (h : sampleComplex x ≠ 0) :
    ((1 : ℝ) / 2 ^ 149) ^ 2 ≤ Complex.normSq (sampleComplex x) := by
  have sq_le {w : Word} (hw : wordReal w ≠ 0) : ((1 : ℝ) / 2 ^ 149) ^ 2 ≤ wordReal w * wordReal w := by
    rw [← sq, ← sq_abs (wordReal w)]
    exact pow_le_pow_left₀ (by positivity) (least_le_abs_wordReal hw) 2
  rw [sampleComplex, Complex.normSq_mk]
  by_cases hre : wordReal x.re = 0
  · have him : wordReal x.im ≠ 0 := fun him => h (Complex.ext hre him)
    exact (sq_le him).trans (le_add_of_nonneg_left (mul_self_nonneg _))
  · exact (sq_le hre).trans (le_add_of_nonneg_right (mul_self_nonneg _))

/-- The root of the largest magnitude of a window that is not all zero is at least the least word (R166). -/
theorem least_le_sqrt_peak {t : Template} (ht : UnitTemplate t) {w : Window} {i : Fin 512}
    (hpeak : IsPeak (realMags t w) i) (hw : ∃ j : Fin 512, sampleComplex w[j] ≠ 0) :
    1 / 2 ^ 149 ≤ √(realMags t w i) := by
  obtain ⟨j, hj⟩ := hw
  have henergy : Complex.normSq (sampleComplex w[j]) ≤ windowEnergy w :=
    Finset.single_le_sum (f := fun j : Fin 512 => Complex.normSq (sampleComplex w[j]))
      (fun _ _ => Complex.normSq_nonneg _) (Finset.mem_univ j)
  rw [Real.le_sqrt' (by positivity)]
  exact (least_sq_le_normSq hj).trans (henergy.trans (windowEnergy_le_peak ht hpeak))

/-- The magnitudes of the zero window. -/
theorem realMags_of_zero {t : Template} {w : Window} (hw : ∀ j : Fin 512, sampleComplex w[j] = 0) (m : Fin 512) :
    realMags t w m = 0 := by
  simp only [realMags, realBins, realDft, hw, mul_zero, zero_mul, Finset.sum_const_zero, map_zero]

/-- The DUAL word by its value: +0.0 for the zero window, and otherwise at least the least word in magnitude, with the
decision's sign (R175). -/
theorem dualWord_cases {s : State} {w : Window} {y : Word} (hmode : s.mode = .dual) (h0 : UnitTemplate s.t0)
    (h1 : UnitTemplate s.t1) (hy : IsNearestEven (exactResult s w) y) :
    ((∀ j : Fin 512, sampleComplex w[j] = 0) ∧ y = 0 ∧ (⨆ m, realMags s.t0 w m) ≤ ⨆ m, realMags s.t1 w m) ∨
    ((∃ j : Fin 512, sampleComplex w[j] ≠ 0) ∧ 1 / 2 ^ 149 ≤ wordReal y ∧
      (⨆ m, realMags s.t0 w m) ≤ ⨆ m, realMags s.t1 w m) ∨
    ((∃ j : Fin 512, sampleComplex w[j] ≠ 0) ∧ wordReal y ≤ -(1 / 2 ^ 149) ∧
      (⨆ m, realMags s.t1 w m) < ⨆ m, realMags s.t0 w m) := by
  obtain ⟨i0, hpeak0⟩ := exists_isPeak s.t0 w
  obtain ⟨i1, hpeak1⟩ := exists_isPeak s.t1 w
  have hresult := exactResult_dual hmode hpeak0 hpeak1
  have hone : isFinite 1 = true := by decide
  rw [isPeak_sup hpeak0, isPeak_sup hpeak1]
  by_cases hzero : ∀ j : Fin 512, sampleComplex w[j] = 0
  · rw [realMags_of_zero hzero, realMags_of_zero hzero, if_pos le_rfl, Real.sqrt_zero] at hresult
    rw [realMags_of_zero hzero, realMags_of_zero hzero]
    obtain ⟨-, -, -, hrounds⟩ := hy
    exact .inl ⟨hzero, hrounds hresult, le_rfl⟩
  · have hne := not_forall.1 hzero
    by_cases hle : realMags s.t0 w i0 ≤ realMags s.t1 w i1
    · have hleast := least_le_sqrt_peak h1 hpeak1 hne
      rw [hresult, if_pos hle] at hy
      rw [← wordReal_one] at hleast ⊢
      exact .inr (.inl ⟨hne, le_wordReal_of_le hy hone hleast, hle⟩)
    · have hleast := least_le_sqrt_peak h0 hpeak0 hne
      obtain ⟨v, hv, hval⟩ := exists_wordReal_neg hone
      rw [hresult, if_neg hle] at hy
      rw [wordReal_one] at hval
      rw [← hval]
      exact .inr (.inr ⟨hne, wordReal_le_of_le hy hv (by rw [hval]; exact neg_le_neg hleast), not_le.1 hle⟩)

/-- Settles O42: the DUAL word by the cases of its value, the SINGLE word by where rounding answers +0.0. -/
theorem outputSignAndZero : Obligations.OutputSignAndZero := by
  intro s p code0 hexact ht0 hfinite hrange
  have hleast : (0 : ℝ) < 1 / 2 ^ 149 := by positivity
  refine ⟨fun code1 hmode ht1 => ?_, fun hmode => ?_⟩
  · have h0 : UnitTemplate s.t0 := ht0 ▸ unitTemplate_loadTemplate code0
    have h1 : UnitTemplate s.t1 := ht1 ▸ unitTemplate_loadTemplate code1
    have ne_zero {y : Word} (hy : wordReal y ≠ 0) : y ≠ 0 := fun h => hy (h ▸ wordReal_zero)
    obtain ⟨hzero, hy, hle⟩ | ⟨hne, hy, hle⟩ | ⟨hne, hy, hlt⟩ :=
      dualWord_cases hmode h0 h1 (windowStep_out hexact hfinite hrange)
    · rw [hy]
      exact ⟨iff_of_true rfl hzero, fun ⟨j, hj⟩ => absurd (hzero j) hj, iff_of_true rfl hle⟩
    · have hpos := hleast.trans_le hy
      exact ⟨iff_of_false (ne_zero hpos.ne') (not_forall.2 hne), fun _ => hy.trans (le_abs_self _),
        iff_of_true (signBit_of_wordReal_pos hpos) hle⟩
    · have hneg : wordReal (windowStep s p).out < 0 := by linarith
      refine ⟨iff_of_false (ne_zero hneg.ne) (not_forall.2 hne), fun _ => ?_,
        iff_of_false (by simp [signBit_of_wordReal_neg hneg]) hlt.not_ge⟩
      rw [abs_of_neg hneg]
      linarith
  · obtain ⟨hnear, hsign⟩ := windowStep_single_out hexact hfinite hmode hrange
    rw [exactResult_single hmode] at hnear
    exact ⟨hsign, eq_zero_iff_of_isNearestEven (Finset.sum_nonneg fun m _ => realMags_nonneg _ _ m) hnear hsign⟩

/-! ## The end-to-end scenario -/

/-- The word of 0, +1 or -1 is finite and has that value (R55). -/
theorem wordReal_intWord {z : Int} (h : UnitPart z) : isFinite (intWord z) = true ∧ wordReal (intWord z) = z := by
  rw [wordReal, intWord_unitPart h]
  obtain rfl | rfl | rfl := h
  · exact ⟨by decide, by simp [show scaledVal 0#32 = 0 by decide]⟩
  · exact ⟨by decide, by norm_num [show scaledVal 0x3F800000#32 = 2 ^ 149 by decide +kernel]⟩
  · exact ⟨by decide, by norm_num [show scaledVal 0xBF800000#32 = -2 ^ 149 by decide +kernel]⟩

theorem unitParts_modulate (code : Code) : UnitParts (modulate code) := by
  intro k hk
  rw [modulate_getElem]
  exact modulatedSample_unitParts code k

/-- The live samples are the entries of x (R178). -/
def Pushed (s : State) (x : Template) : Prop := s.inStream = x.toList.map sampleOfInts

theorem liveWindow_of_pushed {s : State} {x : Template} (h : Pushed s x) (j : Fin 512) :
    (liveWindow s 0)[j] = sampleOfInts x[j] := by
  rw [Pushed] at h
  simp [liveWindow, h]

theorem length_of_pushed {s : State} {x : Template} (h : Pushed s x) : s.inStream.length = 512 := by
  rw [h, List.length_map, Vector.length_toList]

/-- The window of pushed units is finite. -/
theorem finiteWindow_of_pushed {s : State} {x : Template} (h : Pushed s x) (hx : UnitParts x) :
    finiteWindow (liveWindow s 0) = true := by
  rw [finiteWindow, List.all_eq_true]
  intro y hy
  obtain ⟨k, hk, rfl⟩ := List.getElem_of_mem hy
  have hk : k < 512 := by simpa using hk
  obtain ⟨hre, him⟩ := hx k hk
  have hsample := liveWindow_of_pushed h ⟨k, hk⟩
  rw [Fin.getElem_fin, Fin.getElem_fin] at hsample
  rw [Vector.getElem_toList, hsample, finiteSample, Bool.and_eq_true]
  exact ⟨(wordReal_intWord hre).1, (wordReal_intWord him).1⟩

/-- The samples of the window of pushed units have their values. -/
theorem sampleComplex_of_pushed {s : State} {x : Template} (h : Pushed s x) (hx : UnitParts x) (j : Fin 512) :
    sampleComplex (liveWindow s 0)[j] = intComplex x[j] := by
  obtain ⟨hre, him⟩ := hx j j.isLt
  rw [liveWindow_of_pushed h]
  exact Complex.ext (wordReal_intWord hre).2 (wordReal_intWord him).2

/-- The DUAL word of a window of unit samples that makes a tone of slot 0's template: slot 1 wins exactly where it
reaches 512^2 as well (R178). -/
theorem dualWord_of_tone {s : State} {w : Window} {y : Word} {k : Fin 512} (hmode : s.mode = .dual)
    (h1 : UnitTemplate s.t1) (hunit : UnitWindow w) (htone : MakesTone s.t0 w k)
    (hy : IsNearestEven (exactResult s w) y) :
    (y = 0x44000000 ∧ ∃ m, realMags s.t1 w m = 512 ^ 2) ∨
      (y = 0xC4000000 ∧ ¬∃ m, realMags s.t1 w m = 512 ^ 2) := by
  obtain ⟨i1, hpeak1⟩ := exists_isPeak s.t1 w
  have hmax := realMags_le_of_unitWindow h1 hunit
  have hroot : √((512 : ℝ) ^ 2) = 512 := Real.sqrt_sq (by norm_num)
  have hpos : wordReal 0x44000000 = 512 := by
    rw [wordReal, show scaledVal 0x44000000 = 512 * 2 ^ 149 by decide +kernel]
    norm_num
  have hneg : wordReal 0xC4000000 = -512 := by
    rw [wordReal, show scaledVal 0xC4000000 = -(512 * 2 ^ 149) by decide +kernel]
    norm_num
  rw [exactResult_dual hmode (isPeak_of_tone htone) hpeak1, realMags_of_tone htone, if_pos rfl] at hy
  by_cases hle : 512 ^ 2 ≤ realMags s.t1 w i1
  · have hequal : realMags s.t1 w i1 = 512 ^ 2 := (hmax i1).antisymm hle
    rw [if_pos hle, hequal, hroot, ← hpos] at hy
    exact .inl ⟨eq_of_isNearestEven (by decide) (by rw [hpos]; norm_num) hy, i1, hequal⟩
  · rw [if_neg hle, hroot, ← hneg] at hy
    refine .inr ⟨eq_of_isNearestEven (by decide) (by rw [hneg]; norm_num) hy, ?_⟩
    rintro ⟨m, hm⟩
    exact hle (hm ▸ hpeak1.1 m)

/-- The waveform of the code makes the tone of bin 0 of its template, and the template itself that of bin 256 (R178). -/
theorem exists_tone {t x : Template} {code : Code} {w : Window} {bin : BitVec 9} (ht : t = loadTemplate code)
    (hx : (x = modulate code ∧ bin = 0) ∨ (x = loadTemplate code ∧ bin = 256))
    (hsample : ∀ j : Fin 512, sampleComplex w[j] = intComplex x[j]) :
    ∃ k : Fin 512, bin = BitVec.ofNat 9 k ∧ UnitWindow w ∧ MakesTone t w k := by
  have hunit : UnitTemplate t := ht ▸ unitTemplate_loadTemplate code
  obtain ⟨rfl, rfl⟩ | ⟨rfl, rfl⟩ := hx
  · have hconj (j : Fin 512) : sampleComplex w[j] = (starRingEnd ℂ) (intComplex t[j]) := by
      rw [hsample, conj_of_eq_loadTemplate ht, starRingEnd_self_apply]
    exact ⟨0, rfl, unitWindow_conj hunit hconj, makesTone_conj hunit hconj⟩
  · rw [← ht] at hsample
    exact ⟨256, rfl, unitWindow_self hunit hsample, makesTone_self ht hsample⟩

/-- RUN 1 with its samples and places appends the word of the first live window. -/
theorem exec_run_one {s : State} (hready : s.phase = .ready) (hlegal : legalParams s.params)
    (hin : 512 ≤ s.inStream.length) (hout : s.outFifo = []) :
    exec (.run 1) s = .next (complete (consume 1 (writeWindow (windowStep s s.rp) s))) := by
  obtain ⟨hincap, houtcap⟩ := hlegal
  refine exec_run_of_enabled hready ((capacityAtLeast_iff _ _).1 hincap) ((runEnabled_iff 1 s).2 ⟨hin, ?_⟩)
  rw [hout]
  exact (capacityAtLeast_iff _ _).1 houtcap

/-- Settles O43: the pushed window makes a tone of slot 0's template, so slot 0 reaches 512^2 and slot 1 no more. -/
theorem endToEnd : Obligations.EndToEnd := by
  intro s code0 code1 hready hmode hexact hlegal hout ht0 ht1 x bin hx hpushed
  have h0 : UnitTemplate s.t0 := ht0 ▸ unitTemplate_loadTemplate code0
  have h1 : UnitTemplate s.t1 := ht1 ▸ unitTemplate_loadTemplate code1
  have hwin : window s s.rp = liveWindow s 0 := by simpa using window_eq_liveWindow s (k := 0) (by decide)
  have hunits : UnitParts x := by
    obtain ⟨rfl, -⟩ | ⟨rfl, -⟩ := hx
    · exact unitParts_modulate code0
    · exact unitParts_loadTemplate code0
  have hfinite : finiteWindow (window s s.rp) = true := hwin ▸ finiteWindow_of_pushed hpushed hunits
  have hsample := sampleComplex_of_pushed hpushed hunits
  rw [← hwin] at hsample ⊢
  obtain ⟨k, hbin, hunit, htone⟩ := exists_tone ht0 hx hsample
  have hrange := inRange_of_unitWindow hmode h0 h1 hunit
  have hword := dualWord_of_tone hmode h1 hunit htone (windowStep_out hexact hfinite hrange)
  have hidx0 := (windowStep_bins hexact hfinite hmode hrange k).1 (isPeak_of_tone htone)
  refine ⟨_, (windowStep s s.rp).out, exec_run_one hready hlegal (length_of_pushed hpushed).ge hout, ?_, ?_, ?_, ?_,
    realMags_le_of_unitWindow h1 hunit⟩
  · rw [complete_outFifo, consume_outFifo, writeWindow_outFifo, hout, List.nil_append]
  · rw [complete_idx0, consume_idx0, writeWindow_idx0, hidx0, hbin]
  · obtain ⟨hy, -⟩ | ⟨hy, -⟩ := hword
    · exact .inr hy
    · exact .inl hy
  · obtain ⟨hy, hreaches⟩ | ⟨hy, hbelow⟩ := hword
    · exact iff_of_true hy hreaches
    · exact iff_of_false (by rw [hy]; decide) hbelow

end Sys2Proof.Proofs

/-! # The errors

Which check a command fails, as rules for `failedCheck` (R204 to R207, R210); that a command which fails none leaves the
error record as it is; and the numbers of the codes in STATUS (R27, R202). -/

namespace Sys2Proof.Proofs

open Sys2Proof.Machine Sys2Proof.Safety Sys2Proof.Laws

/-! ## The check that fails -/

/-- A command that fails a check records its error and changes nothing else (R201). -/
theorem exec_errorRecorded {i : Instr} {s : State} {e : ErrorCode} (h : failedCheck s i = some e) :
    ∃ t, exec i s = .next t ∧ errorRecorded e s t := ⟨_, exec_of_failedCheck h, rfl⟩

/-- So does a pending word that fails. -/
theorem engineStep_errorRecorded {s : State} {w : Word} {e : ErrorCode} (hw : s.pending = some w)
    (he : wordError s w = some e) : ∃ t, engineStep s = .next t ∧ errorRecorded e s t :=
  ⟨_, engineStep_of_wordError hw he, rfl⟩

theorem wordError_of_error {s : State} {w : Word} {r : DecodeReject} (hr : decodeWord w = .error r) :
    wordError s w = some .illegalCommand := by simp only [wordError, hr]

theorem wordError_of_decode {s : State} {w : Word} {i : Instr} (hi : decodeWord w = .ok i) :
    wordError s w = failedCheck s i := by simp only [wordError, hi]

theorem failedCheck_cfgSingle_of_ready {s : State} (h : s.phase = .ready) (sel : Int) :
    failedCheck s (.cfgSingle sel) = some .reconfigure := by simp only [failedCheck, if_pos h]

theorem failedCheck_cfgDual_of_ready {s : State} (h : s.phase = .ready) (sel0 sel1 : Int) :
    failedCheck s (.cfgDual sel0 sel1) = some .reconfigure := by simp only [failedCheck, if_pos h]

theorem failedCheck_run_of_unconfigured {s : State} (h : s.phase = .unconfigured) (n : Nat) :
    failedCheck s (.run n) = some .notConfigured := by simp only [failedCheck, if_pos h]

theorem failedCheck_cfgSingle_of_invalid {s : State} (h : s.phase = .unconfigured) {sel : Int}
    (hsel : ¬(-2 ≤ sel ∧ sel ≤ 510)) : failedCheck s (.cfgSingle sel) = some .invalidSelector := by
  have hout : sel < -2 ∨ 510 < sel := by omega
  simp [failedCheck, h, hout]

/-- Whichever selector is invalid, the error is the same (R206). -/
theorem failedCheck_cfgDual_of_invalid {s : State} (h : s.phase = .unconfigured) {sel0 sel1 : Int}
    (hsel : ¬(-2 ≤ sel0 ∧ sel0 ≤ 510) ∨ ¬(-2 ≤ sel1 ∧ sel1 ≤ 510)) :
    failedCheck s (.cfgDual sel0 sel1) = some .invalidSelector := by
  by_cases h0 : sel0 < -2 ∨ 510 < sel0
  · simp [failedCheck, h, h0]
  · have h1 : sel1 < -2 ∨ 510 < sel1 := by omega
    simp [failedCheck, h, h0, h1]

theorem failedCheck_run_of_tooLong {s : State} (h : s.phase = .ready) {n : Nat}
    (hlong : (∃ c, s.params.inCapacity = some c ∧ c < n + 511) ∨ ∃ c, s.params.outCapacity = some c ∧ c < n) :
    failedCheck s (.run n) = some .runLength := by
  have hconf : s.phase ≠ .unconfigured := by simp [h]
  simp only [failedCheck, if_neg hconf]
  exact if_pos hlong

theorem failedCheck_run_of_fits {s : State} (h : s.phase = .ready) {n : Nat}
    (hin : ∀ c, s.params.inCapacity = some c → n + 511 ≤ c) (hout : ∀ c, s.params.outCapacity = some c → n ≤ c) :
    failedCheck s (.run n) = none := by
  have hconf : s.phase ≠ .unconfigured := by simp [h]
  simp only [failedCheck, ← runTooLong_iff, runTooLong_eq_false hin hout, if_neg hconf]
  rfl

/-! ## No check fails -/

/-- A command that no check fails leaves the error record as it is, but for SRESET (R210). -/
theorem exec_keeps_errors {i : Instr} {s t : State} (hi : i ≠ .sreset) (hcheck : failedCheck s i = none)
    (h : exec i s = .next t) : t.err = s.err ∧ t.firstErr = s.firstErr := by
  cases i with
  | cfgSingle sel =>
    simp only [failedCheck, ← validSelector_eq_false_iff] at hcheck
    simp only [exec, execCfgSingle] at h
    split_ifs at hcheck h
    cases h
    exact ⟨rfl, rfl⟩
  | cfgDual sel0 sel1 =>
    simp only [failedCheck, ← validSelector_eq_false_iff] at hcheck
    simp only [exec, execCfgDual] at h
    split_ifs at hcheck h
    cases h
    exact ⟨rfl, rfl⟩
  | run n =>
    simp only [failedCheck, ← runTooLong_iff] at hcheck
    simp only [exec, execRun] at h
    split_ifs at hcheck h with _ _ hzero henabled
    · cases h
      exact ⟨rfl, rfl⟩
    · cases h
      obtain ⟨-, -, -, -, -, -, -, -, -, -, -, herr, hfirst, -⟩ := runWindows_frame n s.rp s
      exact ⟨herr, hfirst⟩
    · cases h
      exact ⟨rfl, rfl⟩
  | sreset => exact absurd rfl hi

/-- So does a RUN in READY that the capacities have room for (R207). -/
theorem exec_run_keeps_errors {n : Nat} {s t : State} (hready : s.phase = .ready)
    (hin : ∀ c, s.params.inCapacity = some c → n + 511 ≤ c) (hout : ∀ c, s.params.outCapacity = some c → n ≤ c)
    (h : exec (.run n) s = .next t) : t.err = s.err ∧ t.firstErr = s.firstErr :=
  exec_keeps_errors (i := .run n) nofun (failedCheck_run_of_fits hready hin hout) h

/-! ## The codes -/

theorem errorNumber_injective : Function.Injective errorNumber := by
  intro e e' h
  revert h
  cases e <;> cases e' <;> decide

/-- The numbers of the codes (R202). -/
theorem errorNumber_range (e : ErrorCode) : 1 ≤ (errorNumber e).toNat ∧ (errorNumber e).toNat ≤ 5 := by
  cases e <;> decide

/-- Code c has bit c - 1 of ERR (R28). -/
theorem errorBit_getLsbD (e : ErrorCode) : (errorBit e).getLsbD ((errorNumber e).toNat - 1) = true := by
  cases e <;> rfl

/-- A recorded error shows in STATUS bit 7 + c (R27, R202). -/
theorem statusWord_raise_getLsbD (e : ErrorCode) (s : State) :
    (statusWord (raise e s)).getLsbD (7 + (errorNumber e).toNat) = true := by
  obtain ⟨hlo, -⟩ := errorNumber_range e
  rw [show 7 + (errorNumber e).toNat = 8 + ((errorNumber e).toNat - 1) by omega, statusWord_err, raise_err,
    BitVec.getLsbD_or, errorBit_getLsbD, Bool.or_true]

/-! ## The obligations -/

/-- Settles O13: the check of the selectors in UNCONFIGURED, the ten-bit values that fail it, and R206's example. -/
theorem invalidSelectorError : Obligations.InvalidSelectorError := by
  refine ⟨fun s hphase => ⟨fun sel hsel => ?_, fun sel0 sel1 hsel => ?_⟩, fun sel hfits => ?_, ?_⟩
  · exact exec_errorRecorded (failedCheck_cfgSingle_of_invalid hphase hsel)
  · exact exec_errorRecorded (failedCheck_cfgDual_of_invalid hphase hsel)
  · simp only [selectorFits, Bool.and_eq_true, decide_eq_true_eq] at hfits
    rw [← Bool.not_eq_true', validSelector_eq_false_iff]
    omega
  · exact ⟨_, exec_of_failedCheck (failedCheck_cfgSingle_of_invalid rfl (by decide)), by decide⟩

/-- Settles O14: the check of the count in READY; unbounded capacities pass every count, and IN_CAPACITY 1024 passes 513
and no more. -/
theorem runLengthError : Obligations.RunLengthError := by
  refine ⟨fun s n hready hlong => ?_, fun s n hready hin hout t h => ?_,
    fun s hready hin hout => ⟨?_, fun t h => ?_⟩⟩
  · exact exec_errorRecorded (failedCheck_run_of_tooLong hready hlong)
  · exact exec_run_keeps_errors hready (by simp [hin]) (by simp [hout]) h
  · exact exec_errorRecorded (failedCheck_run_of_tooLong hready (.inl ⟨1024, hin, by decide⟩))
  · exact exec_run_keeps_errors hready (by simp [hin]) (by simp [hout]) h

/-- Settles O15: by the decoder's answer, then by the first check that fails, if one does. -/
theorem checkOrder : Obligations.CheckOrder := by
  intro s w hw
  cases hd : decodeWord w with
  | error r => exact engineStep_errorRecorded hw (wordError_of_error hd)
  | ok i =>
    cases hcheck : failedCheck s i with
    | some e =>
      simp only [hcheck]
      exact engineStep_errorRecorded hw ((wordError_of_decode hd).trans hcheck)
    | none =>
      simp only [hcheck]
      rw [engineStep_of_decode hw hd]
      split_ifs with hs
      · subst hs
        exact ⟨_, rfl, rfl, rfl⟩
      · obtain ⟨t, ht⟩ := exec_next i s
        exact ⟨t, ht, exec_keeps_errors hs hcheck ht⟩

/-- Settles O10: the Engine's step of a word that fails, and R203's example. -/
theorem illegalCommandError : Obligations.IllegalCommandError :=
  ⟨fun _ _ _ hw hr => engineStep_errorRecorded hw (wordError_of_error hr), _,
    engineStep_of_wordError rfl (wordError_of_error (r := .undefinedOpcode) (by decide)), by decide⟩

/-- Settles O11: the phase check comes before that of the selectors, and R204's example. -/
theorem reconfigureError : Obligations.ReconfigureError :=
  ⟨fun _ hready => ⟨fun sel => exec_errorRecorded (failedCheck_cfgSingle_of_ready hready sel),
      fun sel0 sel1 => exec_errorRecorded (failedCheck_cfgDual_of_ready hready sel0 sel1)⟩,
    _, _, exec_cfgSingle_of_valid rfl (by decide), exec_of_failedCheck (failedCheck_cfgDual_of_ready rfl 1 2),
    rfl, rfl, by decide⟩

/-- Settles O12: the phase check of RUN, whose error leaves both streams as they are, and R205's example. -/
theorem notConfiguredError : Obligations.NotConfiguredError :=
  ⟨fun s n hphase => ⟨_, exec_of_failedCheck (failedCheck_run_of_unconfigured hphase n), rfl,
      raise_inStream _ s, raise_outFifo _ s⟩,
    _, exec_of_failedCheck (failedCheck_run_of_unconfigured rfl 1), by decide⟩

/-- Settles O17: the codes are numbered 1 to 5, and STATUS shows the bit of each in its place. -/
theorem errorCodes : Obligations.ErrorCodes := by
  intro e s
  obtain ⟨hlo, hhi⟩ := errorNumber_range e
  exact ⟨hlo, hhi, fun _ h => errorNumber_injective h, statusWord_raise_getLsbD e s⟩

end Sys2Proof.Proofs

/-! # The reset state

The parameters that the reset state takes are legal (R7), so it is in the invariant; and every element of a block that
was reset, by SRESET, by the reset input or at the start, has its reset value (R220, R221). -/

namespace Sys2Proof.Proofs

open Sys2Proof.Machine Sys2Proof.Safety Sys2Proof.Laws

/-! ## The parameters at the start -/

/-- A capacity given by how far it lies above its least value has room for that value, whatever the distance. -/
theorem capacityAtLeast_map_add (least : Nat) (above : Option Nat) :
    capacityAtLeast (above.map (least + ·)) least = true := by
  rw [capacityAtLeast_iff]
  intro k hk
  obtain ⟨extra, -, rfl⟩ := Option.map_eq_some_iff.1 hk
  exact Nat.le_add_right least extra

/-- The open parameters are legal (R7). -/
theorem legalParams_config : legalParams Config.params :=
  ⟨capacityAtLeast_map_add 512 _, capacityAtLeast_map_add 1 _⟩

/-! ## The reset block -/

/-- The state at the start is that of a block which was reset there (R220). -/
theorem resetBlock_reset : resetBlock State.reset = State.reset := rfl

/-- Every entry of a template is 0 after reset (R30). -/
theorem zeroTemplate_getElem {k : Nat} (hk : k < 512) : zeroTemplate[k] = ⟨0, 0⟩ := Vector.getElem_replicate hk

/-- STATUS shows nothing that a reset keeps, so it reads its reset value after every reset (R27, R220). -/
theorem statusWord_resetBlock (s : State) : statusWord (resetBlock s) = 0 :=
  calc statusWord (resetBlock s)
    _ = statusWord State.reset := rfl
    _ = 0 := statusBits.2

/-! ## The obligations -/

/-- Settles O44: SRESET and the reset input both answer `resetBlock`, of which the state at the start is a case. -/
theorem resetState : Obligations.ResetState := by
  intro s
  refine ⟨resetBlock s, rfl, rfl, resetBlock_params s, fun u hu => ?_⟩
  obtain ⟨v, rfl⟩ : ∃ v, u = resetBlock v := by
    obtain rfl | rfl := hu
    · exact ⟨s, rfl⟩
    · exact ⟨State.reset, resetBlock_reset.symm⟩
  simp [zeroTemplate_getElem, statusWord_resetBlock]

/-- Settles O56: the state at the start is reset and its parameters are legal. -/
theorem resetInv : Obligations.ResetInv := resetBlock_inv (s := State.reset) legalParams_config

end Sys2Proof.Proofs
